-- ==== Sys2Proof/Word.lean ====
section
/-! DEFINITION. The widths and the data records of HTB: symbols, weights, node indices, the node record
and the code-table record (spec/00_scope.md R8, R15; spec/10_state.md R49-R53), and a RAM as plain data. -/

namespace Sys2Proof

/-- A host-port word, and the width of every register (10_state.md section 2; 20_memory.md R82). -/
abbrev Word := BitVec 32

/-- A symbol, `SYM_W` = 8 bits; every value is a symbol (R8, R49). -/
abbrev Sym := BitVec 8

/-- An input frequency, `FREQ_W` = 32 bits (R8). -/
abbrev Freq := BitVec 32

/-- A node weight, `WGT_W` = 40 bits (R8, R10). -/
abbrev Weight := BitVec 40

/-- A node index, `IDX_W` = 9 bits (R8). -/
abbrev NodeIdx := BitVec 9

/-- A byte offset from `HTB_BASE` inside the 512 KiB aperture, 19 bits (20_memory.md R80). -/
abbrev Offset := BitVec 19

/-- `NIL`, the node index that names no node (R8). -/
abbrev nil : NodeIdx := 0x1FF#9

/-- An entry of the node store `NODE` (10_state.md R50). -/
structure Node where
  leaf : Bool
  sym : Sym
  weight : Weight
  left : NodeIdx
  right : NodeIdx
deriving DecidableEq, Repr, Inhabited

/-- An entry of the code table `CODE`; `bits[j]` is the j-th bit of the codeword in stream order
(10_state.md R53). -/
structure CodeEntry where
  valid : Bool
  len : BitVec 8
  bits : BitVec 255
deriving DecidableEq, Repr, Inhabited

/-- A RAM as plain data: the entries written since reset, by rising index. An index it does not list
has not been written since reset (70_reset_and_hazards.md R291; log 6, log 18). -/
abbrev Ram (α : Type) := List (Nat × α)

end Sys2Proof
end

