-- ==== Sys2Proof/Config.lean ====
section
/-! DEFINITION. What is fixed for this hardware (spec/00_scope.md R8, R9; the constants of
spec/10_state.md R33, R34), the two open platform parameters, and the free values: constants with no
body, so that nothing can be proved of what they are. -/

namespace Sys2Proof.Config

/-- `N_MAX`, the largest alphabet (R8). -/
def nMax : Nat := 256

/-- `NODE_MAX` = 2 * N_MAX - 1 entries of the node store (R8). -/
def nodeMax : Nat := 511

/-- `L_MAX`, the longest codeword (R8). -/
def lMax : Nat := 255

/-- `TEXT_MAX`, the symbols of the text RAM (R8). -/
def textMax : Nat := 4096

/-- `BIT_MAX`, the bits of the bit RAM (R8). -/
def bitMax : Nat := 32768

/-- `OUT_MAX` = BIT_MAX, the symbols of the output RAM (R8). -/
def outMax : Nat := 32768

/-- `FALLBACK_BIT`, the one-bit codeword of a one-symbol alphabet (R8, D8). -/
def fallbackBit : Bool := false

/-- How the priority queue orders equal weights (R9). `any` stands for every conforming implementation. -/
inductive TieBreak where
  | index
  | any
deriving DecidableEq, Repr

/-- `TIE_BREAK`: this hardware's value is `INDEX` (R8, R9). -/
def tieBreak : TieBreak := .index

/-- The register `ID` (10_state.md R33): 'H', 'T', 'B', revision 1. -/
def idWord : Word := 0x48#8 ++ 0x54#8 ++ 0x42#8 ++ 0x01#8

/-- `PARAM0` reads `N_MAX` (R34). -/
def param0 : Word := BitVec.ofNat 32 nMax

/-- `PARAM1` reads `TEXT_MAX` (R34). -/
def param1 : Word := BitVec.ofNat 32 textMax

/-- `PARAM2` reads `BIT_MAX` (R34). -/
def param2 : Word := BitVec.ofNat 32 bitMax

/-- `PARAM3`: SYM_W, FREQ_W, WGT_W, FALLBACK_BIT and TIE_BREAK, 0 for `INDEX` and 1 for `ANY` (R34). -/
def param3 : Word :=
  0#6 ++ BitVec.ofBool (tieBreak == .any) ++ BitVec.ofBool fallbackBit ++ 40#8 ++ 32#8 ++ 8#8

/-- The size of the aperture, 512 KiB (20_memory.md R80). -/
def apertureBytes : Nat := 0x80000

/-- Open: which multiple of 512 KiB `HTB_BASE` is (R80; log 16). -/
opaque htbBaseIndex : Nat

/-- `HTB_BASE`, aligned to 512 KiB (R80). -/
def htbBase : Nat := htbBaseIndex * apertureBytes

/-- Open: `HTB_IRQ_LINE`, where the platform wires `irq` (60_exceptions.md R270; log 16). -/
opaque htbIrqLine : Nat

/-- The offset that a platform address has in the aperture at `base`, where it lies in it (R80). -/
def offsetIn (base addr : Nat) : Option Offset :=
  if base ≤ addr ∧ addr < base + apertureBytes then some (BitVec.ofNat 19 (addr - base)) else none

/-! Free values. The first argument of a RAM draw counts the resets, the second is the index: an entry
that nothing has written since a reset holds one unknown value until it is written (R291; log 6, log 7). -/

/-- The content of `ALPHA[i].sym` never written since reset (R291). -/
opaque alphaSymDraw : Nat → Nat → Sym

/-- The content of `ALPHA[i].freq` never written since reset (R291). -/
opaque alphaFreqDraw : Nat → Nat → Freq

/-- The content of `TEXT[p]` never written since reset (R291). -/
opaque textDraw : Nat → Nat → Sym

/-- The content of `BIT[q]` never written since reset (R291). -/
opaque bitDraw : Nat → Nat → Bool

/-- The content of `NODE[k]` never written since reset (R291, 10_state.md R59). -/
opaque nodeDraw : Nat → Nat → Node

/-- The content of `H[j]` never written since reset (R291, R59). -/
opaque heapDraw : Nat → Nat → NodeIdx

/-- The content of `CODE[s]` never written since reset (R291, R59). -/
opaque codeDraw : Nat → Nat → CodeEntry

/-- The content of `OUT[k]` never written since reset (R291, R59). -/
opaque outDraw : Nat → Nat → Sym

/-- What a read of a non-constant register or window gives while BUSY: one free draw per read, numbered
by the counter `draws` (20_memory.md R95; log 8). -/
opaque busyRead : Nat → Word

/-- Under `TIE_BREAK = ANY`, whether node a comes before node b of equal weight: free, and drawn anew
for every queue operation (40_priority_queue.md R140, R147; log 11). -/
opaque tieDraw : Nat → NodeIdx → NodeIdx → Bool

end Sys2Proof.Config
end

