-- ==== Sys2Proof/Syntax.lean ====
section
/-! DEFINITION. The commands of HTB, one constructor per row of spec/opcode_table.json; the fields of a
command word (spec/30_encoding.md R111); the names a host program uses for registers and windows
(R118), and what the host can do to the block: port transactions (R120) and the level of `rst_n`. -/

namespace Sys2Proof

/-- The nine commands of the opcode map (30_encoding.md R113). No command carries an operand (R112). -/
inductive Instr where
  | nop
  | clear
  | seed
  | merge
  | finish
  | buildTree
  | genCodes
  | encode
  | decode
deriving DecidableEq, Repr, Inhabited

/-- Every command, in the order of the opcode map (R113). -/
def Instr.all : List Instr :=
  [.nop, .clear, .seed, .merge, .finish, .buildTree, .genCodes, .encode, .decode]

/-- The fields of a command word: OPCODE is bits [7:0], RES is bits [31:8] (R111). -/
structure CmdFields where
  opcode : BitVec 8
  res : BitVec 24
deriving DecidableEq, Repr

/-- The host-visible registers, by name (10_state.md R33-R46). -/
inductive Reg where
  | id
  | param0
  | param1
  | param2
  | param3
  | ctrl
  | cmd
  | status
  | errCode
  | errInfo0
  | errInfo1
  | alphaN
  | textLen
  | bitLen
  | outLen
  | nodeCount
  | pqSize
  | root
  | rootWeightLo
  | rootWeightHi
  | maxLen
  | lastOp
deriving DecidableEq, Repr

/-- What one mapped, aligned offset of the aperture names (20_memory.md R86-R93): a register, a reserved
register offset (10_state.md R47), or one word of a window. The second number of `node` and `code` is
the word inside the entry. -/
inductive Place where
  | reg (r : Reg)
  | reserved
  | alphaSym (i : Nat)
  | alphaFreq (i : Nat)
  | node (k w : Nat)
  | pq (j : Nat)
  | code (s w : Nat)
  | text (p : Nat)
  | bitWord (w : Nat)
  | out (k : Nat)
deriving DecidableEq, Repr

/-- A host-port access: `MemRead(off, size)` or `MemWrite(off, size, v)` (00_scope.md R18; the
transactions of 30_encoding.md R120). The size is in bytes. -/
inductive Access where
  | read (off : Offset) (size : Nat)
  | write (off : Offset) (size : Nat) (v : Word)
deriving DecidableEq, Repr

/-- The offset an access names. -/
def Access.off : Access → Offset
  | .read off _ => off
  | .write off _ _ => off

/-- The size in bytes an access has. -/
def Access.size : Access → Nat
  | .read _ size => size
  | .write _ size _ => size

/-- What can happen next to the block: a port access, a level on `rst_n` (true is high), or the turn of
the sequencer, which is when a running command completes (70_reset_and_hazards.md R290, R297; log 1). -/
inductive HostEvent where
  | port (a : Access)
  | drive (rstN : Bool)
  | sequencer
deriving DecidableEq, Repr

end Sys2Proof
end

