-- ==== Sys2Proof/WellFormed.lean ====
section
/-! DEFINITION. Which command words and port accesses are well formed: RES is 0 and the opcode is
assigned (spec/30_encoding.md R111, R115), an access is one aligned word (spec/20_memory.md R82, R83), a place is an element that its array has (R86-R93). -/

namespace Sys2Proof

/-- The opcodes that R115 does not reserve. -/
def assignedOpcodes : List (BitVec 8) :=
  [0x00#8, 0x01#8, 0x10#8, 0x11#8, 0x12#8, 0x13#8, 0x20#8, 0x30#8, 0x40#8]

/-- A command word is legal when RES is 0 and its opcode is assigned (R115). -/
def CmdFields.wf (f : CmdFields) : Bool :=
  f.res == 0#24 && assignedOpcodes.contains f.opcode

/-- A command has no operand that could be out of range (R112), so each constructor is well formed. -/
def Instr.wf : Instr → Bool
  | .nop => true
  | .clear => true
  | .seed => true
  | .merge => true
  | .finish => true
  | .buildTree => true
  | .genCodes => true
  | .encode => true
  | .decode => true

/-- A port access that the bus does not answer with ERROR for its form: size 4 and addr[1:0] = 00
(20_memory.md R82, R83). Whether its offset is mapped is R86's, in Machine/Port.lean. -/
def Access.wf (a : Access) : Bool :=
  a.size == 4 && a.off.toNat % 4 == 0

/-- A place whose numbers are inside the array it names (10_state.md R49-R56; 20_memory.md R87-R93). -/
def Place.inRange : Place → Bool
  | .reg _ => true
  | .reserved => true
  | .alphaSym i => decide (i < 256)
  | .alphaFreq i => decide (i < 256)
  | .node k w => decide (k < 512 ∧ w < 4)
  | .pq j => decide (j < 256)
  | .code c w => decide (c < 256 ∧ w < 16)
  | .text p => decide (p < 4096)
  | .bitWord w => decide (w < 1024)
  | .out k => decide (k < 32768)

end Sys2Proof
end

