-- ==== Sys2Proof/Decode.lean ====
section
/-! DEFINITION. Decoding a command word (spec/30_encoding.md R110-R115), total over all 2^32 words and
rejecting by name, and after it the encoder, written from the opcode map R113. -/

namespace Sys2Proof

/-- Why a command word is illegal (R115), or why bytes are no command word (R110). -/
inductive DecodeError where
  | reservedBits (res : BitVec 24)
  | reservedOpcode (op : BitVec 8)
  | notOneWord (bytes : Nat)
deriving DecidableEq, Repr

/-- The fields of a command word (R111). -/
def fieldsOf (w : Word) : CmdFields :=
  { opcode := w.extractLsb' 0 8, res := w.extractLsb' 8 24 }

/-- The decoder's rows: the cases of R114. -/
def opcodeRows : List (BitVec 8 × Instr) :=
  [(0x00#8, .nop), (0x01#8, .clear), (0x10#8, .seed), (0x11#8, .merge), (0x12#8, .finish),
   (0x13#8, .buildTree), (0x20#8, .genCodes), (0x30#8, .encode), (0x40#8, .decode)]

/-- Decoding a command word (R114): RES first, then the opcode. -/
def decode (w : Word) : Except DecodeError Instr :=
  if (fieldsOf w).res ≠ 0#24 then .error (.reservedBits (fieldsOf w).res)
  else
    match opcodeRows.lookup (fieldsOf w).opcode with
    | some i => .ok i
    | none => .error (.reservedOpcode (fieldsOf w).opcode)

/-- Decoding the byte lanes of a command: one word, lane j holding bits [8j+7:8j] (20_memory.md R85), and
a command is always one word (R110). -/
def decodeBytes : List (BitVec 8) → Except DecodeError Instr
  | [b0, b1, b2, b3] => decode (b3 ++ b2 ++ b1 ++ b0)
  | bs => .error (.notOneWord bs.length)

/-- The byte lanes of a word, lane 0 first (20_memory.md R85). -/
def lanesOf (w : Word) : List (BitVec 8) :=
  [w.extractLsb' 0 8, w.extractLsb' 8 8, w.extractLsb' 16 8, w.extractLsb' 24 8]

/-- The command word whose low `nbits` bits are w's and whose other bits are 0. -/
def tableWord (nbits w : Nat) : Word :=
  BitVec.ofNat 32 (w % 2 ^ nbits)

/-- The command that the decoder reads from a row of spec/opcode_table.json. -/
def decodeTableWord (nbits w : Nat) : Option Instr :=
  match decodeBytes (lanesOf (tableWord nbits w)) with
  | .ok i => some i
  | .error _ => none

/-- The OPCODE of a command (R113). -/
def opcodeOf : Instr → BitVec 8
  | .nop => 0x00#8
  | .clear => 0x01#8
  | .seed => 0x10#8
  | .merge => 0x11#8
  | .finish => 0x12#8
  | .buildTree => 0x13#8
  | .genCodes => 0x20#8
  | .encode => 0x30#8
  | .decode => 0x40#8

/-- The command word of a command: `zext_32(OPCODE)` (R113). -/
def encode (i : Instr) : Word :=
  (opcodeOf i).setWidth 32

end Sys2Proof
end

