-- ==== Sys2Proof/Machine/Ram.lean ====
section
/-! DEFINITION. Reading and writing one element of a RAM, and the one canonical form of a RAM: indices
strictly rising and inside the array (spec/00_scope.md R17: writing an element changes that element
only; log 18). -/

namespace Sys2Proof

/-- The element at an index, where something has been written there since reset. -/
def Ram.get? {α : Type} : Ram α → Nat → Option α
  | [], _ => none
  | (k, a) :: r, i => if i = k then some a else Ram.get? r i

/-- The element at an index; `d` is the free draw that stands for an entry never written (R291). -/
def Ram.getD {α : Type} (r : Ram α) (i : Nat) (d : α) : α :=
  (Ram.get? r i).getD d

/-- Writing an element keeps the indices rising (R17). -/
def Ram.set {α : Type} : Ram α → Nat → α → Ram α
  | [], i, a => [(i, a)]
  | (k, b) :: r, i, a =>
    if i < k then (i, a) :: (k, b) :: r
    else if i = k then (i, a) :: r
    else (k, b) :: Ram.set r i a

/-- Every index of the list is at least `lo`, and they rise strictly. -/
def Ram.rising {α : Type} : Nat → Ram α → Bool
  | _, [] => true
  | lo, (k, _) :: r => decide (lo ≤ k) && Ram.rising (k + 1) r

/-- The canonical form of a RAM of `size` elements. An unlisted index reads as no written value, so no
entry can equal what it reads as; two RAMs with the same written contents are the same list. -/
def Ram.wf {α : Type} (size : Nat) (r : Ram α) : Bool :=
  Ram.rising 0 r && r.all (fun c => decide (c.1 < size))

/-- Writing the elements `lo, lo+1, …, lo+n-1` with `f 0, f 1, …, f (n-1)`, in that order. -/
def Ram.fill {α : Type} (r : Ram α) (lo n : Nat) (f : Nat → α) : Ram α :=
  (List.range n).foldl (fun m j => Ram.set m (lo + j) (f j)) r

end Sys2Proof
end

