-- ==== Sys2Proof/Machine/State.lean ====
section
/-! DEFINITION. The state of HTB as plain data (spec/10_state.md), the reasons a step can stop, and the
state right after reset (spec/10_state.md R59, spec/70_reset_and_hazards.md R290). -/

namespace Sys2Proof.Machine

/-- The sequencer state `SEQ` (10_state.md R31). `busy w` is BUSY(op) with op = w[7:0]; the whole word is
held because an illegal command reports all of it (45_control.md R252; log 3). -/
inductive Seq where
  | idle
  | busy (w : Word)
deriving DecidableEq, Repr

/-- The RAMs (10_state.md R49-R56), each reached by its name and index (00_scope.md R17). ALPHA is held as
its two fields, because the host writes them by two separate words (20_memory.md R87). -/
structure Memory where
  alphaSym : Ram Sym
  alphaFreq : Ram Freq
  node : Ram Node
  heap : Ram NodeIdx
  code : Ram CodeEntry
  text : Ram Sym
  bit : Ram Bool
  out : Ram Sym
deriving DecidableEq, Repr

/-- The memory of which nothing has been written since reset (R291). -/
def Memory.empty : Memory :=
  { alphaSym := [], alphaFreq := [], node := [], heap := [], code := [], text := [], bit := [], out := [] }

/-- Why an access gets an ERROR response (20_memory.md R83, R84). -/
inductive PortError where
  | misaligned
  | notOneWord
  | unmapped
deriving DecidableEq, Repr

/-- The port's response: OK to a write, OK with a word to a read, or ERROR, whose read value is
0x00000000 (R82-R84). -/
inductive PortResp where
  | wrote
  | data (v : Word)
  | error (why : PortError)
deriving DecidableEq, Repr

/-- The word the host sees in a response (R83: a read with an ERROR response returns 0). -/
def PortResp.word : PortResp → Word
  | .wrote => 0#32
  | .data v => v
  | .error _ => 0#32

/-- The state of HTB, with the pending inputs of its host. -/
structure State where
  /-- `SEQ` (R31) -/
  seq : Seq
  /-- the level of the input `rst_n`, true is high (00_scope.md R3; R290) -/
  rstN : Bool
  /-- `CTRL.IRQ_EN` (R35) -/
  irqEn : Bool
  /-- `DONE` (R32, R36) -/
  done : Bool
  /-- `OVERRUN` (R32, R36) -/
  overrun : Bool
  /-- `TREE_VALID` (R32, R36) -/
  treeValid : Bool
  /-- `CODES_VALID` (R32, R36) -/
  codesValid : Bool
  /-- `ALPHA_N` (R37) -/
  alphaN : Word
  /-- `TEXT_LEN` (R37) -/
  textLen : Word
  /-- `BIT_LEN` (R37) -/
  bitLen : Word
  /-- `OUT_LEN` (R40) -/
  outLen : Word
  /-- `ERR_CODE[7:0]` (R39) -/
  errCode : BitVec 8
  /-- `ERR_INFO0` (R39) -/
  errInfo0 : Word
  /-- `ERR_INFO1` (R39) -/
  errInfo1 : Word
  /-- `NODE_COUNT[9:0]` (R41) -/
  nodeCount : BitVec 10
  /-- `PQ_SIZE[8:0]` (R42) -/
  pqSize : BitVec 9
  /-- `ROOT[8:0]` (R43) -/
  root : NodeIdx
  /-- `LAST_OP[7:0]` (R46) -/
  lastOp : BitVec 8
  /-- the RAMs (R49-R56) -/
  mem : Memory
  /-- the model's own: what happens next at the block's inputs, oldest first (log 1, log 15) -/
  host : List HostEvent
  /-- the model's own: the last response on the host port, what the host has seen (log 15) -/
  resp : Option PortResp
  /-- the model's own: how many resets there have been, the first argument of a RAM draw (log 6, log 15) -/
  epoch : Nat
  /-- the model's own: how many other free values have been drawn (log 8, log 15) -/
  draws : Nat
deriving DecidableEq, Repr

/-- How the machine stops with a fault. -/
inductive Fault where
  /-- Raised by a host access that gets an ERROR response: misaligned or not 4 bytes (20_memory.md R83),
  or unmapped (R84). "A model treats an ERROR response as a host-side fault" (R83). Safe: the run stops
  where the host program has failed. -/
  | portError (why : PortError) (a : Access)
  /-- Raised by GEN_CODES when the node store under ROOT is no tree, so that the loop of 42_code_table.md
  R192 does not end within its bound: no run from reset reaches such a state (10_state.md R58; log 13).
  Safe: it is a stuck state. -/
  | traversalStuck
deriving DecidableEq, Repr

/-- How the model declines to give a step a meaning. -/
inductive Refusal where
  /-- An instruction that has no meaning yet. Safe: nothing is claimed of it. -/
  | notModelled (mnemonic : String)
  /-- Raised by a host access while `rst_n` is low: "outside the model" (70_reset_and_hazards.md R290),
  `refuse` (93_implementation_defined.md ID16). Safe: nothing is claimed of such a run. -/
  | accessInReset (a : Access)
deriving DecidableEq, Repr

/-- The canonical form of the whole memory: each RAM's indices rise and lie inside its array
(10_state.md R49-R56; 00_scope.md R8). -/
def Memory.wf (m : Memory) : Bool :=
  Ram.wf Config.nMax m.alphaSym && Ram.wf Config.nMax m.alphaFreq && Ram.wf Config.nodeMax m.node &&
  Ram.wf Config.nMax m.heap && Ram.wf Config.nMax m.code && Ram.wf Config.textMax m.text &&
  Ram.wf Config.bitMax m.bit && Ram.wf Config.outMax m.out

/-- The machine right after reset: every register at its value of 10_state.md R59, no RAM entry written
(R291), `rst_n` high again, and no input pending. -/
def State.reset : State :=
  { seq := .idle
    rstN := true
    irqEn := false
    done := false
    overrun := false
    treeValid := false
    codesValid := false
    alphaN := 0#32
    textLen := 0#32
    bitLen := 0#32
    outLen := 0#32
    errCode := 0x00#8
    errInfo0 := 0#32
    errInfo1 := 0#32
    nodeCount := 0#10
    pqSize := 0#9
    root := nil
    lastOp := 0x00#8
    mem := Memory.empty
    host := []
    resp := none
    epoch := 0
    draws := 0 }

end Sys2Proof.Machine
end

