-- ==== Sys2Proof/Machine/Operands.lean ====
section
/-! DEFINITION. What a command reads: one element of a RAM (spec/00_scope.md R17; an entry not written
since reset is a free draw, spec/70_reset_and_hazards.md R291), the priority-queue key and order
(spec/40_priority_queue.md R140), and the checks of SEED on the alphabet (spec/41_tree_builder.md R160). -/

namespace Sys2Proof.Machine

/-- `ALPHA[i].sym` (10_state.md R49). -/
def State.alphaSymAt (s : State) (i : Nat) : Sym :=
  Ram.getD s.mem.alphaSym i (Config.alphaSymDraw s.epoch i)

/-- `ALPHA[i].freq` (R49). -/
def State.alphaFreqAt (s : State) (i : Nat) : Freq :=
  Ram.getD s.mem.alphaFreq i (Config.alphaFreqDraw s.epoch i)

/-- `NODE[k]` of a node store (R50). -/
def nodeIn (epoch : Nat) (r : Ram Node) (k : Nat) : Node :=
  Ram.getD r k (Config.nodeDraw epoch k)

/-- `NODE[k]` (R50). -/
def State.nodeAt (s : State) (k : Nat) : Node :=
  nodeIn s.epoch s.mem.node k

/-- `H[j]` of a heap (R52). -/
def heapIn (epoch : Nat) (h : Ram NodeIdx) (j : Nat) : NodeIdx :=
  Ram.getD h j (Config.heapDraw epoch j)

/-- `H[j]` (R52). -/
def State.heapAt (s : State) (j : Nat) : NodeIdx :=
  heapIn s.epoch s.mem.heap j

/-- The entries of the queue in slot order, `H[0..PQ_SIZE-1]`; its contents are these entries in any order
(R52; 40_priority_queue.md R146). -/
def State.queue (s : State) : List NodeIdx :=
  (List.range s.pqSize.toNat).map s.heapAt

/-- `CODE[c]` of a code table (R53). -/
def codeIn (epoch : Nat) (r : Ram CodeEntry) (c : Nat) : CodeEntry :=
  Ram.getD r c (Config.codeDraw epoch c)

/-- `CODE[c]` for a symbol c (R53). -/
def State.codeAt (s : State) (c : Sym) : CodeEntry :=
  codeIn s.epoch s.mem.code c.toNat

/-- `TEXT[p]` (R54). -/
def State.textAt (s : State) (p : Nat) : Sym :=
  Ram.getD s.mem.text p (Config.textDraw s.epoch p)

/-- `BIT[q]` of a bit RAM (R55). -/
def bitIn (epoch : Nat) (r : Ram Bool) (q : Nat) : Bool :=
  Ram.getD r q (Config.bitDraw epoch q)

/-- `BIT[q]` (R55). -/
def State.bitAt (s : State) (q : Nat) : Bool :=
  bitIn s.epoch s.mem.bit q

/-- `OUT[k]` (R56). -/
def State.outAt (s : State) (k : Nat) : Sym :=
  Ram.getD s.mem.out k (Config.outDraw s.epoch k)

/-! The order of the priority queue. -/

/-- Whether a key comes before another: `(wa, a) <lex (wb, b)` under `INDEX`; under `ANY` the weights
decide, and between equal weights the free choice `tie` does (40_priority_queue.md R140). -/
def keyBefore (tb : Config.TieBreak) (tie : NodeIdx → NodeIdx → Bool) (wa : Weight) (a : NodeIdx)
    (wb : Weight) (b : NodeIdx) : Bool :=
  match tb with
  | .index => decide (wa < wb) || (decide (wa = wb) && decide (a < b))
  | .any => decide (wa < wb) || (decide (wa = wb) && tie a b)

/-- `key(a) <lex key(b)` in a state: keys are (NODE[k].weight, k) (R140). -/
def State.before (s : State) (tb : Config.TieBreak) (a b : NodeIdx) : Bool :=
  keyBefore tb (Config.tieDraw s.draws) (s.nodeAt a.toNat).weight a (s.nodeAt b.toNat).weight b

/-! The alphabet that SEED and BUILD_TREE check. -/

/-- The smallest j < i with `ALPHA[j].sym = ALPHA[i].sym`, if there is one (41_tree_builder.md R160). -/
def State.firstDuplicate (s : State) (i : Nat) : Option Nat :=
  (List.range i).find? (fun j => s.alphaSymAt j == s.alphaSymAt i)

end Sys2Proof.Machine
end

