-- ==== Sys2Proof/Machine/Flags.lean ====
section
/-! DEFINITION. The flags and views computed from the state: the fields of STATUS (spec/10_state.md R36,
R48), `irq` (spec/60_exceptions.md R270), the views ROOT_WEIGHT and MAX_LEN (R44, R45), and the error
codes (spec/60_exceptions.md R260). -/

namespace Sys2Proof.Machine

/-- The error codes by name (60_exceptions.md R260). -/
inductive ErrCode where
  | none
  | emptyAlphabet
  | emptyQueue
  | unknownSymbol
  | truncatedStream
  | illegalCmd
  | alphabetTooLarge
  | badFrequency
  | duplicateSymbol
  | mergePending
  | noTree
  | noCodes
  | lengthRange
  | outputOverflow
deriving DecidableEq, Repr

/-- Every error code of R260. -/
def ErrCode.all : List ErrCode :=
  [.none, .emptyAlphabet, .emptyQueue, .unknownSymbol, .truncatedStream, .illegalCmd, .alphabetTooLarge,
   .badFrequency, .duplicateSymbol, .mergePending, .noTree, .noCodes, .lengthRange, .outputOverflow]

/-- The number of an error code (R260). -/
def ErrCode.code : ErrCode → BitVec 8
  | .none => 0x00#8
  | .emptyAlphabet => 0x01#8
  | .emptyQueue => 0x02#8
  | .unknownSymbol => 0x03#8
  | .truncatedStream => 0x04#8
  | .illegalCmd => 0x10#8
  | .alphabetTooLarge => 0x11#8
  | .badFrequency => 0x12#8
  | .duplicateSymbol => 0x13#8
  | .mergePending => 0x14#8
  | .noTree => 0x15#8
  | .noCodes => 0x16#8
  | .lengthRange => 0x17#8
  | .outputOverflow => 0x18#8

/-- `STATUS.BUSY`: 1 exactly when SEQ is BUSY(op) (10_state.md R31, R36). -/
def State.busy (s : State) : Bool :=
  match s.seq with
  | .idle => false
  | .busy _ => true

/-- The op of `BUSY(op)`: the opcode of the command being executed (R31). -/
def State.runningOp (s : State) : Option (BitVec 8) :=
  match s.seq with
  | .idle => none
  | .busy w => some (w.extractLsb' 0 8)

/-- `STATUS.ERR`: 1 exactly when ERR_CODE ≠ 0 (R36). -/
def State.err (s : State) : Bool :=
  s.errCode != 0#8

/-- `STATUS.SINGLE_LEAF`: TREE_VALID = 1 and NODE[ROOT].leaf = 1 (R36). -/
def State.singleLeaf (s : State) : Bool :=
  s.treeValid && (s.nodeAt s.root.toNat).leaf

/-- The word that STATUS reads, from bit 31 down to bit 0 (R36). -/
def State.statusWord (s : State) : Word :=
  0#25 ++ BitVec.ofBool s.singleLeaf ++ BitVec.ofBool s.overrun ++ BitVec.ofBool s.codesValid ++
    BitVec.ofBool s.treeValid ++ BitVec.ofBool s.err ++ BitVec.ofBool s.done ++ BitVec.ofBool s.busy

/-- The word that CTRL reads (R35). -/
def State.ctrlWord (s : State) : Word :=
  0#31 ++ BitVec.ofBool s.irqEn

/-- The output `irq` = CTRL.IRQ_EN & STATUS.DONE (60_exceptions.md R270). -/
def State.irq (s : State) : Bool :=
  s.irqEn && s.done

/-- The level that HTB puts on a line of the platform's interrupt controller: `irq` on the line
`HTB_IRQ_LINE`, nothing on another (R270). -/
def State.irqOnLine (s : State) (line : Nat) : Bool :=
  decide (line = Config.htbIrqLine) && s.irq

/-- The weight of the root of a finished tree, 0 when there is none (10_state.md R44). -/
def State.rootWeight (s : State) : Weight :=
  if s.treeValid then (s.nodeAt s.root.toNat).weight else 0#40

/-- `ROOT_WEIGHT_LO`: weight[31:0] (R44). -/
def State.rootWeightLo (s : State) : Word :=
  s.rootWeight.extractLsb' 0 32

/-- `ROOT_WEIGHT_HI`: weight[39:32] in bits [7:0] (R44). -/
def State.rootWeightHi (s : State) : Word :=
  0#24 ++ s.rootWeight.extractLsb' 32 8

/-- The largest length among the valid entries of CODE, 0 when CODES_VALID = 0 (R45). -/
def State.maxLen (s : State) : Nat :=
  if s.codesValid then
    (List.range 256).foldl
      (fun m c =>
        let e := codeIn s.epoch s.mem.code c
        if e.valid then max m e.len.toNat else m) 0
  else 0

end Sys2Proof.Machine
end

