-- ==== Sys2Proof/Machine/Ops.lean ====
section
/-! DEFINITION. The named operations that commands share: replacing the RAMs, ending a command with
success or with an error (spec/60_exceptions.md R262, R263, R267), accepting a command (R261), fetching
the running command's word, and reset (spec/70_reset_and_hazards.md R290). -/

namespace Sys2Proof.Machine

/-- The state with other RAM contents (00_scope.md R17). -/
def State.withMem (s : State) (m : Memory) : State :=
  { s with mem := m }

/-- Success completion: SEQ <- IDLE, DONE <- 1; ERR_CODE stays as acceptance left it
(60_exceptions.md R263). -/
def State.succeed (s : State) : State :=
  { s with seq := .idle, done := true }

/-- Error entry, the meaning of `raise E(i0, i1)`: the error registers are written, SEQ <- IDLE,
DONE <- 1; no mode changes and control goes nowhere (R262, R267; 00_scope.md R19). -/
def State.raise (s : State) (e : ErrCode) (i0 i1 : Word) : State :=
  { s with errCode := e.code, errInfo0 := i0, errInfo1 := i1, seq := .idle, done := true }

/-- Acceptance of the word w offered to CMD while SEQ = IDLE (R261). It is also what ends an earlier
error's report: there is no other return from an error (R268). -/
def State.accept (s : State) (w : Word) : State :=
  { s with
    seq := .busy w
    done := false
    errCode := 0x00#8
    errInfo0 := 0#32
    errInfo1 := 0#32
    lastOp := w.extractLsb' 0 8 }

/-- How a command's pseudocode runs: to a value in a new state, or to a `raise` in the state it had then,
after which no step of the command runs (00_scope.md R19). -/
inductive Cmd (α : Type) where
  | ok (a : α) (s : State)
  | raised (e : ErrCode) (i0 i1 : Word) (s : State)
deriving DecidableEq, Repr

/-- One part of a command after another (R19). -/
def Cmd.bind {α β : Type} (c : Cmd α) (f : α → State → Cmd β) : Cmd β :=
  match c with
  | .ok a s => f a s
  | .raised e i0 i1 s => .raised e i0 i1 s

/-- The completion of a command: an error entry where it raised, success otherwise (R262, R263). -/
def Cmd.complete : Cmd Unit → State
  | .ok _ s => s.succeed
  | .raised e i0 i1 s => s.raise e i0 i1

/-- The word of the command that the sequencer is to complete, if one is running and the block is not
held in reset (10_state.md R31, 70_reset_and_hazards.md R290). -/
def State.fetchCommand (s : State) : Option Word :=
  match s.seq with
  | .idle => none
  | .busy w => if s.rstN then some w else none

/-- What `rst_n` does to the state when it goes to a level: low, or high again, gives the reset values of
10_state.md R59 and abandons a running command; RAM contents become unspecified anew (R290, R291).
High when it is high already changes nothing. The host's pending inputs are not the block's state. -/
def State.driveReset (s : State) (level : Bool) : State :=
  if level && s.rstN then s
  else
    { State.reset with
      rstN := level
      host := s.host
      epoch := s.epoch + 1
      draws := s.draws }

end Sys2Proof.Machine
end

