-- ==== Sys2Proof/Machine/CodeTable.lean ====
section
/-! DEFINITION. Code-table generation: GEN_CODES with its fallback and its traversal
(spec/42_code_table.md R190-R192). -/

namespace Sys2Proof.Machine

/-- The entry `{ valid: 0, len: 0, bits: 0 }` (R190). -/
def noCode : CodeEntry :=
  { valid := false, len := 0#8, bits := 0#255 }

/-- `for s in 0 .. 255: CODE[s] <- { valid: 0, len: 0, bits: 0 }` (R190): all 256 entries are written. -/
def clearedTable : Ram CodeEntry :=
  (List.range 256).map (fun c => (c, noCode))

/-- The codeword of the one-leaf tree (R191). -/
def fallbackCode : CodeEntry :=
  { valid := true, len := 1#8, bits := (BitVec.ofBool Config.fallbackBit).setWidth 255 }

/-- A (node, depth, path) triple of the traverser's stack (R192; 10_state.md R57). -/
structure Visit where
  node : NodeIdx
  depth : Nat
  path : BitVec 255
deriving DecidableEq, Repr

/-- The entry of a leaf reached at a depth by a path (R192). -/
def Visit.entry (v : Visit) : CodeEntry :=
  { valid := true, len := BitVec.ofNat 8 v.depth, bits := v.path }

/-- The left child's triple: edge bit 0 (R192). -/
def Visit.goLeft (v : Visit) (nd : Node) : Visit :=
  { node := nd.left, depth := v.depth + 1, path := v.path }

/-- The right child's triple: edge bit 1 at the node's depth (R192). -/
def Visit.goRight (v : Visit) (nd : Node) : Visit :=
  { node := nd.right, depth := v.depth + 1, path := v.path ||| (1#255 <<< v.depth) }

/-- `traverse()` (R192): the stack's head is its top. The first number bounds the pops; `none` says that
the stack was not empty then, which no tree of at most NODE_MAX nodes gives (log 13). -/
def traverse (nodes : Nat → Node) : Nat → List Visit → Ram CodeEntry → Option (Ram CodeEntry)
  | _, [], code => some code
  | 0, _ :: _, _ => none
  | pops + 1, v :: stack, code =>
    let nd := nodes v.node.toNat
    if nd.leaf then traverse nodes pops stack (Ram.set code nd.sym.toNat v.entry)
    else traverse nodes pops (v.goLeft nd :: v.goRight nd :: stack) code

/-- The table that GEN_CODES derives from the tree under ROOT (R190-R192). "The walk visits each of the
2n - 1 nodes once" (R192), so NODE_MAX pops are enough. -/
def genTable (s : State) : Option (Ram CodeEntry) :=
  let root := s.nodeAt s.root.toNat
  if root.leaf then some (Ram.set clearedTable root.sym.toNat fallbackCode)
  else traverse s.nodeAt Config.nodeMax [{ node := s.root, depth := 0, path := 0#255 }] clearedTable

/-- The state with a code table and CODES_VALID = 1 (R190). -/
def State.withTable (s : State) (code : Ram CodeEntry) : State :=
  { s with mem := { s.mem with code := code }, codesValid := true }

/-- GEN_CODES (R190). -/
def execGenCodes (s : State) : Host.Outcome State Fault Refusal :=
  if s.treeValid = false then .next (s.raise .noTree 0#32 0#32)
  else
    match genTable s with
    | some code => .next (s.withTable code).succeed
    | none => .fault .traversalStuck

end Sys2Proof.Machine
end

