-- ==== Sys2Proof/Machine/Control.lean ====
section
/-! DEFINITION. The control commands: CLEAR, NOP, and what an illegal command word does
(spec/45_control.md R250-R252). -/

namespace Sys2Proof.Machine

/-- The state that CLEAR completes from (R250). -/
def State.cleared (s : State) : State :=
  { s with
    treeValid := false
    codesValid := false
    nodeCount := 0#10
    pqSize := 0#9
    root := nil
    outLen := 0#32 }

/-- CLEAR (R250). -/
def execClear (s : State) : Host.Outcome State Fault Refusal :=
  .next s.cleared.succeed

/-- NOP (R251): completion, and nothing else. -/
def execNop (s : State) : Host.Outcome State Fault Refusal :=
  .next s.succeed

/-- An illegal command word w: `raise E_ILLEGAL_CMD(w, 0)` (R252; 30_encoding.md R115). -/
def execIllegal (w : Word) (s : State) : Host.Outcome State Fault Refusal :=
  .next (s.raise .illegalCmd w 0#32)

end Sys2Proof.Machine
end

