-- ==== Sys2Proof/Machine/Decoder.lean ====
section
/-! DEFINITION. Decoding: DECODE and its bit-serial state machine (spec/44_decoder.md R230-R234). -/

namespace Sys2Proof.Machine

/-- The hidden state of the decoder (10_state.md R57; R231): the cursor, the depth, where the codeword
being decoded began, and the symbols emitted so far, with the output RAM they go to. -/
structure Walk where
  cur : NodeIdx
  depth : BitVec 8
  start : BitVec 16
  emitted : Nat
  out : Ram Sym
deriving DecidableEq, Repr

/-- `OUT[k] <- sym; k <- k + 1` (R232). -/
def Walk.emit (c : Walk) (sym : Sym) : Walk :=
  { c with out := Ram.set c.out c.emitted sym, emitted := c.emitted + 1 }

/-- `decStep(b, i)`: one bit with leaf detection (R232, R233). -/
def decStep (s : State) (b : Bool) (i : Nat) (c : Walk) : Walk :=
  let root := s.nodeAt s.root.toNat
  if root.leaf then { c.emit root.sym with start := BitVec.ofNat 16 (i + 1) }
  else
    let cur := s.nodeAt c.cur.toNat
    let n := if b then cur.right else cur.left
    let nd := s.nodeAt n.toNat
    if nd.leaf then
      { c.emit nd.sym with cur := s.root, depth := 0#8, start := BitVec.ofNat 16 (i + 1) }
    else { c with cur := n, depth := c.depth + 1#8 }

/-- The walk over `left` bits from stream position i (R230). -/
def walkFrom (s : State) : Nat → Nat → Walk → Walk
  | 0, _, c => c
  | left + 1, i, c => walkFrom s left (i + 1) (decStep s (s.bitAt i) i c)

/-- The state AT_ROOT in which every DECODE starts (R230, R239). -/
def State.atRoot (s : State) : Walk :=
  { cur := s.root, depth := 0#8, start := 0#16, emitted := 0, out := s.mem.out }

/-- The state with an output RAM and OUT_LEN (R230). -/
def State.withOutput (s : State) (out : Ram Sym) (len : Word) : State :=
  { s with mem := { s.mem with out := out }, outLen := len }

/-- The pseudocode of DECODE (R230): every error sets OUT_LEN <- 0. -/
def decodeBody (s : State) : Cmd Unit :=
  if s.treeValid = false then .raised .noTree 0#32 0#32 (s.withOutput s.mem.out 0#32)
  else if s.bitLen.toNat > Config.bitMax then
    .raised .lengthRange s.bitLen 0#32 (s.withOutput s.mem.out 0#32)
  else
    let c := walkFrom s s.bitLen.toNat 0 s.atRoot
    if c.depth ≠ 0#8 then
      .raised .truncatedStream (c.start.setWidth 32) (c.depth.setWidth 32) (s.withOutput c.out 0#32)
    else .ok () (s.withOutput c.out (BitVec.ofNat 32 c.emitted))

/-- DECODE (R230). -/
def execDecode (s : State) : Host.Outcome State Fault Refusal :=
  .next (decodeBody s).complete

end Sys2Proof.Machine
end

