-- ==== Sys2Proof/Machine/Encoder.lean ====
section
/-! DEFINITION. Encoding: ENCODE (spec/43_encoder.md R210, R211). -/

namespace Sys2Proof.Machine

/-- `for j in 0 .. L-1: BIT[q + j] <- CODE[s].bits[j]` (R210). -/
def writeCodeword (bit : Ram Bool) (q : Nat) (c : CodeEntry) : Ram Bool :=
  Ram.fill bit q c.len.toNat (fun j => c.bits.getLsbD j)

/-- The state in which a successful ENCODE ends: the bits written and BIT_LEN (R210). -/
def State.withStream (s : State) (bit : Ram Bool) (len : Word) : State :=
  { s with mem := { s.mem with bit := bit }, bitLen := len }

/-- The loop of ENCODE, with `left` symbols to go from text position p and bit position q (R210): the
unknown symbol is checked before the overflow (60_exceptions.md R265), and an error keeps the bits of
the finished symbols and sets BIT_LEN <- 0 (R211). -/
def encodeFrom (s : State) : Nat → Nat → Nat → Ram Bool → Cmd Unit
  | 0, _, q, bit => .ok () (s.withStream bit (BitVec.ofNat 32 q))
  | left + 1, p, q, bit =>
    let c := s.codeAt (s.textAt p)
    if c.valid = false then
      .raised .unknownSymbol ((s.textAt p).setWidth 32) (BitVec.ofNat 32 p) (s.withStream bit 0#32)
    else if q + c.len.toNat > Config.bitMax then
      .raised .outputOverflow (BitVec.ofNat 32 p) (BitVec.ofNat 32 q) (s.withStream bit 0#32)
    else encodeFrom s left (p + 1) (q + c.len.toNat) (writeCodeword bit q c)

/-- The pseudocode of ENCODE (R210). -/
def encodeBody (s : State) : Cmd Unit :=
  if s.codesValid = false then .raised .noCodes 0#32 0#32 (s.withStream s.mem.bit 0#32)
  else if s.textLen.toNat > Config.textMax then
    .raised .lengthRange s.textLen 0#32 (s.withStream s.mem.bit 0#32)
  else encodeFrom s s.textLen.toNat 0 0 s.mem.bit

/-- ENCODE (R210). -/
def execEncode (s : State) : Host.Outcome State Fault Refusal :=
  .next (encodeBody s).complete

end Sys2Proof.Machine
end

