-- ==== Sys2Proof/Machine/Queue.lean ====
section
/-! DEFINITION. The priority queue: siftDown, pqInsert, pqExtractMin and pqBuild
(spec/40_priority_queue.md R141-R145). The heap operations take the order of keys as an argument, so
that they serve both values of TIE_BREAK (spec/00_scope.md R9; log 11). -/

namespace Sys2Proof.Machine

/-- `swap H[a], H[b]` (R142). -/
def heapSwap (epoch : Nat) (h : Ram NodeIdx) (a b : Nat) : Ram NodeIdx :=
  Ram.set (Ram.set h a (heapIn epoch h b)) b (heapIn epoch h a)

/-- The slot m that one round of siftDown at slot j picks: the `<lex`-smallest of j and its children below
`n` = PQ_SIZE (R142). -/
def sinkTarget (before : NodeIdx → NodeIdx → Bool) (epoch n : Nat) (h : Ram NodeIdx) (j : Nat) : Nat :=
  let l := 2 * j + 1
  let r := 2 * j + 2
  let m := if l < n && before (heapIn epoch h l) (heapIn epoch h j) then l else j
  if r < n && before (heapIn epoch h r) (heapIn epoch h m) then r else m

/-- `siftDown(j)` (R142). The slot rises at every round and stays below n, so n rounds are enough; the
first argument bounds them. -/
def siftDown (before : NodeIdx → NodeIdx → Bool) (epoch n : Nat) : Nat → Ram NodeIdx → Nat → Ram NodeIdx
  | 0, h, _ => h
  | rounds + 1, h, j =>
    let m := sinkTarget before epoch n h j
    if m = j then h else siftDown before epoch n rounds (heapSwap epoch h j m) m

/-- The loop of pqInsert: while slot j > 0 holds a key below its parent's, swap them (R143). The slot
falls at every round, so j rounds are enough. -/
def siftUp (before : NodeIdx → NodeIdx → Bool) (epoch : Nat) : Nat → Ram NodeIdx → Nat → Ram NodeIdx
  | 0, h, _ => h
  | rounds + 1, h, j =>
    if j = 0 then h
    else
      let p := (j - 1) / 2
      if before (heapIn epoch h j) (heapIn epoch h p) then
        siftUp before epoch rounds (heapSwap epoch h j p) p
      else h

/-- The loop of pqBuild: siftDown from slot n div 2 - 1 down to slot 0 (R145). -/
def heapify (before : NodeIdx → NodeIdx → Bool) (epoch n : Nat) (h : Ram NodeIdx) : Ram NodeIdx :=
  (List.range (n / 2)).reverse.foldl (fun h j => siftDown before epoch n n h j) h

/-- Under `ANY` each queue operation draws its tie choices anew; `INDEX` draws nothing (R147; log 11). -/
def State.tick (s : State) : Config.TieBreak → State
  | .index => s
  | .any => { s with draws := s.draws + 1 }

/-- The state with another heap and PQ_SIZE. -/
def State.withQueue (s : State) (h : Ram NodeIdx) (size : BitVec 9) : State :=
  { s with mem := { s.mem with heap := h }, pqSize := size }

/-- `pqInsert(k)` (R143). -/
def pqInsert (tb : Config.TieBreak) (k : NodeIdx) (s : State) : State :=
  let j := s.pqSize.toNat
  let h := siftUp (s.before tb) s.epoch j (Ram.set s.mem.heap j k) j
  (s.withQueue h (s.pqSize + 1#9)).tick tb

/-- `pqExtractMin()` (R144): an empty queue raises E_EMPTY_QUEUE(0, 0). -/
def pqExtractMin (tb : Config.TieBreak) (s : State) : Cmd NodeIdx :=
  if s.pqSize = 0#9 then .raised .emptyQueue 0#32 0#32 s
  else
    let n := s.pqSize.toNat - 1
    let h :=
      if n > 0 then siftDown (s.before tb) s.epoch n n (Ram.set s.mem.heap 0 (s.heapAt n)) 0
      else s.mem.heap
    .ok (s.heapAt 0) ((s.withQueue h (s.pqSize - 1#9)).tick tb)

/-- `pqBuild(n)`: the queue of the nodes 0..n-1 (R145). -/
def pqBuild (tb : Config.TieBreak) (n : Nat) (s : State) : State :=
  let h := heapify (s.before tb) s.epoch n (Ram.fill s.mem.heap 0 n (BitVec.ofNat 9))
  (s.withQueue h (BitVec.ofNat 9 n)).tick tb

end Sys2Proof.Machine
end

