-- ==== Sys2Proof/Machine/TreeBuilder.lean ====
section
/-! DEFINITION. Tree construction: SEED, MERGE, FINISH and BUILD_TREE (spec/41_tree_builder.md
R160-R166). -/

namespace Sys2Proof.Machine

/-- The error that entry i of the alphabet gives, if any: the frequency before the duplicate (R160;
60_exceptions.md R265). -/
def entryError (s : State) (i : Nat) : Option (ErrCode × Word × Word) :=
  if s.alphaFreqAt i = 0#32 then some (.badFrequency, BitVec.ofNat 32 i, 0#32)
  else
    match s.firstDuplicate i with
    | some j => some (.duplicateSymbol, BitVec.ofNat 32 i, BitVec.ofNat 32 j)
    | none => none

/-- The error that SEED and BUILD_TREE report, if any, the first in the order of R160
(60_exceptions.md R264, R265). -/
def seedError (s : State) : Option (ErrCode × Word × Word) :=
  if s.alphaN = 0#32 then some (.emptyAlphabet, 0#32, 0#32)
  else if s.alphaN.toNat > Config.nMax then some (.alphabetTooLarge, s.alphaN, 0#32)
  else (List.range s.alphaN.toNat).findSome? (entryError s)

/-- Leaf i of the tree (R160, R161). -/
def State.leafOf (s : State) (i : Nat) : Node :=
  { leaf := true, sym := s.alphaSymAt i, weight := (s.alphaFreqAt i).setWidth 40, left := nil, right := nil }

/-- The state in which SEED calls pqBuild: the old tree and table discarded, the n leaves written
(R160, R162). -/
def seedLeaves (n : Nat) (s : State) : State :=
  { s with
    treeValid := false
    codesValid := false
    root := nil
    mem := { s.mem with node := Ram.fill s.mem.node 0 n s.leafOf }
    nodeCount := BitVec.ofNat 10 n }

/-- The pseudocode of SEED, which is also the first part of BUILD_TREE (R160, R166). -/
def seedBody (tb : Config.TieBreak) (s : State) : Cmd Unit :=
  match seedError s with
  | some (e, i0, i1) => .raised e i0 i1 s
  | none => .ok () (pqBuild tb s.alphaN.toNat (seedLeaves s.alphaN.toNat s))

/-- The node that a merge of l and r makes: no symbol, the exact sum of the weights (R163). -/
def State.mergedNode (s : State) (l r : NodeIdx) : Node :=
  { leaf := false
    sym := 0#8
    weight := (s.nodeAt l.toNat).weight + (s.nodeAt r.toNat).weight
    left := l
    right := r }

/-- The state with a new node appended at NODE_COUNT (R163). -/
def State.appendNode (s : State) (nd : Node) : State :=
  { s with
    mem := { s.mem with node := Ram.set s.mem.node s.nodeCount.toNat nd }
    nodeCount := s.nodeCount + 1#10 }

/-- `mergeStep()` (R163): left is extracted first. -/
def mergeStep (tb : Config.TieBreak) (s : State) : Cmd Unit :=
  (pqExtractMin tb s).bind fun l s1 =>
  (pqExtractMin tb s1).bind fun r s2 =>
  .ok () (pqInsert tb (s2.nodeCount.setWidth 9) (s2.appendNode (s2.mergedNode l r)))

/-- `x[ROOT] <- pqExtractMin(); TREE_VALID <- 1` (R165, R166). -/
def takeRoot (tb : Config.TieBreak) (s : State) : Cmd Unit :=
  (pqExtractMin tb s).bind fun k s1 => .ok () { s1 with root := k, treeValid := true }

/-- `while x[PQ_SIZE] >= 2: mergeStep()` (R166). Each step lowers PQ_SIZE by one (R167), so as many
rounds as PQ_SIZE are enough; the second argument bounds them. -/
def mergeAll (tb : Config.TieBreak) : Nat → State → Cmd Unit
  | 0, s => .ok () s
  | rounds + 1, s =>
    if s.pqSize.toNat ≥ 2 then (mergeStep tb s).bind fun _ s1 => mergeAll tb rounds s1
    else .ok () s

/-- The pseudocode of MERGE (R164). -/
def mergeBody (tb : Config.TieBreak) (s : State) : Cmd Unit :=
  if s.pqSize.toNat < 2 then .raised .emptyQueue (s.pqSize.setWidth 32) 0#32 s else mergeStep tb s

/-- The pseudocode of FINISH (R165). -/
def finishBody (tb : Config.TieBreak) (s : State) : Cmd Unit :=
  if s.pqSize = 0#9 then .raised .emptyQueue 0#32 0#32 s
  else if s.pqSize.toNat ≥ 2 then .raised .mergePending (s.pqSize.setWidth 32) 0#32 s
  else takeRoot tb s

/-- The pseudocode of BUILD_TREE (R166). -/
def buildBody (tb : Config.TieBreak) (s : State) : Cmd Unit :=
  (seedBody tb s).bind fun _ s1 =>
  (mergeAll tb s1.pqSize.toNat s1).bind fun _ s2 =>
  takeRoot tb s2

/-- SEED (R160). -/
def execSeed (s : State) : Host.Outcome State Fault Refusal :=
  .next (seedBody Config.tieBreak s).complete

/-- MERGE (R164). -/
def execMerge (s : State) : Host.Outcome State Fault Refusal :=
  .next (mergeBody Config.tieBreak s).complete

/-- FINISH (R165). -/
def execFinish (s : State) : Host.Outcome State Fault Refusal :=
  .next (finishBody Config.tieBreak s).complete

/-- BUILD_TREE (R166). -/
def execBuildTree (s : State) : Host.Outcome State Fault Refusal :=
  .next (buildBody Config.tieBreak s).complete

end Sys2Proof.Machine
end

