-- ==== Sys2Proof/Machine/Dispatch.lean ====
section
/-! DEFINITION. What the sequencer does to complete a command: one arm per row of
spec/opcode_table.json, from the acceptance state to the completion state
(spec/70_reset_and_hazards.md R297). -/

namespace Sys2Proof.Machine

def exec (i : Instr) (s : State) : Host.Outcome State Fault Refusal :=
  match i with
  | .nop => Sys2Proof.Machine.execNop s
  | .clear => Sys2Proof.Machine.execClear s
  | .seed => Sys2Proof.Machine.execSeed s
  | .merge => Sys2Proof.Machine.execMerge s
  | .finish => Sys2Proof.Machine.execFinish s
  | .buildTree => Sys2Proof.Machine.execBuildTree s
  | .genCodes => Sys2Proof.Machine.execGenCodes s
  | .encode => Sys2Proof.Machine.execEncode s
  | .decode => Sys2Proof.Machine.execDecode s

end Sys2Proof.Machine
end

