-- ==== Sys2Proof/Machine/Port.lean ====
section
/-! DEFINITION. The host port: the address map (spec/20_memory.md R86), what each register and window
reads and what a write to it does (spec/10_state.md R33-R47; R87-R93), and the port while a command
runs (R94, R95). -/

namespace Sys2Proof.Machine

/-- The registers by offset (10_state.md R33-R46). -/
def regRows : List (Nat × Reg) :=
  [(0x000, .id), (0x004, .param0), (0x008, .param1), (0x00C, .param2), (0x010, .param3),
   (0x020, .ctrl), (0x024, .cmd), (0x028, .status),
   (0x02C, .errCode), (0x030, .errInfo0), (0x034, .errInfo1),
   (0x040, .alphaN), (0x044, .textLen), (0x048, .bitLen), (0x04C, .outLen),
   (0x050, .nodeCount), (0x054, .pqSize), (0x058, .root), (0x05C, .rootWeightLo),
   (0x060, .rootWeightHi), (0x064, .maxLen), (0x068, .lastOp)]

/-- The register region: a register, or a reserved offset (R47). -/
def registerAt (off : Nat) : Place :=
  match regRows.lookup off with
  | some r => .reg r
  | none => .reserved

/-- The address map R86 with the layouts of R87-R93, for an aligned offset; `none` is unmapped (R84). -/
def placeAt (off : Nat) : Option Place :=
  if off < 0x00100 then some (registerAt off)
  else if 0x01000 ≤ off ∧ off < 0x01800 then
    let d := off - 0x01000
    some (if d % 8 < 4 then .alphaSym (d / 8) else .alphaFreq (d / 8))
  else if 0x02000 ≤ off ∧ off < 0x04000 then
    let d := off - 0x02000
    some (.node (d / 16) (d % 16 / 4))
  else if 0x04000 ≤ off ∧ off < 0x04400 then some (.pq ((off - 0x04000) / 4))
  else if 0x10000 ≤ off ∧ off < 0x14000 then
    let d := off - 0x10000
    some (.code (d / 64) (d % 64 / 4))
  else if 0x20000 ≤ off ∧ off < 0x24000 then some (.text ((off - 0x20000) / 4))
  else if 0x30000 ≤ off ∧ off < 0x31000 then some (.bitWord ((off - 0x30000) / 4))
  else if 0x40000 ≤ off ∧ off < 0x60000 then some (.out ((off - 0x40000) / 4))
  else none

/-! What a place reads when its exact value is given. -/

/-- What a register reads (10_state.md R33-R46). -/
def State.readReg (s : State) : Reg → Word
  | .id => Config.idWord
  | .param0 => Config.param0
  | .param1 => Config.param1
  | .param2 => Config.param2
  | .param3 => Config.param3
  | .ctrl => s.ctrlWord
  | .cmd => 0#32
  | .status => s.statusWord
  | .errCode => s.errCode.setWidth 32
  | .errInfo0 => s.errInfo0
  | .errInfo1 => s.errInfo1
  | .alphaN => s.alphaN
  | .textLen => s.textLen
  | .bitLen => s.bitLen
  | .outLen => s.outLen
  | .nodeCount => s.nodeCount.setWidth 32
  | .pqSize => s.pqSize.setWidth 32
  | .root => s.root.setWidth 32
  | .rootWeightLo => s.rootWeightLo
  | .rootWeightHi => s.rootWeightHi
  | .maxLen => BitVec.ofNat 32 s.maxLen
  | .lastOp => s.lastOp.setWidth 32

/-- Word w of entry k of the NODE window, read as 0 when k is not live (20_memory.md R88). -/
def State.nodeWord (s : State) (k w : Nat) : Word :=
  let nd := s.nodeAt k
  if k < s.nodeCount.toNat ∧ k < Config.nodeMax then
    match w with
    | 0 => 0#16 ++ nd.sym ++ 0#6 ++ 1#1 ++ BitVec.ofBool nd.leaf
    | 1 => nd.weight.extractLsb' 0 32
    | 2 => 0#24 ++ nd.weight.extractLsb' 32 8
    | _ => 0#7 ++ nd.right ++ 0#7 ++ nd.left
  else 0#32

/-- Slot j of the PQ window (R89). -/
def State.pqWord (s : State) (j : Nat) : Word :=
  if j < s.pqSize.toNat then 1#1 ++ 0#22 ++ s.heapAt j else 0#32

/-- Word w of entry c of the CODE window: w0 is {valid, len}, words 1 to 8 are the codeword with its first
bit in bit 0 of word 1, words 9 to 15 read 0 (R90). -/
def State.codeWord (s : State) (c w : Nat) : Word :=
  let e := codeIn s.epoch s.mem.code c
  if s.codesValid = false then 0#32
  else if w = 0 then 0#16 ++ e.len ++ 0#7 ++ BitVec.ofBool e.valid
  else if w ≤ 8 then (e.bits.setWidth 256).extractLsb' (32 * (w - 1)) 32
  else 0#32

/-- The word whose bit b is `f b`. -/
def packWord (f : Nat → Bool) : Word :=
  BitVec.ofFnLE (fun b : Fin 32 => f b.val)

/-- Word w of the BIT window: bit b is BIT[32*w + b] (R92). -/
def State.bitWordAt (s : State) (w : Nat) : Word :=
  packWord (fun b => s.bitAt (32 * w + b))

/-- Word k of the OUT window (R93). -/
def State.outWord (s : State) (k : Nat) : Word :=
  if k < s.outLen.toNat then (s.outAt k).setWidth 32 else 0#32

/-- What a place reads (R86-R93; 10_state.md R47). -/
def State.readPlace (s : State) : Place → Word
  | .reg r => s.readReg r
  | .reserved => 0#32
  | .alphaSym i => (s.alphaSymAt i).setWidth 32
  | .alphaFreq i => s.alphaFreqAt i
  | .node k w => s.nodeWord k w
  | .pq j => s.pqWord j
  | .code c w => s.codeWord c w
  | .text p => (s.textAt p).setWidth 32
  | .bitWord w => s.bitWordAt w
  | .out k => s.outWord k

/-! What a write to a place does when it is not dropped. -/

/-- A write of STATUS acts on the W1C bits DONE [1] and OVERRUN [5] only (10_state.md R36). -/
def State.writeStatus (s : State) (v : Word) : State :=
  { s with done := s.done && !v.getLsbD 1, overrun := s.overrun && !v.getLsbD 5 }

/-- A write of a register; a read-only register ignores it (10_state.md section 2). A write of CMD offers
the command (60_exceptions.md R261). -/
def State.writeReg (s : State) (r : Reg) (v : Word) : State :=
  match r with
  | .ctrl => { s with irqEn := v.getLsbD 0 }
  | .cmd => s.accept v
  | .status => s.writeStatus v
  | .alphaN => { s with alphaN := v }
  | .textLen => { s with textLen := v }
  | .bitLen => { s with bitLen := v }
  | .id => s
  | .param0 => s
  | .param1 => s
  | .param2 => s
  | .param3 => s
  | .errCode => s
  | .errInfo0 => s
  | .errInfo1 => s
  | .outLen => s
  | .nodeCount => s
  | .pqSize => s
  | .root => s
  | .rootWeightLo => s
  | .rootWeightHi => s
  | .maxLen => s
  | .lastOp => s

/-- A write of a place: ALPHA, TEXT and BIT take the bits they store (20_memory.md R87, R91, R92); a
reserved offset and the read-only windows ignore it (R88-R90, R93; 10_state.md R47). -/
def State.writePlace (s : State) (pl : Place) (v : Word) : State :=
  match pl with
  | .reg r => s.writeReg r v
  | .reserved => s
  | .alphaSym i => s.withMem { s.mem with alphaSym := Ram.set s.mem.alphaSym i (v.setWidth 8) }
  | .alphaFreq i => s.withMem { s.mem with alphaFreq := Ram.set s.mem.alphaFreq i v }
  | .node _ _ => s
  | .pq _ => s
  | .code _ _ => s
  | .text p => s.withMem { s.mem with text := Ram.set s.mem.text p (v.setWidth 8) }
  | .bitWord w => s.withMem { s.mem with bit := Ram.fill s.mem.bit (32 * w) 32 (fun b => v.getLsbD b) }
  | .out _ => s

/-! The port. -/

/-- The places whose read is exact while BUSY: ID, PARAM0-3, CTRL and STATUS (R95), and the reserved
offsets, which read 0 from any state (10_state.md R47; log 9). -/
def exactWhileBusy : Place → Bool
  | .reg .id => true
  | .reg .param0 => true
  | .reg .param1 => true
  | .reg .param2 => true
  | .reg .param3 => true
  | .reg .ctrl => true
  | .reg .status => true
  | .reserved => true
  | _ => false

/-- The places whose write takes effect while BUSY: CTRL and STATUS (R94). -/
def writtenWhileBusy : Place → Bool
  | .reg .ctrl => true
  | .reg .status => true
  | _ => false

/-- What an access names, or why the bus answers ERROR: the form of the access is checked before the map
(R83, R84, R86). -/
def resolve (a : Access) : Except PortError Place :=
  if a.size ≠ 4 then .error .notOneWord
  else if a.off.toNat % 4 ≠ 0 then .error .misaligned
  else
    match placeAt a.off.toNat with
    | some pl => .ok pl
    | none => .error .unmapped

/-- A read of a mapped place: exact, or a free draw while BUSY; it changes no state of the block (R95,
R96). -/
def State.portRead (s : State) (pl : Place) : PortResp × State :=
  if s.busy && !exactWhileBusy pl then
    (.data (Config.busyRead s.draws), { s with draws := s.draws + 1 })
  else (.data (s.readPlace pl), s)

/-- A write of a mapped place: while BUSY it is dropped and sets OVERRUN, but to CTRL and STATUS (R94). -/
def State.portWrite (s : State) (pl : Place) (v : Word) : PortResp × State :=
  if s.busy && !writtenWhileBusy pl then (.wrote, { s with overrun := true })
  else (.wrote, s.writePlace pl v)

/-- A host access: its response and the state after it. An ERROR response leaves the state unchanged
(R83, R84). -/
def State.access (s : State) (a : Access) : PortResp × State :=
  match resolve a with
  | .error e => (.error e, s)
  | .ok pl =>
    match a with
    | .read _ _ => s.portRead pl
    | .write _ _ v => s.portWrite pl v

/-- The state in which the host has seen a response. -/
def State.respond (s : State) (r : PortResp) : State :=
  { s with resp := some r }

/-- The machine's step on a host access: a next state with the response, a host-side fault for an ERROR
response (R83), no meaning while `rst_n` is low (70_reset_and_hazards.md R290). -/
def portTurn (a : Access) (s : State) : Host.Outcome State Fault Refusal :=
  if s.rstN = false then .refused (.accessInReset a)
  else
    match s.access a with
    | (.error e, _) => .fault (.portError e a)
    | (r, t) => .next (t.respond r)

end Sys2Proof.Machine
end

