-- ==== Sys2Proof/Machine/Step.lean ====
section
/-! DEFINITION. One step of the machine: the next pending event of the host, or the sequencer's turn, which
completes the running command in one atomic transition (spec/70_reset_and_hazards.md R297; log 1). -/

namespace Sys2Proof.Machine

/-- The sequencer's turn: the command running is decoded and completed (60_exceptions.md R261, 30_encoding.md
R114); an illegal word takes its error entry (45_control.md R252); when SEQ = IDLE the block does nothing
(60_exceptions.md R285). -/
def sequencerTurn (s : State) : Host.Outcome State Fault Refusal :=
  match s.fetchCommand with
  | none => .next s
  | some w =>
    match decode w with
    | .ok i => exec i s
    | .error _ => execIllegal w s

/-- One step. With no event pending the sequencer moves: the fairness of R297. -/
def step (s : State) : Host.Outcome State Fault Refusal :=
  match s.host with
  | [] => sequencerTurn s
  | .sequencer :: rest => sequencerTurn { s with host := rest }
  | .drive level :: rest => .next (State.driveReset { s with host := rest } level)
  | .port a :: rest => portTurn a { s with host := rest }

/-- The state whose next step runs the command of a row of spec/opcode_table.json: its word has been
offered to CMD and accepted (60_exceptions.md R261), and the sequencer's turn is next. HTB fetches no
program (10_state.md R31): the host's CMD write is how a command comes to run (log 2). -/
def State.withFetchWord (s : State) (nbits w : Nat) : State :=
  { s.accept (tableWord nbits w) with
    rstN := true
    host := .sequencer :: s.host }

end Sys2Proof.Machine
end

