-- ==== Sys2Proof/Machine/HostForms.lean ====
section
/-! DEFINITION. The forms of a host program and the port transactions they stand for
(spec/30_encoding.md R118-R120). A host program is its list of events; where its WAITs end is where the
sequencer's turns stand in the list (log 1). -/

namespace Sys2Proof.Machine

/-- `offset(name)` (R118): the offset of a register (10_state.md R33-R46) or of a window word
(20_memory.md R87-R93). -/
def regOffset : Reg → Nat
  | .id => 0x000
  | .param0 => 0x004
  | .param1 => 0x008
  | .param2 => 0x00C
  | .param3 => 0x010
  | .ctrl => 0x020
  | .cmd => 0x024
  | .status => 0x028
  | .errCode => 0x02C
  | .errInfo0 => 0x030
  | .errInfo1 => 0x034
  | .alphaN => 0x040
  | .textLen => 0x044
  | .bitLen => 0x048
  | .outLen => 0x04C
  | .nodeCount => 0x050
  | .pqSize => 0x054
  | .root => 0x058
  | .rootWeightLo => 0x05C
  | .rootWeightHi => 0x060
  | .maxLen => 0x064
  | .lastOp => 0x068

/-- The offset of a named place; a reserved place has no one offset, 0x0FC stands for it (R118). -/
def placeOffset : Place → Nat
  | .reg r => regOffset r
  | .reserved => 0x0FC
  | .alphaSym i => 0x01000 + 8 * i
  | .alphaFreq i => 0x01000 + 8 * i + 4
  | .node k w => 0x02000 + 16 * k + 4 * w
  | .pq j => 0x04000 + 4 * j
  | .code c w => 0x10000 + 64 * c + 4 * w
  | .text p => 0x20000 + 4 * p
  | .bitWord w => 0x30000 + 4 * w
  | .out k => 0x40000 + 4 * k

/-- `RD <name>` (R118). -/
def readForm (pl : Place) : HostEvent :=
  .port (.read (BitVec.ofNat 19 (placeOffset pl)) 4)

/-- `WR <name>, <v>` (R118). -/
def writeForm (pl : Place) (v : Word) : HostEvent :=
  .port (.write (BitVec.ofNat 19 (placeOffset pl)) 4 v)

/-- `CMD <MNEMONIC>` (R118). -/
def cmdForm (i : Instr) : HostEvent :=
  writeForm (.reg .cmd) (encode i)

/-- `WAIT` (R119) of a host that reads STATUS `polls` times before the command completes, and once after;
how many is not fixed (70_reset_and_hazards.md R297). -/
def waitForm (polls : Nat) : List HostEvent :=
  List.replicate polls (readForm (.reg .status)) ++ [.sequencer, readForm (.reg .status)]

/-- `RUN <MNEMONIC>` (R119). -/
def runForm (i : Instr) (polls : Nat) : List HostEvent :=
  cmdForm i :: waitForm polls

/-- `LOADALPHA (s0,f0), …` (R119). -/
def loadAlphaForm (entries : List (Sym × Freq)) : List HostEvent :=
  entries.zipIdx.flatMap (fun e =>
    [writeForm (.alphaSym e.2) (e.1.1.setWidth 32), writeForm (.alphaFreq e.2) e.1.2]) ++
  [writeForm (.reg .alphaN) (BitVec.ofNat 32 entries.length)]

/-- `LOADTEXT "c0 c1 …"` (R119), given the symbols' codes. -/
def loadTextForm (text : List Sym) : List HostEvent :=
  text.zipIdx.map (fun c => writeForm (.text c.2) (c.1.setWidth 32)) ++
  [writeForm (.reg .textLen) (BitVec.ofNat 32 text.length)]

/-- `EXPECT <name> = <v>`, after its `RD <name>`: whether the host saw v (R119). -/
def expectForm (v : Word) (s : State) : Bool :=
  s.resp == some (.data v)

end Sys2Proof.Machine
end

