-- ==== Sys2Proof/Safety.lean ====
section
/-! DEFINITION. The terms claims are stated in: the invariants of the machine (spec/10_state.md R58 and the
rules it rests on), the tree under ROOT, codewords and streams, and what a whole command does from its
acceptance. Each is a decidable proposition over plain data. -/

namespace Sys2Proof.Machine

/-! ## Runs -/

/-- `RUN <MNEMONIC>` on an idle block, without the host's reads: acceptance, then completion
(60_exceptions.md R261; 30_encoding.md R119). -/
def runCommand (i : Instr) (s : State) : Host.Outcome State Fault Refusal :=
  exec i (s.accept (encode i))

/-- `RUN MERGE` m times (41_tree_builder.md R166). -/
def runMerges : Nat → State → Host.Outcome State Fault Refusal
  | 0, s => .next s
  | m + 1, s =>
    match runCommand .merge s with
    | .next t => runMerges m t
    | .fault r => .fault r
    | .refused r => .refused r

/-! ## Reserved register offsets -/

/-- The offsets of 10_state.md R33-R46 that name a register. -/
def assignedRegisterOffsets : List Nat :=
  [0x000, 0x004, 0x008, 0x00C, 0x010, 0x020, 0x024, 0x028, 0x02C, 0x030, 0x034, 0x040, 0x044, 0x048, 0x04C,
   0x050, 0x054, 0x058, 0x05C, 0x060, 0x064, 0x068]

/-- R47: every other aligned offset of 0x000-0x0FF is reserved. -/
abbrev reservedOffset (off : Nat) : Prop :=
  off < 0x100 ∧ off % 4 = 0 ∧ off ∉ assignedRegisterOffsets

/-! ## Invariants -/

/-- The memory has its canonical form (log 18). -/
abbrev MemoryFits (s : State) : Prop := s.mem.wf = true

/-- R58 (a), with the bound of 41_tree_builder.md R163: NODE_COUNT + PQ_SIZE is at most 2 * N_MAX, so a
merge always finds a free node. -/
abbrev CountsFit (s : State) : Prop :=
  s.nodeCount.toNat + s.pqSize.toNat ≤ 512 ∧ s.nodeCount.toNat ≤ 511 ∧ s.pqSize.toNat ≤ 256

/-- CODES_VALID = 1 implies TREE_VALID = 1 (10_state.md R32); TREE_VALID = 1 implies PQ_SIZE = 0
(41_tree_builder.md R170); ROOT is NIL when TREE_VALID = 0 (10_state.md R43). -/
abbrev FlagsAgree (s : State) : Prop :=
  (s.codesValid = true → s.treeValid = true) ∧ (s.treeValid = true → s.pqSize = 0#9) ∧
  (s.treeValid = false → s.root = nil)

/-- ERR_CODE is one of the codes of 60_exceptions.md R260. -/
abbrev ErrCodeLegal (s : State) : Prop := s.errCode ∈ ErrCode.all.map ErrCode.code

/-- R58 (b) and the heap property 40_priority_queue.md R141: the queue's entries are live and distinct, and
every slot's key comes after its parent's. -/
abbrev QueueSound (s : State) : Prop :=
  (∀ j < s.pqSize.toNat, (s.heapAt j).toNat < s.nodeCount.toNat) ∧ s.queue.Nodup ∧
  (∀ j < s.pqSize.toNat, 1 ≤ j → s.before .index (s.heapAt ((j - 1) / 2)) (s.heapAt j) = true)

/-- The weight of the queue's entries together; R10's bound on it is why no sum overflows. -/
def State.queueWeight (s : State) : Nat :=
  (s.queue.map (fun k => (s.nodeAt k.toNat).weight.toNat)).sum

/-- R10: what is still to be merged weighs at most 2^8 * (2^32 - 1) < 2^40. -/
abbrev WeightsFit (s : State) : Prop := s.queueWeight ≤ 256 * (2 ^ 32 - 1)

/-- R50 and R58 (c): a leaf has no children; an internal node holds no symbol, its children have smaller
indices, and its weight is exactly the sum of theirs. -/
abbrev NodesSound (s : State) : Prop :=
  ∀ k < s.nodeCount.toNat,
    if (s.nodeAt k).leaf then (s.nodeAt k).left = nil ∧ (s.nodeAt k).right = nil
    else
      (s.nodeAt k).sym = 0#8 ∧ (s.nodeAt k).left.toNat < k ∧ (s.nodeAt k).right.toNat < k ∧
      (s.nodeAt k).weight.toNat =
        (s.nodeAt (s.nodeAt k).left.toNat).weight.toNat + (s.nodeAt (s.nodeAt k).right.toNat).weight.toNat

/-- How many nodes hang under node k, itself included, down to the given depth. -/
def subtreeSize (nodes : Nat → Node) : Nat → Nat → Nat
  | 0, _ => 0
  | depth + 1, k =>
    if (nodes k).leaf then 1
    else
      1 + subtreeSize nodes depth (nodes k).left.toNat + subtreeSize nodes depth (nodes k).right.toNat

/-- How many nodes hang under node k of a state. -/
def State.sizeUnder (s : State) (k : NodeIdx) : Nat :=
  subtreeSize s.nodeAt s.nodeCount.toNat k.toNat

/-- R148: the queue's entries with the nodes below them are all the live nodes, counted; once there is a
finished tree, its root with the nodes below it is (R58 (e)). -/
abbrev NodesCovered (s : State) : Prop :=
  if s.treeValid then s.root.toNat < s.nodeCount.toNat ∧ s.sizeUnder s.root = s.nodeCount.toNat
  else (s.queue.map s.sizeUnder).sum = s.nodeCount.toNat

/-- How many live nodes are leaves. -/
def State.leafCount (s : State) : Nat :=
  (List.range s.nodeCount.toNat).countP (fun k => (s.nodeAt k).leaf)

/-- R58 (e), R167: n leaves and m merges give n + m nodes and n - m queue entries, at most 256 leaves. -/
abbrev LeavesCounted (s : State) : Prop :=
  s.leafCount ≤ 256 ∧
  s.nodeCount.toNat + (if s.treeValid then 1 else s.pqSize.toNat) = 2 * s.leafCount

/-- Each symbol labels at most one leaf (41_tree_builder.md R160, 42_code_table.md R192). -/
abbrev LeavesDistinct (s : State) : Prop :=
  ∀ i < s.nodeCount.toNat, ∀ j < i,
    (s.nodeAt i).leaf = true → (s.nodeAt j).leaf = true → (s.nodeAt i).sym ≠ (s.nodeAt j).sym

/-- The builder's invariant on the queue and the flags: R58 (a), (b), and what R10 bounds. -/
abbrev QueueSide (s : State) : Prop :=
  CountsFit s ∧ FlagsAgree s ∧ QueueSound s ∧ WeightsFit s

/-- The builder's invariant on the node store: R58 (c), (e), with what R148 and R160 add. -/
abbrev StoreSide (s : State) : Prop :=
  NodesSound s ∧ NodesCovered s ∧ LeavesCounted s ∧ LeavesDistinct s

/-- The builder's invariant: the queue, the node store and ROOT as R58 (a)-(c), (e) describe them. -/
abbrev TreeSound (s : State) : Prop := QueueSide s ∧ StoreSide s

/-- How many times live node k is a child, a queue entry or ROOT. -/
def State.owners (s : State) (k : Nat) : Nat :=
  (List.range s.nodeCount.toNat).countP (fun p => !(s.nodeAt p).leaf && (s.nodeAt p).left.toNat == k) +
  (List.range s.nodeCount.toNat).countP (fun p => !(s.nodeAt p).leaf && (s.nodeAt p).right.toNat == k) +
  s.queue.countP (fun q => q.toNat == k) + (if s.treeValid ∧ s.root.toNat = k then 1 else 0)

/-- R58 (d): every live node is a child of some node, or in H, or the ROOT, and exactly one of the three. -/
abbrev OwnedOnce (s : State) : Prop := ∀ k < s.nodeCount.toNat, s.owners k = 1

/-- 42_code_table.md R195: while CODES_VALID = 1, the table is the one derived from the tree now held. -/
abbrev TableDerived (s : State) : Prop :=
  s.codesValid = true → genTable s = some s.mem.code

/-! ## Trees, codewords and streams -/

/-- The child of node k on edge b: left for 0, right for 1 (44_decoder.md R232). -/
def State.child (s : State) (k : NodeIdx) (b : Bool) : NodeIdx :=
  if b then (s.nodeAt k.toNat).right else (s.nodeAt k.toNat).left

/-- The node that a sequence of edges leads to from node k, if every node before the last edge is
internal. -/
def State.descend (s : State) : NodeIdx → List Bool → Option NodeIdx
  | k, [] => some k
  | k, b :: bs => if (s.nodeAt k.toNat).leaf then none else s.descend (s.child k b) bs

/-- A sequence of edges from ROOT ends at a leaf that holds a symbol: it is that symbol's codeword. -/
abbrev State.spells (s : State) (bits : List Bool) (c : Sym) : Prop :=
  ∃ k ∈ s.descend s.root bits, (s.nodeAt k.toNat).leaf = true ∧ (s.nodeAt k.toNat).sym = c

/-- The bits of a codeword in stream order (10_state.md R53). -/
def codeBits (e : CodeEntry) : List Bool :=
  (List.range e.len.toNat).map (fun j => e.bits.getLsbD j)

/-- The first n bits of the stream, BIT[0..n-1] (10_state.md R55). -/
def State.stream (s : State) (n : Nat) : List Bool :=
  (List.range n).map s.bitAt

/-- The first m symbols of the text, TEXT[0..m-1] (R54). -/
def State.text (s : State) (m : Nat) : List Sym :=
  (List.range m).map s.textAt

/-- The first m symbols of the output, OUT[0..m-1] (R56). -/
def State.output (s : State) (m : Nat) : List Sym :=
  (List.range m).map s.outAt

/-- The concatenation of the codewords of a text (43_encoder.md R212). -/
def State.encoded (s : State) (text : List Sym) : List Bool :=
  text.flatMap (fun c => codeBits (s.codeAt c))

/-! ## Operands of a command -/

/-- No error condition of SEED and BUILD_TREE holds (41_tree_builder.md R160; 60_exceptions.md R264). -/
abbrev AlphabetOk (s : State) : Prop :=
  1 ≤ s.alphaN.toNat ∧ s.alphaN.toNat ≤ 256 ∧ (∀ i < s.alphaN.toNat, s.alphaFreqAt i ≠ 0#32) ∧
  (∀ i < s.alphaN.toNat, ∀ j < i, s.alphaSymAt j ≠ s.alphaSymAt i)

/-- The first m symbols of the text all have a code entry, and their codewords fit into BIT
(43_encoder.md R210). -/
abbrev TextFits (s : State) (m : Nat) : Prop :=
  (∀ p < m, (s.codeAt (s.textAt p)).valid = true) ∧ (s.encoded (s.text m)).length ≤ 32768

/-- The sum of the frequencies of the alphabet (10_state.md R44). -/
def State.totalFreq (s : State) : Nat :=
  ((List.range s.alphaN.toNat).map (fun i => (s.alphaFreqAt i).toNat)).sum

end Sys2Proof.Machine
end

