-- ==== Sys2Proof/Certificates/Slice0/Obligations.lean ====
section
/-! DEFINITION. The statements for the provers: what each command does and where it completes, its errors,
its frame, the host port, reset, and the invariants that every step keeps. -/

open Sys2Proof Sys2Proof.Machine

/-! ## Encoding -/

/-- 30_encoding.md R114 with the words of R113: over all 2^32 words, the decoder answers a command for
exactly the nine words of the opcode map, and that map's command. -/
def Obligations.DecoderAcceptsExactlyTheOpcodeMap : Prop :=
  ∀ (w : Word) (i : Instr), decode w = .ok i ↔
    (w, i) ∈ [(0x00000000#32, Instr.nop), (0x00000001#32, .clear), (0x00000010#32, .seed),
      (0x00000011#32, .merge), (0x00000012#32, .finish), (0x00000013#32, .buildTree),
      (0x00000020#32, .genCodes), (0x00000030#32, .encode), (0x00000040#32, .decode)]

/-- Decode and encode agree, on the word and on its byte lanes (30_encoding.md R113; 20_memory.md R85); and a
word is illegal exactly when RES is not 0 or its opcode is reserved (R115). -/
def Obligations.DecodeOfEncodeIsTheCommand : Prop :=
  (∀ i : Instr, i.wf = true → decode (encode i) = .ok i ∧ decodeBytes (lanesOf (encode i)) = .ok i) ∧
  (∀ w : Word, decodeBytes (lanesOf w) = decode w) ∧
  (∀ w : Word, (∃ i, decode w = .ok i) ↔ (fieldsOf w).wf = true)

/-- Words written out from the rows of 30_encoding.md R113 and the vectors CT4-CT7 of 95_test_vectors.md. -/
def Obligations.DecodesWordsWrittenInTheSpec : Prop :=
  decode 0b00000000000000000000000000010011#32 = .ok .buildTree ∧
  decode 0b00000000000000000000000000010000#32 = .ok .seed ∧
  decode 0b00000000000000000000000000100000#32 = .ok .genCodes ∧
  decode 0b00000000000000000000000000110000#32 = .ok .encode ∧
  decode 0b00000000000000000000000001000000#32 = .ok .decode ∧
  decode 0x000000FF#32 = .error (.reservedOpcode 0xFF#8) ∧
  decode 0x00000002#32 = .error (.reservedOpcode 0x02#8) ∧
  decode 0x00000113#32 = .error (.reservedBits 0x000001#24) ∧
  decode 0x80000000#32 = .error (.reservedBits 0x800000#24)

/-! ## Steps, acceptance, reset -/

/-- A step runs the decoded command: with a command running and the sequencer's turn next, the step is exec
of that command, after the turn is taken off the pending events (the model's schedule, log 1). -/
def Obligations.StepRunsTheDecodedCommand : Prop :=
  ∀ (s : State) (w : Word) (i : Instr) (rest : List HostEvent),
    s.rstN = true → s.seq = .busy w → decode w = .ok i →
      (s.host = [] → step s = exec i s) ∧
      (s.host = .sequencer :: rest → step s = exec i { s with host := rest })

/-- 60_exceptions.md R261: a CMD write while SEQ = IDLE is accepted, after which the command that R114 selects
runs; while SEQ = BUSY(op) it is dropped and OVERRUN is set. That SEQ then holds the whole word is the
model's inference (log 3), and that the command runs once no event is pending is its schedule (log 1). -/
def Obligations.CmdWriteIsAcceptedWhenIdleDroppedWhenBusy : Prop :=
  ∀ (s : State) (w : Word) (rest : List HostEvent),
    s.rstN = true → s.host = .port (.write 0x00024#19 4 w) :: rest →
      (s.seq = .idle →
        step s = .next { s with
          host := rest, resp := some .wrote, seq := .busy w, done := false
          errCode := 0x00#8, errInfo0 := 0#32, errInfo1 := 0#32, lastOp := w.extractLsb' 0 8 } ∧
        (∀ t, step s = .next t → ∀ i, decode w = .ok i →
          step { t with host := [] } = exec i { t with host := [] })) ∧
      (∀ v, s.seq = .busy v →
        step s = .next { s with host := rest, resp := some .wrote, overrun := true })

/-- 45_control.md R252 with 30_encoding.md R115: an illegal word offered while SEQ = IDLE is accepted and
completes with E_ILLEGAL_CMD (0x10), ERR_INFO0 = the word, and no other effect. -/
def Obligations.IllegalWordReportsItselfAndNothingElse : Prop :=
  ∀ (s : State) (w : Word), s.rstN = true → s.seq = .idle → (fieldsOf w).wf = false →
    s.host = [.port (.write 0x00024#19 4 w)] →
      Sys2Proof.core.run 2 s = .next { s with
        host := [], resp := some .wrote, seq := .idle, done := true
        errCode := 0x10#8, errInfo0 := w, errInfo1 := 0#32, lastOp := w.extractLsb' 0 8 }

/-- 60_exceptions.md R285: when SEQ = IDLE the block does nothing, and all state persists. -/
def Obligations.IdleBlockDoesNothing : Prop :=
  ∀ s : State, s.seq = .idle → s.host = [] → step s = .next s

/-- 10_state.md R59: the reset value of every register and view, and the RAM contents as
free draws, whatever the number of resets (log 6, log 7). -/
def Obligations.ResetValuesOfEveryRegister : Prop :=
  State.reset.seq = .idle ∧
  State.reset.readReg .id = 0x48544201#32 ∧ State.reset.readReg .param0 = 0x00000100#32 ∧
  State.reset.readReg .param1 = 0x00001000#32 ∧ State.reset.readReg .param2 = 0x00008000#32 ∧
  State.reset.readReg .param3 = 0x00282008#32 ∧ State.reset.readReg .ctrl = 0#32 ∧
  State.reset.readReg .status = 0#32 ∧ State.reset.treeValid = false ∧ State.reset.codesValid = false ∧
  State.reset.readReg .errCode = 0#32 ∧ State.reset.readReg .errInfo0 = 0#32 ∧
  State.reset.readReg .errInfo1 = 0#32 ∧ State.reset.readReg .alphaN = 0#32 ∧
  State.reset.readReg .textLen = 0#32 ∧ State.reset.readReg .bitLen = 0#32 ∧
  State.reset.readReg .outLen = 0#32 ∧ State.reset.readReg .nodeCount = 0#32 ∧
  State.reset.readReg .pqSize = 0#32 ∧ State.reset.readReg .root = 0x000001FF#32 ∧
  State.reset.readReg .lastOp = 0#32 ∧ State.reset.readReg .rootWeightLo = 0#32 ∧
  State.reset.readReg .rootWeightHi = 0#32 ∧ State.reset.readReg .maxLen = 0#32 ∧
  (∀ e i, { State.reset with epoch := e }.alphaSymAt i = Config.alphaSymDraw e i ∧
    { State.reset with epoch := e }.alphaFreqAt i = Config.alphaFreqDraw e i) ∧
  (∀ e p, { State.reset with epoch := e }.textAt p = Config.textDraw e p) ∧
  (∀ e q, { State.reset with epoch := e }.bitAt q = Config.bitDraw e q) ∧
  (∀ e k, { State.reset with epoch := e }.nodeAt k = Config.nodeDraw e k) ∧
  (∀ e j, { State.reset with epoch := e }.heapAt j = Config.heapDraw e j) ∧
  (∀ e c, { State.reset with epoch := e }.codeAt c = Config.codeDraw e c.toNat) ∧
  (∀ e k, { State.reset with epoch := e }.outAt k = Config.outDraw e k) ∧
  (∀ k w, State.reset.nodeWord k w = 0#32) ∧ (∀ j, State.reset.pqWord j = 0#32) ∧
  (∀ c w, State.reset.codeWord c w = 0#32) ∧ (∀ k, State.reset.outWord k = 0#32)

/-- 70_reset_and_hazards.md R290, R291: driving `rst_n` low, from any state, also while a command runs, gives at
once the reset values with RAM contents drawn anew, no command running and `irq` 0; while it is low nothing
changes and a host access is refused, being outside the spec's model (log 5); when it returns high the state
is the reset state. That the pending inputs and the counter of draws go on is the model's own (log 5,
log 15). -/
def Obligations.ResetFromAnyStateGivesTheResetValues : Prop :=
  ∀ (s : State) (rest : List HostEvent),
    (s.host = .drive false :: rest → ∃ e t, e > s.epoch ∧ step s = .next t ∧
      t = { State.reset with rstN := false, host := rest, epoch := e, draws := s.draws } ∧
      t.seq = .idle ∧ t.irq = false) ∧
    (s.rstN = false → s.host = [] → step s = .next s) ∧
    (∀ a, s.rstN = false → s.host = .port a :: rest → step s = .refused (.accessInReset a)) ∧
    (s.host = .drive false :: .drive true :: rest → ∃ e, e > s.epoch ∧
      Sys2Proof.core.run 2 s = .next { State.reset with host := rest, epoch := e, draws := s.draws })

/-! ## Control commands -/

/-- 45_control.md R251: NOP only completes; by its acceptance it clears the error report. -/
def Obligations.NopCompletesAndClearsTheErrorReport : Prop :=
  encode .nop = 0x00000000#32 ∧
  ∀ s : State,
    exec .nop s = .next { s with seq := .idle, done := true } ∧
    runCommand .nop s = .next { s with
      seq := .idle, done := true, errCode := 0#8, errInfo0 := 0#32, errInfo1 := 0#32, lastOp := 0x00#8 }

/-- 45_control.md R250: CLEAR discards the tree, the queue, the table and the decode output, and leaves every
other register and every RAM as it was; the NODE, PQ, CODE and OUT windows then read 0. -/
def Obligations.ClearDiscardsTreeQueueTableAndOutput : Prop :=
  encode .clear = 0x00000001#32 ∧
  ∀ s : State, ∃ t, exec .clear s = .next t ∧
    t = { s with
      treeValid := false, codesValid := false, nodeCount := 0#10, pqSize := 0#9, root := 0x1FF#9
      outLen := 0#32, seq := .idle, done := true } ∧
    (∀ k w, t.nodeWord k w = 0#32) ∧ (∀ j, t.pqWord j = 0#32) ∧ (∀ c w, t.codeWord c w = 0#32) ∧
    (∀ k, t.outWord k = 0#32)

/-! ## Tree construction -/

/-- 41_tree_builder.md R160-R162: SEED on a legal alphabet writes one leaf per entry, discards the old tree and
table, and queues exactly the leaves as a heap; it changes nothing else. -/
def Obligations.SeedMakesLeavesAndTheirQueue : Prop :=
  ∀ s : State, AlphabetOk s → ∃ t, exec .seed s = .next t ∧
    t = { s with
      seq := .idle, done := true, treeValid := false, codesValid := false, root := 0x1FF#9
      nodeCount := s.alphaN.setWidth 10, pqSize := s.alphaN.setWidth 9
      mem := { s.mem with node := t.mem.node, heap := t.mem.heap } } ∧
    (∀ i < s.alphaN.toNat, t.nodeAt i =
      { leaf := true, sym := s.alphaSymAt i, weight := (s.alphaFreqAt i).setWidth 40
        left := 0x1FF#9, right := 0x1FF#9 }) ∧
    (∀ k, s.alphaN.toNat ≤ k → t.nodeAt k = s.nodeAt k) ∧
    t.queue.Perm ((List.range s.alphaN.toNat).map (BitVec.ofNat 9)) ∧
    (∀ j, 1 ≤ j → j < s.alphaN.toNat → t.before .index (t.heapAt ((j - 1) / 2)) (t.heapAt j) = true) ∧
    (∀ j, s.alphaN.toNat ≤ j → t.heapAt j = s.heapAt j)

/-- 41_tree_builder.md R160, 60_exceptions.md R264, R265: the error that SEED and BUILD_TREE report is the
first in order, and on an error nothing but the completion state changes. -/
def Obligations.SeedAndBuildReportTheFirstError : Prop :=
  ∀ s : State, ∀ i ∈ [Instr.seed, Instr.buildTree],
    (s.alphaN = 0#32 → exec i s = .next { s with
      errCode := 0x01#8, errInfo0 := 0#32, errInfo1 := 0#32, seq := .idle, done := true }) ∧
    (256 < s.alphaN.toNat → exec i s = .next { s with
      errCode := 0x11#8, errInfo0 := s.alphaN, errInfo1 := 0#32, seq := .idle, done := true }) ∧
    (∀ k, k < s.alphaN.toNat → s.alphaN.toNat ≤ 256 →
      (∀ m < k, s.alphaFreqAt m ≠ 0#32 ∧ ∀ j < m, s.alphaSymAt j ≠ s.alphaSymAt m) →
      (s.alphaFreqAt k = 0#32 → exec i s = .next { s with
        errCode := 0x12#8, errInfo0 := BitVec.ofNat 32 k, errInfo1 := 0#32, seq := .idle, done := true }) ∧
      (s.alphaFreqAt k ≠ 0#32 → ∀ j < k, s.alphaSymAt j = s.alphaSymAt k →
        (∀ l < j, s.alphaSymAt l ≠ s.alphaSymAt k) → exec i s = .next { s with
          errCode := 0x13#8, errInfo0 := BitVec.ofNat 32 k, errInfo1 := BitVec.ofNat 32 j
          seq := .idle, done := true }))

/-- 40_priority_queue.md R147: pqExtractMin answers an entry of the queue that is least: the `<lex`-least one
under INDEX, one of minimum weight under ANY, whatever the free tie choices are. -/
def Obligations.ExtractMinAnswersALeastEntry : Prop :=
  ∀ s : State, s.pqSize ≠ 0#9 →
    ((∀ j < s.pqSize.toNat, 1 ≤ j → s.before .index (s.heapAt ((j - 1) / 2)) (s.heapAt j) = true) →
      ∃ k t, pqExtractMin .index s = .ok k t ∧ k ∈ s.queue ∧
        ∀ q ∈ s.queue, q = k ∨ s.before .index k q = true) ∧
    ((∀ j < s.pqSize.toNat, 1 ≤ j →
        (s.nodeAt (s.heapAt ((j - 1) / 2)).toNat).weight ≤ (s.nodeAt (s.heapAt j).toNat).weight) →
      ∃ k t, pqExtractMin .any s = .ok k t ∧ k ∈ s.queue ∧
        ∀ q ∈ s.queue, (s.nodeAt k.toNat).weight ≤ (s.nodeAt q.toNat).weight)

/-- 41_tree_builder.md R163, R164: MERGE on two entries or more takes the two least keys l and r out of the
queue, l first, makes the node NODE_COUNT of them with l as its left child, queues it, and changes nothing
else; every other node, and every slot of H past the old queue, reads as before. -/
def Obligations.MergeJoinsTheTwoLeastEntries : Prop :=
  ∀ s : State, CountsFit s → QueueSound s → 2 ≤ s.pqSize.toNat →
    ∃ (l r : NodeIdx) (rest : List NodeIdx) (t : State), exec .merge s = .next t ∧
      s.queue.Perm (l :: r :: rest) ∧ s.before .index l r = true ∧
      (∀ q ∈ rest, s.before .index r q = true) ∧
      t = { s with
        seq := .idle, done := true, nodeCount := s.nodeCount + 1#10, pqSize := s.pqSize - 1#9
        mem := { s.mem with node := t.mem.node, heap := t.mem.heap } } ∧
      t.nodeAt s.nodeCount.toNat =
        { leaf := false, sym := 0#8, left := l, right := r
          weight := (s.nodeAt l.toNat).weight + (s.nodeAt r.toNat).weight } ∧
      (∀ k, k ≠ s.nodeCount.toNat → t.nodeAt k = s.nodeAt k) ∧
      t.queue.Perm (s.nodeCount.setWidth 9 :: rest) ∧
      (∀ j, s.pqSize.toNat ≤ j → t.heapAt j = s.heapAt j)

/-- 41_tree_builder.md R164, R165, 60_exceptions.md R260, R262: MERGE and FINISH report what they cannot do,
with PQ_SIZE, and leave everything but the completion state as it was. -/
def Obligations.MergeAndFinishErrorsChangeNothingElse : Prop :=
  ∀ s : State,
    (s.pqSize.toNat < 2 → exec .merge s = .next { s with
      errCode := 0x02#8, errInfo0 := s.pqSize.setWidth 32, errInfo1 := 0#32, seq := .idle, done := true }) ∧
    (s.pqSize = 0#9 → exec .finish s = .next { s with
      errCode := 0x02#8, errInfo0 := 0#32, errInfo1 := 0#32, seq := .idle, done := true }) ∧
    (2 ≤ s.pqSize.toNat → exec .finish s = .next { s with
      errCode := 0x14#8, errInfo0 := s.pqSize.setWidth 32, errInfo1 := 0#32, seq := .idle, done := true })

/-- 41_tree_builder.md R165: FINISH with one entry left makes it the root. -/
def Obligations.FinishMakesTheLastEntryTheRoot : Prop :=
  encode .finish = 0x00000012#32 ∧
  ∀ s : State, s.pqSize = 1#9 → exec .finish s = .next { s with
    root := s.heapAt 0, treeValid := true, pqSize := 0#9, seq := .idle, done := true }

/-- 41_tree_builder.md R166-R168, 10_state.md R44: BUILD_TREE on a legal alphabet completes with a finished
tree of n leaves and n - 1 internal nodes, whose root weighs the sum of the frequencies, each internal node
exactly the sum of its children, which have smaller indices; nothing outside the builder's state changes, nor a
node or a slot of H past those the build uses. -/
def Obligations.BuildTreeMakesAFullTreeOfTheAlphabet : Prop :=
  ∀ s : State, AlphabetOk s → ∃ t, exec .buildTree s = .next t ∧
    t = { s with
      seq := .idle, done := true, treeValid := true, codesValid := false, root := t.root
      nodeCount := BitVec.ofNat 10 (2 * s.alphaN.toNat - 1), pqSize := 0#9
      mem := { s.mem with node := t.mem.node, heap := t.mem.heap } } ∧
    t.root.toNat = 2 * s.alphaN.toNat - 2 ∧
    (t.nodeAt t.root.toNat).weight.toNat = s.totalFreq ∧
    (∀ i < s.alphaN.toNat, t.nodeAt i =
      { leaf := true, sym := s.alphaSymAt i, weight := (s.alphaFreqAt i).setWidth 40
        left := 0x1FF#9, right := 0x1FF#9 }) ∧
    (∀ k, s.alphaN.toNat ≤ k → k < 2 * s.alphaN.toNat - 1 →
      (t.nodeAt k).leaf = false ∧ (t.nodeAt k).left.toNat < k ∧ (t.nodeAt k).right.toNat < k ∧
      (t.nodeAt k).weight.toNat = (t.nodeAt (t.nodeAt k).left.toNat).weight.toNat +
        (t.nodeAt (t.nodeAt k).right.toNat).weight.toNat) ∧
    (∀ k, 2 * s.alphaN.toNat - 1 ≤ k → t.nodeAt k = s.nodeAt k) ∧
    (∀ j, s.alphaN.toNat ≤ j → t.heapAt j = s.heapAt j)

/-- 41_tree_builder.md R166, R167: the end state of BUILD_TREE is the end state of RUN SEED, then n - 1 times
RUN MERGE, then RUN FINISH, from the same start state, except for LAST_OP. -/
def Obligations.BuildTreeEqualsSeedMergesFinish : Prop :=
  ∀ s : State, AlphabetOk s → ∃ s1 s2 t u,
    runCommand .seed s = .next s1 ∧ runMerges (s.alphaN.toNat - 1) s1 = .next s2 ∧
    runCommand .finish s2 = .next t ∧ runCommand .buildTree s = .next u ∧
    u = { t with lastOp := 0x13#8 }

/-- 41_tree_builder.md R169: the tree is a function of the ordered alphabet: two states with the same n and
the same n entries, whatever else they hold, get the same root and the same live nodes. -/
def Obligations.TreeIsAFunctionOfTheAlphabet : Prop :=
  ∀ s s' t t' : State, AlphabetOk s → s'.alphaN = s.alphaN →
    (∀ i < s.alphaN.toNat, s'.alphaSymAt i = s.alphaSymAt i ∧ s'.alphaFreqAt i = s.alphaFreqAt i) →
    exec .buildTree s = .next t → exec .buildTree s' = .next t' →
    t'.root = t.root ∧ t'.nodeCount = t.nodeCount ∧ ∀ k < t.nodeCount.toNat, t'.nodeAt k = t.nodeAt k

/-! ## Code table -/

/-- 42_code_table.md R190: GEN_CODES without a finished tree reports E_NO_TREE and changes nothing else; with
one, in a state the builder can be in, it completes, setting CODES_VALID and writing nothing but CODE. -/
def Obligations.GenCodesCompletesOnATree : Prop :=
  ∀ s : State,
    (s.treeValid = false → exec .genCodes s = .next { s with
      errCode := 0x15#8, errInfo0 := 0#32, errInfo1 := 0#32, seq := .idle, done := true }) ∧
    (TreeSound s → s.treeValid = true → ∃ t, exec .genCodes s = .next t ∧
      t = { s with seq := .idle, done := true, codesValid := true, mem := { s.mem with code := t.mem.code } })

/-- 42_code_table.md R191: on a one-leaf tree GEN_CODES gives that leaf's symbol the codeword "0", length 1,
and every other symbol no codeword. -/
def Obligations.GenCodesFallbackForOneLeaf : Prop :=
  ∀ s : State, s.treeValid = true → (s.nodeAt s.root.toNat).leaf = true →
    ∃ t, exec .genCodes s = .next t ∧ t.codesValid = true ∧
      t.codeAt (s.nodeAt s.root.toNat).sym = { valid := true, len := 1#8, bits := 0#255 } ∧
      ∀ c, c ≠ (s.nodeAt s.root.toNat).sym → t.codeAt c = { valid := false, len := 0#8, bits := 0#255 }

/-- 42_code_table.md R193 (a), (b), (d), 10_state.md R53: after GEN_CODES on a sound tree with an internal
root, the valid entries are exactly the symbols of the leaves, each of length 1 to 255 with no bit above its
length, and each is the path of edges from ROOT to its symbol's leaf. -/
def Obligations.GenCodesSpellsThePathsOfTheLeaves : Prop :=
  ∀ s t : State, TreeSound s → OwnedOnce s → s.treeValid = true → (s.nodeAt s.root.toNat).leaf = false →
    exec .genCodes s = .next t →
    ∀ c : Sym,
      ((t.codeAt c).valid = true ↔ ∃ k < s.nodeCount.toNat, (s.nodeAt k).leaf = true ∧ (s.nodeAt k).sym = c) ∧
      ((t.codeAt c).valid = true →
        1 ≤ (t.codeAt c).len.toNat ∧ s.spells (codeBits (t.codeAt c)) c ∧
        ∀ j, (t.codeAt c).len.toNat ≤ j → (t.codeAt c).bits.getLsbD j = false)

/-- 42_code_table.md R193 (c): after GEN_CODES on a sound tree no valid codeword is a prefix of another. -/
def Obligations.GeneratedCodeIsPrefixFree : Prop :=
  ∀ s t : State, TreeSound s → s.treeValid = true → exec .genCodes s = .next t →
    ∀ c d : Sym, (t.codeAt c).valid = true → (t.codeAt d).valid = true → c ≠ d →
      ¬ (codeBits (t.codeAt c)) <+: (codeBits (t.codeAt d))

/-- 42_code_table.md R193 (d): after GEN_CODES on a sound tree of two leaves or more, the sum of 2^(-len) over
the valid codewords is 1; it is written here times 2^255. -/
def Obligations.GeneratedCodeLengthsFillTheTree : Prop :=
  ∀ s t : State, TreeSound s → OwnedOnce s → s.treeValid = true → (s.nodeAt s.root.toNat).leaf = false →
    exec .genCodes s = .next t →
    ((List.range 256).map (fun c =>
      if (t.codeAt (BitVec.ofNat 8 c)).valid then 2 ^ (255 - (t.codeAt (BitVec.ofNat 8 c)).len.toNat) else 0)).sum =
      2 ^ 255

/-- 42_code_table.md R194, 92_eei_decisions.md D26: GEN_CODES run again on the same tree leaves the identical
state. -/
def Obligations.GenCodesAgainGivesTheIdenticalTable : Prop :=
  ∀ s t : State, exec .genCodes s = .next t → s.treeValid = true → exec .genCodes t = .next t

/-! ## Encoding -/

/-- 43_encoder.md R210-R213: ENCODE of a text whose symbols all have codewords, and whose codewords fit,
writes their concatenation to BIT and its length to BIT_LEN, and changes nothing else: every bit beyond reads
as before. -/
def Obligations.EncodeConcatenatesTheCodewords : Prop :=
  ∀ s : State, s.codesValid = true → s.textLen.toNat ≤ 4096 → TextFits s s.textLen.toNat →
    ∃ t, exec .encode s = .next t ∧
      t = { s with
        seq := .idle, done := true
        bitLen := BitVec.ofNat 32 (s.encoded (s.text s.textLen.toNat)).length
        mem := { s.mem with bit := t.mem.bit } } ∧
      t.stream (s.encoded (s.text s.textLen.toNat)).length = s.encoded (s.text s.textLen.toNat) ∧
      ∀ q, (s.encoded (s.text s.textLen.toNat)).length ≤ q → t.bitAt q = s.bitAt q

/-- 43_encoder.md R210, R211, 60_exceptions.md R264: ENCODE without a table or with a text too long reports it
and only sets BIT_LEN <- 0. -/
def Obligations.EncodeChecksTableAndLengthFirst : Prop :=
  ∀ s : State,
    (s.codesValid = false → exec .encode s = .next { s with
      errCode := 0x16#8, errInfo0 := 0#32, errInfo1 := 0#32, bitLen := 0#32, seq := .idle, done := true }) ∧
    (s.codesValid = true → 4096 < s.textLen.toNat → exec .encode s = .next { s with
      errCode := 0x17#8, errInfo0 := s.textLen, errInfo1 := 0#32, bitLen := 0#32, seq := .idle, done := true })

/-- 43_encoder.md R211, R214, R216, 60_exceptions.md R265: the first text position p that ENCODE cannot encode
ends it: E_UNKNOWN_SYMBOL names the symbol and p, E_OUTPUT_OVERFLOW p and the bits written; the codewords
before p stay in BIT, the other bits read as before, BIT_LEN is 0, and nothing else changes. -/
def Obligations.EncodeErrorKeepsThePrefixItWrote : Prop :=
  ∀ (s : State) (p : Nat), s.codesValid = true → s.textLen.toNat ≤ 4096 → p < s.textLen.toNat → TextFits s p →
    ((s.codeAt (s.textAt p)).valid = false ∨
      ((s.codeAt (s.textAt p)).valid = true ∧
        32768 < (s.encoded (s.text p)).length + (s.codeAt (s.textAt p)).len.toNat)) →
    ∃ t, exec .encode s = .next t ∧
      t = { s with
        seq := .idle, done := true, bitLen := 0#32
        errCode := if (s.codeAt (s.textAt p)).valid then 0x18#8 else 0x03#8
        errInfo0 := if (s.codeAt (s.textAt p)).valid then BitVec.ofNat 32 p else (s.textAt p).setWidth 32
        errInfo1 :=
          if (s.codeAt (s.textAt p)).valid then BitVec.ofNat 32 (s.encoded (s.text p)).length else BitVec.ofNat 32 p
        mem := { s.mem with bit := t.mem.bit } } ∧
      t.stream (s.encoded (s.text p)).length = s.encoded (s.text p) ∧
      ∀ q, (s.encoded (s.text p)).length ≤ q → t.bitAt q = s.bitAt q

/-! ## Decoding -/

/-- 44_decoder.md R230-R234: on a tree with an internal root, a stream that is a concatenation of codewords of
leaves decodes to their symbols: OUT_LEN is their number, OUT holds them in order, and nothing else
changes; every output entry beyond reads as before. -/
def Obligations.DecodeOfCodewordsGivesTheirSymbols : Prop :=
  ∀ (s : State) (words : List (List Bool × Sym)),
    s.treeValid = true → s.bitLen.toNat ≤ 32768 → (s.nodeAt s.root.toNat).leaf = false →
    (∀ x ∈ words, x.1.length ≤ 255 ∧ s.spells x.1 x.2) →
    s.stream s.bitLen.toNat = words.flatMap Prod.fst →
    ∃ t, exec .decode s = .next t ∧
      t = { s with
        seq := .idle, done := true, outLen := BitVec.ofNat 32 words.length
        mem := { s.mem with out := t.mem.out } } ∧
      t.output words.length = words.map Prod.snd ∧
      ∀ k, words.length ≤ k → t.outAt k = s.outAt k

/-- 44_decoder.md R234: where the bits end inside a codeword, after whole codewords, DECODE reports
E_TRUNCATED_STREAM with the index where that codeword began and the number of its bits present, sets
OUT_LEN <- 0, and writes nothing else but OUT, which holds the symbols of the whole codewords (R235). -/
def Obligations.DecodeReportsATruncatedTail : Prop :=
  ∀ (s : State) (words : List (List Bool × Sym)) (tail : List Bool) (k : NodeIdx),
    s.treeValid = true → s.bitLen.toNat ≤ 32768 → (s.nodeAt s.root.toNat).leaf = false →
    (∀ x ∈ words, x.1.length ≤ 255 ∧ s.spells x.1 x.2) →
    tail ≠ [] → tail.length ≤ 254 → s.descend s.root tail = some k → (s.nodeAt k.toNat).leaf = false →
    s.stream s.bitLen.toNat = words.flatMap Prod.fst ++ tail →
    ∃ t, exec .decode s = .next t ∧
      t = { s with
        seq := .idle, done := true, outLen := 0#32, errCode := 0x04#8
        errInfo0 := BitVec.ofNat 32 (words.flatMap Prod.fst).length
        errInfo1 := BitVec.ofNat 32 tail.length
        mem := { s.mem with out := t.mem.out } } ∧
      t.output words.length = words.map Prod.snd ∧
      ∀ j, words.length ≤ j → t.outAt j = s.outAt j

/-- 44_decoder.md R233: over a one-leaf tree every bit, of either value, emits the sole symbol. -/
def Obligations.DecodeOverOneLeafEmitsItForEveryBit : Prop :=
  ∀ s : State, s.treeValid = true → s.bitLen.toNat ≤ 32768 → (s.nodeAt s.root.toNat).leaf = true →
    ∃ t, exec .decode s = .next t ∧
      t = { s with
        seq := .idle, done := true, outLen := s.bitLen, mem := { s.mem with out := t.mem.out } } ∧
      (∀ k < s.bitLen.toNat, t.outAt k = (s.nodeAt s.root.toNat).sym) ∧
      ∀ k, s.bitLen.toNat ≤ k → t.outAt k = s.outAt k

/-- 44_decoder.md R230, 60_exceptions.md R264: DECODE without a tree or with a stream too long reports it and
only sets OUT_LEN <- 0. -/
def Obligations.DecodeChecksTreeAndLengthFirst : Prop :=
  ∀ s : State,
    (s.treeValid = false → exec .decode s = .next { s with
      errCode := 0x15#8, errInfo0 := 0#32, errInfo1 := 0#32, outLen := 0#32, seq := .idle, done := true }) ∧
    (s.treeValid = true → 32768 < s.bitLen.toNat → exec .decode s = .next { s with
      errCode := 0x17#8, errInfo0 := s.bitLen, errInfo1 := 0#32, outLen := 0#32, seq := .idle, done := true })

/-- 44_decoder.md R238: in a state the machine can be in, with a table derived from its tree and a text of the
alphabet's symbols that fits, ENCODE and then DECODE succeed and give the text back. -/
def Obligations.EncodeThenDecodeGivesTheTextBack : Prop :=
  ∀ s : State, TreeSound s → TableDerived s → s.codesValid = true → s.textLen.toNat ≤ 4096 →
    TextFits s s.textLen.toNat →
    ∃ t u, runCommand .encode s = .next t ∧ runCommand .decode t = .next u ∧
      t.errCode = 0x00#8 ∧ u.errCode = 0x00#8 ∧ u.outLen = s.textLen ∧
      u.output s.textLen.toNat = s.text s.textLen.toNat

/-! ## Frames and completion of all commands -/

/-- 60_exceptions.md R262, R263, 30_encoding.md R112, 10_state.md R35, R36, R49, R54: however a command ends, it
ends IDLE and DONE, and it writes no input: ALPHA, TEXT, ALPHA_N, TEXT_LEN, CTRL, OVERRUN and LAST_OP, and
the host's side, are as they were at acceptance. -/
def Obligations.CommandsEndIdleAndWriteNoInput : Prop :=
  ∀ (i : Instr) (s t : State), exec i s = .next t →
    t = { s with
      seq := .idle, done := true
      treeValid := t.treeValid, codesValid := t.codesValid, bitLen := t.bitLen, outLen := t.outLen
      errCode := t.errCode, errInfo0 := t.errInfo0, errInfo1 := t.errInfo1
      nodeCount := t.nodeCount, pqSize := t.pqSize, root := t.root
      mem := { s.mem with
        node := t.mem.node, heap := t.mem.heap, code := t.mem.code, bit := t.mem.bit, out := t.mem.out } }

/-- 20_memory.md R104, 42_code_table.md R194, 43_encoder.md R217, 44_decoder.md R235: GEN_CODES, ENCODE and
DECODE never write the tree, the queue, TREE_VALID or ROOT; GEN_CODES writes only CODE and CODES_VALID,
ENCODE only BIT and BIT_LEN, DECODE only OUT and OUT_LEN, besides the completion state. -/
def Obligations.TreeIsReadOnlyForItsReaders : Prop :=
  ∀ s t : State,
    (exec .genCodes s = .next t → t = { s with
      seq := .idle, done := true, errCode := t.errCode, errInfo0 := t.errInfo0, errInfo1 := t.errInfo1
      codesValid := t.codesValid, mem := { s.mem with code := t.mem.code } }) ∧
    (exec .encode s = .next t → t = { s with
      seq := .idle, done := true, errCode := t.errCode, errInfo0 := t.errInfo0, errInfo1 := t.errInfo1
      bitLen := t.bitLen, mem := { s.mem with bit := t.mem.bit } }) ∧
    (exec .decode s = .next t → t = { s with
      seq := .idle, done := true, errCode := t.errCode, errInfo0 := t.errInfo0, errInfo1 := t.errInfo1
      outLen := t.outLen, mem := { s.mem with out := t.mem.out } })

/-- 70_reset_and_hazards.md R297, 10_state.md R31: in a state the builder can be in, a running command of any
word completes at the sequencer's turn, and the block is IDLE again. -/
def Obligations.EveryAcceptedCommandCompletes : Prop :=
  ∀ (s : State) (w : Word), TreeSound s → s.rstN = true → s.seq = .busy w → s.host = [] →
    ∃ t, step s = .next t ∧ t.seq = .idle ∧ t.done = true

/-- 60_exceptions.md R268: a command that reported an error reports the same error with the same detail when it
is repeated with unchanged inputs. -/
def Obligations.RepeatedCommandRepeatsItsError : Prop :=
  ∀ (i : Instr) (s t : State), runCommand i s = .next t → t.errCode ≠ 0x00#8 →
    ∃ u, runCommand i t = .next u ∧ u.errCode = t.errCode ∧ u.errInfo0 = t.errInfo0 ∧ u.errInfo1 = t.errInfo1

/-- 20_memory.md R98, R101: what a command does does not depend on what the host can still change while it
runs, the interrupt enable, DONE, OVERRUN, and the port's own bookkeeping, and it leaves those but DONE. -/
def Obligations.CommandsDoNotSeeThePort : Prop :=
  ∀ (i : Instr) (s t : State) (irqEn done overrun : Bool) (host : List HostEvent) (resp : Option PortResp)
    (draws : Nat), exec i s = .next t →
    exec i { s with
      irqEn := irqEn, done := done, overrun := overrun, host := host, resp := resp, draws := draws } =
      .next { t with irqEn := irqEn, overrun := overrun, host := host, resp := resp, draws := draws }

/-! ## The host port -/

/-- 20_memory.md R83: a host access that is not an aligned 4-byte one gets an ERROR response, reads 0 and has no
effect on any state; the machine's step is a host-side fault. -/
def Obligations.MisalignedOrNonWordAccessIsAnError : Prop :=
  ∀ (s : State) (a : Access), a.off.toNat % 4 ≠ 0 ∨ a.size ≠ 4 →
    ∃ e, s.access a = (.error e, s) ∧ (PortResp.error e).word = 0#32 ∧
      ∀ rest, s.rstN = true → s.host = .port a :: rest → step s = .fault (.portError e a)

/-- 20_memory.md R84 with the map R86: an aligned word access to an offset outside every region gets an ERROR
response, reads 0 and has no effect; the machine's step is a host-side fault (R83); every offset of the
register region is answered OK. -/
def Obligations.UnmappedOffsetIsAnError : Prop :=
  ∀ (s : State) (a : Access), a.size = 4 → a.off.toNat % 4 = 0 →
    ((0x00100 ≤ a.off.toNat ∧ a.off.toNat < 0x01000) ∨ (0x01800 ≤ a.off.toNat ∧ a.off.toNat < 0x02000) ∨
      (0x04400 ≤ a.off.toNat ∧ a.off.toNat < 0x10000) ∨ (0x14000 ≤ a.off.toNat ∧ a.off.toNat < 0x20000) ∨
      (0x24000 ≤ a.off.toNat ∧ a.off.toNat < 0x30000) ∨ (0x31000 ≤ a.off.toNat ∧ a.off.toNat < 0x40000) ∨
      0x60000 ≤ a.off.toNat →
      s.access a = (.error .unmapped, s) ∧ (PortResp.error .unmapped).word = 0#32 ∧
        ∀ rest, s.rstN = true → s.host = .port a :: rest → step s = .fault (.portError .unmapped a)) ∧
    (a.off.toNat < 0x00100 → ∃ r t, s.access a = (r, t) ∧ ∀ e, r ≠ .error e)

/-- 20_memory.md R86-R93, 10_state.md R33-R46: the map gives every register and every window word its own
aligned offset in the aperture, and reads that offset back as that register or word; the offsets are those of the
rules, written out. -/
def Obligations.EveryPlaceHasItsOwnOffset : Prop :=
  (∀ pl : Place, pl.inRange = true →
    placeOffset pl % 4 = 0 ∧ placeOffset pl < 0x80000 ∧ placeAt (placeOffset pl) = some pl) ∧
  (∀ x ∈ [(0x000, Reg.id), (0x004, .param0), (0x008, .param1), (0x00C, .param2), (0x010, .param3),
      (0x020, .ctrl), (0x024, .cmd), (0x028, .status), (0x02C, .errCode), (0x030, .errInfo0),
      (0x034, .errInfo1), (0x040, .alphaN), (0x044, .textLen), (0x048, .bitLen), (0x04C, .outLen),
      (0x050, .nodeCount), (0x054, .pqSize), (0x058, .root), (0x05C, .rootWeightLo), (0x060, .rootWeightHi),
      (0x064, .maxLen), (0x068, .lastOp)], placeAt x.1 = some (.reg x.2)) ∧
  (∀ off, reservedOffset off → placeAt off = some .reserved) ∧
  (∀ i < 256, placeAt (0x01000 + 8 * i) = some (.alphaSym i) ∧
    placeAt (0x01000 + 8 * i + 4) = some (.alphaFreq i)) ∧
  (∀ k < 512, ∀ w < 4, placeAt (0x02000 + 16 * k + 4 * w) = some (.node k w)) ∧
  (∀ j < 256, placeAt (0x04000 + 4 * j) = some (.pq j)) ∧
  (∀ c < 256, ∀ w < 16, placeAt (0x10000 + 64 * c + 4 * w) = some (.code c w)) ∧
  (∀ p < 4096, placeAt (0x20000 + 4 * p) = some (.text p)) ∧
  (∀ w < 1024, placeAt (0x30000 + 4 * w) = some (.bitWord w)) ∧
  (∀ k < 32768, placeAt (0x40000 + 4 * k) = some (.out k))

/-- 20_memory.md R96, R98: a host read while SEQ = IDLE answers the word of the place it names and changes
nothing of the block; a reserved register offset, whichever it is, reads 0 (10_state.md R47); and the word of
a register is its constant or its field, zero-extended (R33-R35, R37-R43, R46), and the words of the ALPHA,
TEXT and BIT windows are the entries that the commands read (20_memory.md R81, R87, R91, R92). -/
def Obligations.IdleReadAnswersThePlaceAndChangesNothing : Prop :=
  (∀ (s : State) (pl : Place) (rest : List HostEvent),
    s.rstN = true → s.seq = .idle → pl.inRange = true → s.host = readForm pl :: rest →
      step s = .next { s with host := rest, resp := some (.data (s.readPlace pl)) }) ∧
  (∀ (s : State) (off : Offset) (rest : List HostEvent),
    s.rstN = true → s.seq = .idle → reservedOffset off.toNat → s.host = .port (.read off 4) :: rest →
      step s = .next { s with host := rest, resp := some (.data 0#32) }) ∧
  (∀ s : State,
    s.readReg .id = 0x48544201#32 ∧ s.readReg .param0 = 0x00000100#32 ∧ s.readReg .param1 = 0x00001000#32 ∧
    s.readReg .param2 = 0x00008000#32 ∧ s.readReg .param3 = 0x00282008#32 ∧
    s.readReg .ctrl = 0#31 ++ BitVec.ofBool s.irqEn ∧ s.readReg .cmd = 0#32 ∧
    s.readReg .errCode = 0#24 ++ s.errCode ∧ s.readReg .errInfo0 = s.errInfo0 ∧
    s.readReg .errInfo1 = s.errInfo1 ∧ s.readReg .alphaN = s.alphaN ∧ s.readReg .textLen = s.textLen ∧
    s.readReg .bitLen = s.bitLen ∧ s.readReg .outLen = s.outLen ∧
    s.readReg .nodeCount = 0#22 ++ s.nodeCount ∧ s.readReg .pqSize = 0#23 ++ s.pqSize ∧
    s.readReg .root = 0#23 ++ s.root ∧ s.readReg .lastOp = 0#24 ++ s.lastOp ∧
    (∀ r, s.readPlace (.reg r) = s.readReg r)) ∧
  (∀ s : State,
    (∀ i, s.readPlace (.alphaSym i) = 0#24 ++ s.alphaSymAt i ∧ s.readPlace (.alphaFreq i) = s.alphaFreqAt i) ∧
    (∀ p, s.readPlace (.text p) = 0#24 ++ s.textAt p) ∧
    (∀ w b, b < 32 → (s.readPlace (.bitWord w)).getLsbD b = s.bitAt (32 * w + b)))

/-- 20_memory.md R94: while BUSY a host write of anything but CTRL and STATUS returns OK, has no effect and sets
OVERRUN; writes to CTRL and STATUS take effect. That a write of a reserved offset is among those that set
OVERRUN is the model's inference (log 10). -/
def Obligations.BusyWritesAreDroppedAndOverrun : Prop :=
  ∀ (s : State) (pl : Place) (v w : Word) (rest : List HostEvent),
    s.rstN = true → s.seq = .busy w → pl.inRange = true → s.host = writeForm pl v :: rest →
      (pl ≠ .reg .ctrl → pl ≠ .reg .status →
        step s = .next { s with host := rest, resp := some .wrote, overrun := true }) ∧
      (pl = .reg .ctrl →
        step s = .next { s with host := rest, resp := some .wrote, irqEn := v.getLsbD 0 }) ∧
      (pl = .reg .status →
        step s = .next { s with
          host := rest, resp := some .wrote
          done := s.done && !v.getLsbD 1, overrun := s.overrun && !v.getLsbD 5 })

/-- 20_memory.md R95: while BUSY a read of ID, PARAM0-3, CTRL or STATUS is exact; a read of any other register
or window answers a free draw; no read has an effect on the block (the counter of draws is the model's,
log 8). That a reserved register offset, whichever it is, reads 0 while BUSY too is the model's inference
(log 9). -/
def Obligations.BusyReadsAreExactOrFree : Prop :=
  (∀ (s : State) (pl : Place) (w : Word) (rest : List HostEvent),
    s.rstN = true → s.seq = .busy w → pl.inRange = true → s.host = readForm pl :: rest →
      (pl ∈ [Place.reg .id, .reg .param0, .reg .param1, .reg .param2, .reg .param3, .reg .ctrl, .reg .status] →
        step s = .next { s with host := rest, resp := some (.data (s.readPlace pl)) }) ∧
      (pl ∉ [Place.reg .id, .reg .param0, .reg .param1, .reg .param2, .reg .param3, .reg .ctrl, .reg .status,
          .reserved] →
        step s = .next { s with
          host := rest, resp := some (.data (Config.busyRead s.draws)), draws := s.draws + 1 })) ∧
  (∀ (s : State) (off : Offset) (w : Word) (rest : List HostEvent),
    s.rstN = true → s.seq = .busy w → reservedOffset off.toNat → s.host = .port (.read off 4) :: rest →
      step s = .next { s with host := rest, resp := some (.data 0#32) })

/-- 20_memory.md R101: while a command runs, no sequence of host accesses changes what it reads or what it will
write: only CTRL.IRQ_EN, DONE, OVERRUN and the port's own bookkeeping can differ. -/
def Obligations.HostCannotTouchARunningCommand : Prop :=
  ∀ (accesses : List Access) (s u : State) (w : Word), s.seq = .busy w → s.host = accesses.map .port →
    Sys2Proof.core.run accesses.length s = .next u →
      u = { s with
        host := [], irqEn := u.irqEn, done := u.done, overrun := u.overrun, resp := u.resp, draws := u.draws }

/-- 10_state.md R36: the fields of STATUS, bit by bit, and the W1C write of DONE and OVERRUN, which takes effect
whether or not a command runs. -/
def Obligations.StatusFieldsAndTheirClearing : Prop :=
  ∀ s : State,
    ((s.readReg .status).getLsbD 0 = true ↔ s.seq ≠ .idle) ∧
    (s.readReg .status).getLsbD 1 = s.done ∧
    ((s.readReg .status).getLsbD 2 = true ↔ s.errCode ≠ 0#8) ∧
    (s.readReg .status).getLsbD 3 = s.treeValid ∧
    (s.readReg .status).getLsbD 4 = s.codesValid ∧
    (s.readReg .status).getLsbD 5 = s.overrun ∧
    ((s.readReg .status).getLsbD 6 = true ↔ s.treeValid = true ∧ (s.nodeAt s.root.toNat).leaf = true) ∧
    (∀ b, 7 ≤ b → (s.readReg .status).getLsbD b = false) ∧
    ∀ (v : Word) (rest : List HostEvent), s.rstN = true →
      s.host = .port (.write 0x00028#19 4 v) :: rest →
        step s = .next { s with
          host := rest, resp := some .wrote
          done := s.done && !v.getLsbD 1, overrun := s.overrun && !v.getLsbD 5 }

/-- 60_exceptions.md R270, R271: irq is CTRL.IRQ_EN and DONE; every completion, of a command or of an illegal
word, success or error, raises it while IRQ_EN = 1; acceptance, a write of STATUS bit 1, and reset lower it;
clearing IRQ_EN masks it without clearing DONE, and setting IRQ_EN while DONE = 1 raises it at once. -/
def Obligations.IrqRisesAtCompletionAndFallsAtAcceptance : Prop :=
  (∀ s : State, s.irq = true ↔ s.irqEn = true ∧ s.done = true) ∧
  (∀ (i : Instr) (s t : State), exec i s = .next t → t.irq = s.irqEn) ∧
  (∀ (s : State) (w : Word) (e : DecodeError),
    s.rstN = true → s.seq = .busy w → s.host = [] → decode w = .error e →
      ∃ t, step s = .next t ∧ t.seq = .idle ∧ t.irq = s.irqEn) ∧
  (∀ (s : State) (w : Word), (s.accept w).irq = false) ∧
  (∀ (s : State) (v : Word), v.getLsbD 1 = true → (s.writeStatus v).irq = false ∧ (s.writeStatus v).irqEn = s.irqEn) ∧
  (∀ (s : State) (v : Word), (s.writePlace (.reg .ctrl) v).done = s.done ∧
    (v.getLsbD 0 = false → (s.writePlace (.reg .ctrl) v).irq = false) ∧
    (v.getLsbD 0 = true → s.done = true → (s.writePlace (.reg .ctrl) v).irq = true)) ∧
  State.reset.irq = false

/-- 20_memory.md R87, R91, R92: an idle write of an ALPHA, TEXT or BIT window word stores its bits in the
entry that the commands read (R81), reads back as stored, and leaves every other entry of every RAM as it was; and a host write of any place while
SEQ = IDLE is answered OK and is that write (R96, R98). -/
def Obligations.WindowWritesReadBackAndTouchNothingElse : Prop :=
  ∀ (s : State) (v : Word),
    (∀ (pl : Place) (rest : List HostEvent),
      s.rstN = true → s.seq = .idle → pl.inRange = true → s.host = writeForm pl v :: rest →
        step s = .next { s.writePlace pl v with host := rest, resp := some .wrote }) ∧
    (∀ i, (s.writePlace (.alphaSym i) v).readPlace (.alphaSym i) = v &&& 0xFF#32 ∧
      (s.writePlace (.alphaSym i) v).alphaSymAt i = v.extractLsb' 0 8 ∧
      (∀ j, j ≠ i → (s.writePlace (.alphaSym i) v).alphaSymAt j = s.alphaSymAt j) ∧
      (s.writePlace (.alphaSym i) v) =
        { s with mem := { s.mem with alphaSym := (s.writePlace (.alphaSym i) v).mem.alphaSym } }) ∧
    (∀ i, (s.writePlace (.alphaFreq i) v).readPlace (.alphaFreq i) = v ∧
      (s.writePlace (.alphaFreq i) v).alphaFreqAt i = v ∧
      (∀ j, j ≠ i → (s.writePlace (.alphaFreq i) v).alphaFreqAt j = s.alphaFreqAt j) ∧
      (s.writePlace (.alphaFreq i) v) =
        { s with mem := { s.mem with alphaFreq := (s.writePlace (.alphaFreq i) v).mem.alphaFreq } }) ∧
    (∀ p, (s.writePlace (.text p) v).readPlace (.text p) = v &&& 0xFF#32 ∧
      (s.writePlace (.text p) v).textAt p = v.extractLsb' 0 8 ∧
      (∀ j, j ≠ p → (s.writePlace (.text p) v).textAt j = s.textAt j) ∧
      (s.writePlace (.text p) v) =
        { s with mem := { s.mem with text := (s.writePlace (.text p) v).mem.text } }) ∧
    (∀ w, (s.writePlace (.bitWord w) v).readPlace (.bitWord w) = v ∧
      (∀ b < 32, (s.writePlace (.bitWord w) v).bitAt (32 * w + b) = v.getLsbD b) ∧
      (∀ q, q / 32 ≠ w → (s.writePlace (.bitWord w) v).bitAt q = s.bitAt q) ∧
      (s.writePlace (.bitWord w) v) =
        { s with mem := { s.mem with bit := (s.writePlace (.bitWord w) v).mem.bit } })

/-- 20_memory.md R88-R90, R93: the read-only windows: every bit of every word of an entry that is live, valid
or below its count, and 0 where it is masked, which is what a read of the place answers; a write to them, to a
read-only register or to a reserved offset changes nothing. -/
def Obligations.ReadOnlyWindowsShowWhatIsLive : Prop :=
  ∀ s : State,
    (∀ k < 511, k < s.nodeCount.toNat →
      s.nodeWord k 0 = 0#16 ++ (s.nodeAt k).sym ++ 0#6 ++ 1#1 ++ BitVec.ofBool (s.nodeAt k).leaf ∧
      s.nodeWord k 2 ++ s.nodeWord k 1 = (s.nodeAt k).weight.setWidth 64 ∧
      (s.nodeWord k 3).extractLsb' 0 9 = (s.nodeAt k).left ∧ (s.nodeWord k 3).extractLsb' 9 7 = 0#7 ∧
      (s.nodeWord k 3).extractLsb' 16 9 = (s.nodeAt k).right ∧ (s.nodeWord k 3).extractLsb' 25 7 = 0#7) ∧
    (∀ k w, s.nodeCount.toNat ≤ k ∨ k = 511 → s.nodeWord k w = 0#32) ∧
    (∀ j < s.pqSize.toNat, s.pqWord j = 0x80000000#32 ||| (s.heapAt j).setWidth 32) ∧
    (∀ j, s.pqSize.toNat ≤ j → s.pqWord j = 0#32) ∧
    (s.codesValid = true → ∀ c : Sym,
      s.codeWord c.toNat 0 = 0#16 ++ (s.codeAt c).len ++ 0#7 ++ BitVec.ofBool (s.codeAt c).valid ∧
      (∀ w b, 1 ≤ w → w ≤ 8 → b < 32 →
        (s.codeWord c.toNat w).getLsbD b = (s.codeAt c).bits.getLsbD (32 * (w - 1) + b)) ∧
      (∀ w, 9 ≤ w → s.codeWord c.toNat w = 0#32)) ∧
    (s.codesValid = false → ∀ c w, s.codeWord c w = 0#32) ∧
    (∀ k < s.outLen.toNat, s.outWord k = (s.outAt k).setWidth 32) ∧
    (∀ k, s.outLen.toNat ≤ k → s.outWord k = 0#32) ∧
    ((∀ k w, s.readPlace (.node k w) = s.nodeWord k w) ∧ (∀ j, s.readPlace (.pq j) = s.pqWord j) ∧
      (∀ c w, s.readPlace (.code c w) = s.codeWord c w) ∧ (∀ k, s.readPlace (.out k) = s.outWord k)) ∧
    (∀ v, (∀ k w, s.writePlace (.node k w) v = s) ∧ (∀ j, s.writePlace (.pq j) v = s) ∧
      (∀ c w, s.writePlace (.code c w) v = s) ∧ (∀ k, s.writePlace (.out k) v = s) ∧
      s.writePlace .reserved v = s ∧
      (∀ r, r ∉ [Reg.ctrl, .cmd, .status, .alphaN, .textLen, .bitLen] → s.writePlace (.reg r) v = s))

/-- 10_state.md R44, R45: ROOT_WEIGHT is the root's weight and MAX_LEN the largest length of a valid codeword,
and both read 0 without a tree or a table. -/
def Obligations.DiagnosticViewsOfTreeAndTable : Prop :=
  ∀ s : State,
    (s.treeValid = true →
      s.readReg .rootWeightHi ++ s.readReg .rootWeightLo = (s.nodeAt s.root.toNat).weight.setWidth 64) ∧
    (s.treeValid = false → s.readReg .rootWeightHi = 0#32 ∧ s.readReg .rootWeightLo = 0#32) ∧
    (s.codesValid = true →
      (∀ c : Sym, (s.codeAt c).valid = true → (s.codeAt c).len.toNat ≤ (s.readReg .maxLen).toNat) ∧
      ((∃ c : Sym, (s.codeAt c).valid = true ∧ (s.codeAt c).len.toNat = (s.readReg .maxLen).toNat) ∨
        s.readReg .maxLen = 0#32)) ∧
    (s.codesValid = false → s.readReg .maxLen = 0#32)

/-! ## Invariants of every step -/

/-- The reset state meets every invariant below. -/
def Obligations.ResetMeetsEveryInvariant : Prop :=
  MemoryFits State.reset ∧ TreeSound State.reset ∧ OwnedOnce State.reset ∧ TableDerived State.reset ∧
  ErrCodeLegal State.reset

/-- R58 (a) with the bound of R163, and the canonical form of the memory (log 18): a run never finds a RAM
index outside its array, nor more nodes or entries than the arrays hold. -/
def Obligations.StepKeepsMemoryCanonicalAndCountsInRange : Prop :=
  ∀ s t : State, MemoryFits s → CountsFit s → step s = .next t → MemoryFits t ∧ CountsFit t

/-- 10_state.md R32, R43, 41_tree_builder.md R170, 60_exceptions.md R260: every step keeps CODES_VALID implies
TREE_VALID, TREE_VALID implies an empty queue, ROOT = NIL without a tree, and ERR_CODE one of the codes. -/
def Obligations.StepKeepsTheFlagsAgreeing : Prop :=
  ∀ s t : State, CountsFit s → FlagsAgree s → ErrCodeLegal s → step s = .next t →
    FlagsAgree t ∧ ErrCodeLegal t

/-- 10_state.md R58 (b), 40_priority_queue.md R141: every step keeps the queue a heap of distinct live nodes. -/
def Obligations.StepKeepsTheQueueAHeap : Prop :=
  ∀ s t : State, CountsFit s → QueueSound s → step s = .next t → QueueSound t

/-- 10_state.md R58 (a)-(c), (e), 00_scope.md R10, 41_tree_builder.md R168: every step keeps the builder's
invariant: weights are exact sums without overflow, children have smaller indices, the queue or the root
covers all live nodes, and the leaves are counted and distinct. -/
def Obligations.StepKeepsTheTreeSound : Prop :=
  ∀ s t : State, TreeSound s → step s = .next t → TreeSound t

/-- 10_state.md R58 (d), 40_priority_queue.md R148: every step keeps each live node the child of exactly one
node, or a queue entry, or the ROOT, and exactly one of the three. -/
def Obligations.StepKeepsEveryNodeOwnedOnce : Prop :=
  ∀ s t : State, TreeSound s → OwnedOnce s → step s = .next t → OwnedOnce t

/-- 42_code_table.md R195, 70_reset_and_hazards.md R296: every step keeps the table, while CODES_VALID = 1, the
one derived from the tree now held. -/
def Obligations.StepKeepsTheTableOfTheTree : Prop :=
  ∀ s t : State, FlagsAgree s → TableDerived s → step s = .next t → TableDerived t

/-! ## Idle writes of registers, and reserved offsets -/

/-- 10_state.md R37, R35: a write of ALPHA_N, TEXT_LEN or BIT_LEN while SEQ = IDLE stores all 32 bits, a write
of CTRL stores IRQ_EN alone, each reads back so, its reserved bits as 0, and nothing else changes. -/
def Obligations.IdleRegisterWritesStoreAndReadBack : Prop :=
  ∀ (s : State) (v : Word) (rest : List HostEvent), s.rstN = true → s.seq = .idle →
    (s.host = .port (.write 0x00040#19 4 v) :: .port (.read 0x00040#19 4) :: rest →
      Sys2Proof.core.run 2 s = .next { s with host := rest, resp := some (.data v), alphaN := v }) ∧
    (s.host = .port (.write 0x00044#19 4 v) :: .port (.read 0x00044#19 4) :: rest →
      Sys2Proof.core.run 2 s = .next { s with host := rest, resp := some (.data v), textLen := v }) ∧
    (s.host = .port (.write 0x00048#19 4 v) :: .port (.read 0x00048#19 4) :: rest →
      Sys2Proof.core.run 2 s = .next { s with host := rest, resp := some (.data v), bitLen := v }) ∧
    (s.host = .port (.write 0x00020#19 4 v) :: .port (.read 0x00020#19 4) :: rest →
      Sys2Proof.core.run 2 s = .next { s with
        host := rest, resp := some (.data (v &&& 1#32)), irqEn := v.getLsbD 0 })

/-- 10_state.md R47: a write of a reserved register offset, whichever it is, is answered OK and changes nothing
while SEQ = IDLE. That it sets OVERRUN while BUSY, and nothing else, is the model's inference (log 10). -/
def Obligations.ReservedOffsetsIgnoreWrites : Prop :=
  ∀ (s : State) (off : Offset) (v : Word) (rest : List HostEvent),
    s.rstN = true → reservedOffset off.toNat → s.host = .port (.write off 4 v) :: rest →
      (s.seq = .idle → step s = .next { s with host := rest, resp := some .wrote }) ∧
      (∀ w, s.seq = .busy w → step s = .next { s with host := rest, resp := some .wrote, overrun := true })
end

