-- ==== Sys2Proof/Laws/Ram.lean ====
section
/-! SUPPORT. What reading, writing and filling a RAM do, said once: a read after a write to the same index
gives the value written, a write leaves every other index alone (spec/00_scope.md R17), and every write
inside the array keeps the canonical form. -/

namespace Sys2Proof

variable {α : Type}

@[simp] theorem Ram.get?_set_self (r : Ram α) (i : Nat) (a : α) : Ram.get? (Ram.set r i a) i = some a := by
  induction r with
  | nil => simp [Ram.set, Ram.get?]
  | cons c r ih =>
    obtain ⟨k, b⟩ := c
    by_cases h1 : i < k
    · simp [Ram.set, Ram.get?, h1]
    · by_cases h2 : i = k <;> simp [Ram.set, Ram.get?, h1, h2]
      simpa [Ram.set, Ram.get?, h1, h2] using ih

theorem Ram.get?_set_ne (r : Ram α) {i j : Nat} (a : α) (h : j ≠ i) :
    Ram.get? (Ram.set r i a) j = Ram.get? r j := by
  induction r with
  | nil => simp [Ram.set, Ram.get?, h]
  | cons c r ih =>
    obtain ⟨k, b⟩ := c
    by_cases h1 : i < k
    · simp [Ram.set, Ram.get?, h1, h]
    · by_cases h2 : i = k
      · subst h2; simp [Ram.set, Ram.get?, h]
      · by_cases h3 : j = k <;> simp [Ram.set, Ram.get?, h1, h2, h3, ih]

theorem Ram.get?_set (r : Ram α) (i j : Nat) (a : α) :
    Ram.get? (Ram.set r i a) j = if j = i then some a else Ram.get? r j := by
  by_cases h : j = i
  · subst h; simp
  · simp [h, Ram.get?_set_ne r a h]

@[simp] theorem Ram.getD_set_self (r : Ram α) (i : Nat) (a d : α) : Ram.getD (Ram.set r i a) i d = a := by
  simp [Ram.getD]

theorem Ram.getD_set_ne (r : Ram α) {i j : Nat} (a d : α) (h : j ≠ i) :
    Ram.getD (Ram.set r i a) j d = Ram.getD r j d := by
  simp [Ram.getD, Ram.get?_set_ne r a h]

theorem Ram.getD_set (r : Ram α) (i j : Nat) (a d : α) :
    Ram.getD (Ram.set r i a) j d = if j = i then a else Ram.getD r j d := by
  by_cases h : j = i
  · subst h; simp
  · simp [h, Ram.getD_set_ne r a d h]

/-- Filling one element more writes that element last. -/
theorem Ram.fill_succ (r : Ram α) (lo n : Nat) (f : Nat → α) :
    Ram.fill r lo (n + 1) f = Ram.set (Ram.fill r lo n f) (lo + n) (f n) := by
  simp [Ram.fill, List.range_succ]

@[simp] theorem Ram.fill_zero (r : Ram α) (lo : Nat) (f : Nat → α) : Ram.fill r lo 0 f = r := rfl

/-- What a filled RAM reads: the new values inside, the old ones outside. -/
theorem Ram.getD_fill (r : Ram α) (lo n : Nat) (f : Nat → α) (j : Nat) (d : α) :
    Ram.getD (Ram.fill r lo n f) j d = if lo ≤ j ∧ j < lo + n then f (j - lo) else Ram.getD r j d := by
  induction n with
  | zero =>
    have h : ¬(lo ≤ j ∧ j < lo + 0) := by omega
    rw [if_neg h, Ram.fill_zero]
  | succ n ih =>
    rw [Ram.fill_succ, Ram.getD_set, ih]
    by_cases h : j = lo + n
    · subst h; simp
    · have h1 : (lo ≤ j ∧ j < lo + (n + 1)) ↔ (lo ≤ j ∧ j < lo + n) := by omega
      simp [h, h1]

theorem Ram.rising_mono {lo lo' : Nat} (h : lo ≤ lo') : ∀ {r : Ram α}, Ram.rising lo' r = true → Ram.rising lo r = true
  | [], _ => rfl
  | (k, b) :: r, hr => by
    simp only [Ram.rising, Bool.and_eq_true, decide_eq_true_eq] at hr ⊢
    exact ⟨by omega, hr.2⟩

theorem Ram.rising_set {lo : Nat} {r : Ram α} {i : Nat} (a : α) (hr : Ram.rising lo r = true) (hi : lo ≤ i) :
    Ram.rising lo (Ram.set r i a) = true := by
  induction r generalizing lo with
  | nil => simpa [Ram.set, Ram.rising] using hi
  | cons c r ih =>
    obtain ⟨k, b⟩ := c
    simp only [Ram.rising, Bool.and_eq_true, decide_eq_true_eq] at hr
    by_cases h1 : i < k
    · simp only [Ram.set, h1, if_true, Ram.rising, Bool.and_eq_true, decide_eq_true_eq]
      exact ⟨hi, by omega, hr.2⟩
    · by_cases h2 : i = k
      · simpa [Ram.set, h2, Ram.rising] using hr
      · simp only [Ram.set, h1, h2, if_false, Ram.rising, Bool.and_eq_true, decide_eq_true_eq]
        exact ⟨hr.1, ih hr.2 (by omega)⟩

theorem Ram.mem_set {r : Ram α} {i : Nat} {a : α} {c : Nat × α} (h : c ∈ Ram.set r i a) : c = (i, a) ∨ c ∈ r := by
  induction r with
  | nil => simpa [Ram.set] using h
  | cons c' r ih =>
    obtain ⟨k, b⟩ := c'
    by_cases h1 : i < k
    · simpa [Ram.set, h1] using h
    · by_cases h2 : i = k
      · subst h2
        simp only [Ram.set, Nat.lt_irrefl, if_false, if_true, List.mem_cons] at h
        rcases h with h | h
        · exact .inl h
        · right; simp [h]
      · simp only [Ram.set, h1, h2, if_false, List.mem_cons] at h
        rcases h with h | h
        · right; simp [h]
        · rcases ih h with h | h
          · exact .inl h
          · right; simp [h]

/-- Writing an element of the array keeps the canonical form. -/
theorem Ram.wf_set {size : Nat} {r : Ram α} {i : Nat} (a : α) (hr : Ram.wf size r = true) (hi : i < size) :
    Ram.wf size (Ram.set r i a) = true := by
  simp only [Ram.wf, Bool.and_eq_true, List.all_eq_true, decide_eq_true_eq] at hr ⊢
  refine ⟨Ram.rising_set a hr.1 (Nat.zero_le _), fun c hc => ?_⟩
  rcases Ram.mem_set hc with h | h
  · subst h; exact hi
  · exact hr.2 c h

/-- Filling elements of the array keeps the canonical form. -/
theorem Ram.wf_fill {size : Nat} {r : Ram α} (lo n : Nat) (f : Nat → α) (hr : Ram.wf size r = true)
    (hn : lo + n ≤ size) : Ram.wf size (Ram.fill r lo n f) = true := by
  induction n with
  | zero => simpa using hr
  | succ n ih =>
    rw [Ram.fill_succ]
    exact Ram.wf_set _ (ih (by omega)) (by omega)

/-- An index outside the array is never listed. -/
theorem Ram.get?_none_of_wf {size : Nat} {r : Ram α} {i : Nat} (hr : Ram.wf size r = true) (hi : size ≤ i) :
    Ram.get? r i = none := by
  simp only [Ram.wf, Bool.and_eq_true, List.all_eq_true, decide_eq_true_eq] at hr
  have h := hr.2
  clear hr
  induction r with
  | nil => rfl
  | cons c r ih =>
    obtain ⟨k, b⟩ := c
    have hk : k < size := h (k, b) (by simp)
    have : i ≠ k := by omega
    simp only [Ram.get?, this, if_false]
    exact ih (fun c hc => h c (by simp [hc]))

end Sys2Proof
end

