-- ==== Sys2Proof/Laws/State.lean ====
section
/-! SUPPORT. What each named update of the state leaves in each field, one lemma a field and update, so that
no proof unfolds a record update. -/

namespace Sys2Proof.Machine

section
variable (s : State) (m : Memory)
@[simp] theorem State.withMem_seq : (s.withMem m).seq = s.seq := rfl
@[simp] theorem State.withMem_rstN : (s.withMem m).rstN = s.rstN := rfl
@[simp] theorem State.withMem_irqEn : (s.withMem m).irqEn = s.irqEn := rfl
@[simp] theorem State.withMem_done : (s.withMem m).done = s.done := rfl
@[simp] theorem State.withMem_overrun : (s.withMem m).overrun = s.overrun := rfl
@[simp] theorem State.withMem_treeValid : (s.withMem m).treeValid = s.treeValid := rfl
@[simp] theorem State.withMem_codesValid : (s.withMem m).codesValid = s.codesValid := rfl
@[simp] theorem State.withMem_alphaN : (s.withMem m).alphaN = s.alphaN := rfl
@[simp] theorem State.withMem_textLen : (s.withMem m).textLen = s.textLen := rfl
@[simp] theorem State.withMem_bitLen : (s.withMem m).bitLen = s.bitLen := rfl
@[simp] theorem State.withMem_outLen : (s.withMem m).outLen = s.outLen := rfl
@[simp] theorem State.withMem_errCode : (s.withMem m).errCode = s.errCode := rfl
@[simp] theorem State.withMem_errInfo0 : (s.withMem m).errInfo0 = s.errInfo0 := rfl
@[simp] theorem State.withMem_errInfo1 : (s.withMem m).errInfo1 = s.errInfo1 := rfl
@[simp] theorem State.withMem_nodeCount : (s.withMem m).nodeCount = s.nodeCount := rfl
@[simp] theorem State.withMem_pqSize : (s.withMem m).pqSize = s.pqSize := rfl
@[simp] theorem State.withMem_root : (s.withMem m).root = s.root := rfl
@[simp] theorem State.withMem_lastOp : (s.withMem m).lastOp = s.lastOp := rfl
@[simp] theorem State.withMem_mem : (s.withMem m).mem = m := rfl
@[simp] theorem State.withMem_host : (s.withMem m).host = s.host := rfl
@[simp] theorem State.withMem_resp : (s.withMem m).resp = s.resp := rfl
@[simp] theorem State.withMem_epoch : (s.withMem m).epoch = s.epoch := rfl
@[simp] theorem State.withMem_draws : (s.withMem m).draws = s.draws := rfl
end

section
variable (s : State)
@[simp] theorem State.succeed_seq : s.succeed.seq = .idle := rfl
@[simp] theorem State.succeed_rstN : s.succeed.rstN = s.rstN := rfl
@[simp] theorem State.succeed_irqEn : s.succeed.irqEn = s.irqEn := rfl
@[simp] theorem State.succeed_done : s.succeed.done = true := rfl
@[simp] theorem State.succeed_overrun : s.succeed.overrun = s.overrun := rfl
@[simp] theorem State.succeed_treeValid : s.succeed.treeValid = s.treeValid := rfl
@[simp] theorem State.succeed_codesValid : s.succeed.codesValid = s.codesValid := rfl
@[simp] theorem State.succeed_alphaN : s.succeed.alphaN = s.alphaN := rfl
@[simp] theorem State.succeed_textLen : s.succeed.textLen = s.textLen := rfl
@[simp] theorem State.succeed_bitLen : s.succeed.bitLen = s.bitLen := rfl
@[simp] theorem State.succeed_outLen : s.succeed.outLen = s.outLen := rfl
@[simp] theorem State.succeed_errCode : s.succeed.errCode = s.errCode := rfl
@[simp] theorem State.succeed_errInfo0 : s.succeed.errInfo0 = s.errInfo0 := rfl
@[simp] theorem State.succeed_errInfo1 : s.succeed.errInfo1 = s.errInfo1 := rfl
@[simp] theorem State.succeed_nodeCount : s.succeed.nodeCount = s.nodeCount := rfl
@[simp] theorem State.succeed_pqSize : s.succeed.pqSize = s.pqSize := rfl
@[simp] theorem State.succeed_root : s.succeed.root = s.root := rfl
@[simp] theorem State.succeed_lastOp : s.succeed.lastOp = s.lastOp := rfl
@[simp] theorem State.succeed_mem : s.succeed.mem = s.mem := rfl
@[simp] theorem State.succeed_host : s.succeed.host = s.host := rfl
@[simp] theorem State.succeed_resp : s.succeed.resp = s.resp := rfl
@[simp] theorem State.succeed_epoch : s.succeed.epoch = s.epoch := rfl
@[simp] theorem State.succeed_draws : s.succeed.draws = s.draws := rfl
end

section
variable (s : State) (e : ErrCode) (i0 i1 : Word)
@[simp] theorem State.raise_seq : (s.raise e i0 i1).seq = .idle := rfl
@[simp] theorem State.raise_rstN : (s.raise e i0 i1).rstN = s.rstN := rfl
@[simp] theorem State.raise_irqEn : (s.raise e i0 i1).irqEn = s.irqEn := rfl
@[simp] theorem State.raise_done : (s.raise e i0 i1).done = true := rfl
@[simp] theorem State.raise_overrun : (s.raise e i0 i1).overrun = s.overrun := rfl
@[simp] theorem State.raise_treeValid : (s.raise e i0 i1).treeValid = s.treeValid := rfl
@[simp] theorem State.raise_codesValid : (s.raise e i0 i1).codesValid = s.codesValid := rfl
@[simp] theorem State.raise_alphaN : (s.raise e i0 i1).alphaN = s.alphaN := rfl
@[simp] theorem State.raise_textLen : (s.raise e i0 i1).textLen = s.textLen := rfl
@[simp] theorem State.raise_bitLen : (s.raise e i0 i1).bitLen = s.bitLen := rfl
@[simp] theorem State.raise_outLen : (s.raise e i0 i1).outLen = s.outLen := rfl
@[simp] theorem State.raise_errCode : (s.raise e i0 i1).errCode = e.code := rfl
@[simp] theorem State.raise_errInfo0 : (s.raise e i0 i1).errInfo0 = i0 := rfl
@[simp] theorem State.raise_errInfo1 : (s.raise e i0 i1).errInfo1 = i1 := rfl
@[simp] theorem State.raise_nodeCount : (s.raise e i0 i1).nodeCount = s.nodeCount := rfl
@[simp] theorem State.raise_pqSize : (s.raise e i0 i1).pqSize = s.pqSize := rfl
@[simp] theorem State.raise_root : (s.raise e i0 i1).root = s.root := rfl
@[simp] theorem State.raise_lastOp : (s.raise e i0 i1).lastOp = s.lastOp := rfl
@[simp] theorem State.raise_mem : (s.raise e i0 i1).mem = s.mem := rfl
@[simp] theorem State.raise_host : (s.raise e i0 i1).host = s.host := rfl
@[simp] theorem State.raise_resp : (s.raise e i0 i1).resp = s.resp := rfl
@[simp] theorem State.raise_epoch : (s.raise e i0 i1).epoch = s.epoch := rfl
@[simp] theorem State.raise_draws : (s.raise e i0 i1).draws = s.draws := rfl
end

section
variable (s : State) (w : Word)
@[simp] theorem State.accept_seq : (s.accept w).seq = .busy w := rfl
@[simp] theorem State.accept_rstN : (s.accept w).rstN = s.rstN := rfl
@[simp] theorem State.accept_irqEn : (s.accept w).irqEn = s.irqEn := rfl
@[simp] theorem State.accept_done : (s.accept w).done = false := rfl
@[simp] theorem State.accept_overrun : (s.accept w).overrun = s.overrun := rfl
@[simp] theorem State.accept_treeValid : (s.accept w).treeValid = s.treeValid := rfl
@[simp] theorem State.accept_codesValid : (s.accept w).codesValid = s.codesValid := rfl
@[simp] theorem State.accept_alphaN : (s.accept w).alphaN = s.alphaN := rfl
@[simp] theorem State.accept_textLen : (s.accept w).textLen = s.textLen := rfl
@[simp] theorem State.accept_bitLen : (s.accept w).bitLen = s.bitLen := rfl
@[simp] theorem State.accept_outLen : (s.accept w).outLen = s.outLen := rfl
@[simp] theorem State.accept_errCode : (s.accept w).errCode = 0x00#8 := rfl
@[simp] theorem State.accept_errInfo0 : (s.accept w).errInfo0 = 0#32 := rfl
@[simp] theorem State.accept_errInfo1 : (s.accept w).errInfo1 = 0#32 := rfl
@[simp] theorem State.accept_nodeCount : (s.accept w).nodeCount = s.nodeCount := rfl
@[simp] theorem State.accept_pqSize : (s.accept w).pqSize = s.pqSize := rfl
@[simp] theorem State.accept_root : (s.accept w).root = s.root := rfl
@[simp] theorem State.accept_lastOp : (s.accept w).lastOp = w.extractLsb' 0 8 := rfl
@[simp] theorem State.accept_mem : (s.accept w).mem = s.mem := rfl
@[simp] theorem State.accept_host : (s.accept w).host = s.host := rfl
@[simp] theorem State.accept_resp : (s.accept w).resp = s.resp := rfl
@[simp] theorem State.accept_epoch : (s.accept w).epoch = s.epoch := rfl
@[simp] theorem State.accept_draws : (s.accept w).draws = s.draws := rfl
end

section
variable (s : State) (h : Ram NodeIdx) (n : BitVec 9)
@[simp] theorem State.withQueue_seq : (s.withQueue h n).seq = s.seq := rfl
@[simp] theorem State.withQueue_rstN : (s.withQueue h n).rstN = s.rstN := rfl
@[simp] theorem State.withQueue_irqEn : (s.withQueue h n).irqEn = s.irqEn := rfl
@[simp] theorem State.withQueue_done : (s.withQueue h n).done = s.done := rfl
@[simp] theorem State.withQueue_overrun : (s.withQueue h n).overrun = s.overrun := rfl
@[simp] theorem State.withQueue_treeValid : (s.withQueue h n).treeValid = s.treeValid := rfl
@[simp] theorem State.withQueue_codesValid : (s.withQueue h n).codesValid = s.codesValid := rfl
@[simp] theorem State.withQueue_alphaN : (s.withQueue h n).alphaN = s.alphaN := rfl
@[simp] theorem State.withQueue_textLen : (s.withQueue h n).textLen = s.textLen := rfl
@[simp] theorem State.withQueue_bitLen : (s.withQueue h n).bitLen = s.bitLen := rfl
@[simp] theorem State.withQueue_outLen : (s.withQueue h n).outLen = s.outLen := rfl
@[simp] theorem State.withQueue_errCode : (s.withQueue h n).errCode = s.errCode := rfl
@[simp] theorem State.withQueue_errInfo0 : (s.withQueue h n).errInfo0 = s.errInfo0 := rfl
@[simp] theorem State.withQueue_errInfo1 : (s.withQueue h n).errInfo1 = s.errInfo1 := rfl
@[simp] theorem State.withQueue_nodeCount : (s.withQueue h n).nodeCount = s.nodeCount := rfl
@[simp] theorem State.withQueue_pqSize : (s.withQueue h n).pqSize = n := rfl
@[simp] theorem State.withQueue_root : (s.withQueue h n).root = s.root := rfl
@[simp] theorem State.withQueue_lastOp : (s.withQueue h n).lastOp = s.lastOp := rfl
@[simp] theorem State.withQueue_mem : (s.withQueue h n).mem = { s.mem with heap := h } := rfl
@[simp] theorem State.withQueue_host : (s.withQueue h n).host = s.host := rfl
@[simp] theorem State.withQueue_resp : (s.withQueue h n).resp = s.resp := rfl
@[simp] theorem State.withQueue_epoch : (s.withQueue h n).epoch = s.epoch := rfl
@[simp] theorem State.withQueue_draws : (s.withQueue h n).draws = s.draws := rfl
end

section
variable (s : State) (nd : Node)
@[simp] theorem State.appendNode_seq : (s.appendNode nd).seq = s.seq := rfl
@[simp] theorem State.appendNode_rstN : (s.appendNode nd).rstN = s.rstN := rfl
@[simp] theorem State.appendNode_irqEn : (s.appendNode nd).irqEn = s.irqEn := rfl
@[simp] theorem State.appendNode_done : (s.appendNode nd).done = s.done := rfl
@[simp] theorem State.appendNode_overrun : (s.appendNode nd).overrun = s.overrun := rfl
@[simp] theorem State.appendNode_treeValid : (s.appendNode nd).treeValid = s.treeValid := rfl
@[simp] theorem State.appendNode_codesValid : (s.appendNode nd).codesValid = s.codesValid := rfl
@[simp] theorem State.appendNode_alphaN : (s.appendNode nd).alphaN = s.alphaN := rfl
@[simp] theorem State.appendNode_textLen : (s.appendNode nd).textLen = s.textLen := rfl
@[simp] theorem State.appendNode_bitLen : (s.appendNode nd).bitLen = s.bitLen := rfl
@[simp] theorem State.appendNode_outLen : (s.appendNode nd).outLen = s.outLen := rfl
@[simp] theorem State.appendNode_errCode : (s.appendNode nd).errCode = s.errCode := rfl
@[simp] theorem State.appendNode_errInfo0 : (s.appendNode nd).errInfo0 = s.errInfo0 := rfl
@[simp] theorem State.appendNode_errInfo1 : (s.appendNode nd).errInfo1 = s.errInfo1 := rfl
@[simp] theorem State.appendNode_nodeCount : (s.appendNode nd).nodeCount = s.nodeCount + 1#10 := rfl
@[simp] theorem State.appendNode_pqSize : (s.appendNode nd).pqSize = s.pqSize := rfl
@[simp] theorem State.appendNode_root : (s.appendNode nd).root = s.root := rfl
@[simp] theorem State.appendNode_lastOp : (s.appendNode nd).lastOp = s.lastOp := rfl
@[simp] theorem State.appendNode_mem : (s.appendNode nd).mem = { s.mem with node := Ram.set s.mem.node s.nodeCount.toNat nd } := rfl
@[simp] theorem State.appendNode_host : (s.appendNode nd).host = s.host := rfl
@[simp] theorem State.appendNode_resp : (s.appendNode nd).resp = s.resp := rfl
@[simp] theorem State.appendNode_epoch : (s.appendNode nd).epoch = s.epoch := rfl
@[simp] theorem State.appendNode_draws : (s.appendNode nd).draws = s.draws := rfl
end

section
variable (s : State) (c : Ram CodeEntry)
@[simp] theorem State.withTable_seq : (s.withTable c).seq = s.seq := rfl
@[simp] theorem State.withTable_rstN : (s.withTable c).rstN = s.rstN := rfl
@[simp] theorem State.withTable_irqEn : (s.withTable c).irqEn = s.irqEn := rfl
@[simp] theorem State.withTable_done : (s.withTable c).done = s.done := rfl
@[simp] theorem State.withTable_overrun : (s.withTable c).overrun = s.overrun := rfl
@[simp] theorem State.withTable_treeValid : (s.withTable c).treeValid = s.treeValid := rfl
@[simp] theorem State.withTable_codesValid : (s.withTable c).codesValid = true := rfl
@[simp] theorem State.withTable_alphaN : (s.withTable c).alphaN = s.alphaN := rfl
@[simp] theorem State.withTable_textLen : (s.withTable c).textLen = s.textLen := rfl
@[simp] theorem State.withTable_bitLen : (s.withTable c).bitLen = s.bitLen := rfl
@[simp] theorem State.withTable_outLen : (s.withTable c).outLen = s.outLen := rfl
@[simp] theorem State.withTable_errCode : (s.withTable c).errCode = s.errCode := rfl
@[simp] theorem State.withTable_errInfo0 : (s.withTable c).errInfo0 = s.errInfo0 := rfl
@[simp] theorem State.withTable_errInfo1 : (s.withTable c).errInfo1 = s.errInfo1 := rfl
@[simp] theorem State.withTable_nodeCount : (s.withTable c).nodeCount = s.nodeCount := rfl
@[simp] theorem State.withTable_pqSize : (s.withTable c).pqSize = s.pqSize := rfl
@[simp] theorem State.withTable_root : (s.withTable c).root = s.root := rfl
@[simp] theorem State.withTable_lastOp : (s.withTable c).lastOp = s.lastOp := rfl
@[simp] theorem State.withTable_mem : (s.withTable c).mem = { s.mem with code := c } := rfl
@[simp] theorem State.withTable_host : (s.withTable c).host = s.host := rfl
@[simp] theorem State.withTable_resp : (s.withTable c).resp = s.resp := rfl
@[simp] theorem State.withTable_epoch : (s.withTable c).epoch = s.epoch := rfl
@[simp] theorem State.withTable_draws : (s.withTable c).draws = s.draws := rfl
end

section
variable (s : State) (b : Ram Bool) (n : Word)
@[simp] theorem State.withStream_seq : (s.withStream b n).seq = s.seq := rfl
@[simp] theorem State.withStream_rstN : (s.withStream b n).rstN = s.rstN := rfl
@[simp] theorem State.withStream_irqEn : (s.withStream b n).irqEn = s.irqEn := rfl
@[simp] theorem State.withStream_done : (s.withStream b n).done = s.done := rfl
@[simp] theorem State.withStream_overrun : (s.withStream b n).overrun = s.overrun := rfl
@[simp] theorem State.withStream_treeValid : (s.withStream b n).treeValid = s.treeValid := rfl
@[simp] theorem State.withStream_codesValid : (s.withStream b n).codesValid = s.codesValid := rfl
@[simp] theorem State.withStream_alphaN : (s.withStream b n).alphaN = s.alphaN := rfl
@[simp] theorem State.withStream_textLen : (s.withStream b n).textLen = s.textLen := rfl
@[simp] theorem State.withStream_bitLen : (s.withStream b n).bitLen = n := rfl
@[simp] theorem State.withStream_outLen : (s.withStream b n).outLen = s.outLen := rfl
@[simp] theorem State.withStream_errCode : (s.withStream b n).errCode = s.errCode := rfl
@[simp] theorem State.withStream_errInfo0 : (s.withStream b n).errInfo0 = s.errInfo0 := rfl
@[simp] theorem State.withStream_errInfo1 : (s.withStream b n).errInfo1 = s.errInfo1 := rfl
@[simp] theorem State.withStream_nodeCount : (s.withStream b n).nodeCount = s.nodeCount := rfl
@[simp] theorem State.withStream_pqSize : (s.withStream b n).pqSize = s.pqSize := rfl
@[simp] theorem State.withStream_root : (s.withStream b n).root = s.root := rfl
@[simp] theorem State.withStream_lastOp : (s.withStream b n).lastOp = s.lastOp := rfl
@[simp] theorem State.withStream_mem : (s.withStream b n).mem = { s.mem with bit := b } := rfl
@[simp] theorem State.withStream_host : (s.withStream b n).host = s.host := rfl
@[simp] theorem State.withStream_resp : (s.withStream b n).resp = s.resp := rfl
@[simp] theorem State.withStream_epoch : (s.withStream b n).epoch = s.epoch := rfl
@[simp] theorem State.withStream_draws : (s.withStream b n).draws = s.draws := rfl
end

section
variable (s : State) (o : Ram Sym) (n : Word)
@[simp] theorem State.withOutput_seq : (s.withOutput o n).seq = s.seq := rfl
@[simp] theorem State.withOutput_rstN : (s.withOutput o n).rstN = s.rstN := rfl
@[simp] theorem State.withOutput_irqEn : (s.withOutput o n).irqEn = s.irqEn := rfl
@[simp] theorem State.withOutput_done : (s.withOutput o n).done = s.done := rfl
@[simp] theorem State.withOutput_overrun : (s.withOutput o n).overrun = s.overrun := rfl
@[simp] theorem State.withOutput_treeValid : (s.withOutput o n).treeValid = s.treeValid := rfl
@[simp] theorem State.withOutput_codesValid : (s.withOutput o n).codesValid = s.codesValid := rfl
@[simp] theorem State.withOutput_alphaN : (s.withOutput o n).alphaN = s.alphaN := rfl
@[simp] theorem State.withOutput_textLen : (s.withOutput o n).textLen = s.textLen := rfl
@[simp] theorem State.withOutput_bitLen : (s.withOutput o n).bitLen = s.bitLen := rfl
@[simp] theorem State.withOutput_outLen : (s.withOutput o n).outLen = n := rfl
@[simp] theorem State.withOutput_errCode : (s.withOutput o n).errCode = s.errCode := rfl
@[simp] theorem State.withOutput_errInfo0 : (s.withOutput o n).errInfo0 = s.errInfo0 := rfl
@[simp] theorem State.withOutput_errInfo1 : (s.withOutput o n).errInfo1 = s.errInfo1 := rfl
@[simp] theorem State.withOutput_nodeCount : (s.withOutput o n).nodeCount = s.nodeCount := rfl
@[simp] theorem State.withOutput_pqSize : (s.withOutput o n).pqSize = s.pqSize := rfl
@[simp] theorem State.withOutput_root : (s.withOutput o n).root = s.root := rfl
@[simp] theorem State.withOutput_lastOp : (s.withOutput o n).lastOp = s.lastOp := rfl
@[simp] theorem State.withOutput_mem : (s.withOutput o n).mem = { s.mem with out := o } := rfl
@[simp] theorem State.withOutput_host : (s.withOutput o n).host = s.host := rfl
@[simp] theorem State.withOutput_resp : (s.withOutput o n).resp = s.resp := rfl
@[simp] theorem State.withOutput_epoch : (s.withOutput o n).epoch = s.epoch := rfl
@[simp] theorem State.withOutput_draws : (s.withOutput o n).draws = s.draws := rfl
end

section
variable (s : State)
@[simp] theorem State.cleared_seq : s.cleared.seq = s.seq := rfl
@[simp] theorem State.cleared_rstN : s.cleared.rstN = s.rstN := rfl
@[simp] theorem State.cleared_irqEn : s.cleared.irqEn = s.irqEn := rfl
@[simp] theorem State.cleared_done : s.cleared.done = s.done := rfl
@[simp] theorem State.cleared_overrun : s.cleared.overrun = s.overrun := rfl
@[simp] theorem State.cleared_treeValid : s.cleared.treeValid = false := rfl
@[simp] theorem State.cleared_codesValid : s.cleared.codesValid = false := rfl
@[simp] theorem State.cleared_alphaN : s.cleared.alphaN = s.alphaN := rfl
@[simp] theorem State.cleared_textLen : s.cleared.textLen = s.textLen := rfl
@[simp] theorem State.cleared_bitLen : s.cleared.bitLen = s.bitLen := rfl
@[simp] theorem State.cleared_outLen : s.cleared.outLen = 0#32 := rfl
@[simp] theorem State.cleared_errCode : s.cleared.errCode = s.errCode := rfl
@[simp] theorem State.cleared_errInfo0 : s.cleared.errInfo0 = s.errInfo0 := rfl
@[simp] theorem State.cleared_errInfo1 : s.cleared.errInfo1 = s.errInfo1 := rfl
@[simp] theorem State.cleared_nodeCount : s.cleared.nodeCount = 0#10 := rfl
@[simp] theorem State.cleared_pqSize : s.cleared.pqSize = 0#9 := rfl
@[simp] theorem State.cleared_root : s.cleared.root = nil := rfl
@[simp] theorem State.cleared_lastOp : s.cleared.lastOp = s.lastOp := rfl
@[simp] theorem State.cleared_mem : s.cleared.mem = s.mem := rfl
@[simp] theorem State.cleared_host : s.cleared.host = s.host := rfl
@[simp] theorem State.cleared_resp : s.cleared.resp = s.resp := rfl
@[simp] theorem State.cleared_epoch : s.cleared.epoch = s.epoch := rfl
@[simp] theorem State.cleared_draws : s.cleared.draws = s.draws := rfl
end

section
variable (s : State) (v : Word)
@[simp] theorem State.writeStatus_seq : (s.writeStatus v).seq = s.seq := rfl
@[simp] theorem State.writeStatus_rstN : (s.writeStatus v).rstN = s.rstN := rfl
@[simp] theorem State.writeStatus_irqEn : (s.writeStatus v).irqEn = s.irqEn := rfl
@[simp] theorem State.writeStatus_done : (s.writeStatus v).done = (s.done && !v.getLsbD 1) := rfl
@[simp] theorem State.writeStatus_overrun : (s.writeStatus v).overrun = (s.overrun && !v.getLsbD 5) := rfl
@[simp] theorem State.writeStatus_treeValid : (s.writeStatus v).treeValid = s.treeValid := rfl
@[simp] theorem State.writeStatus_codesValid : (s.writeStatus v).codesValid = s.codesValid := rfl
@[simp] theorem State.writeStatus_alphaN : (s.writeStatus v).alphaN = s.alphaN := rfl
@[simp] theorem State.writeStatus_textLen : (s.writeStatus v).textLen = s.textLen := rfl
@[simp] theorem State.writeStatus_bitLen : (s.writeStatus v).bitLen = s.bitLen := rfl
@[simp] theorem State.writeStatus_outLen : (s.writeStatus v).outLen = s.outLen := rfl
@[simp] theorem State.writeStatus_errCode : (s.writeStatus v).errCode = s.errCode := rfl
@[simp] theorem State.writeStatus_errInfo0 : (s.writeStatus v).errInfo0 = s.errInfo0 := rfl
@[simp] theorem State.writeStatus_errInfo1 : (s.writeStatus v).errInfo1 = s.errInfo1 := rfl
@[simp] theorem State.writeStatus_nodeCount : (s.writeStatus v).nodeCount = s.nodeCount := rfl
@[simp] theorem State.writeStatus_pqSize : (s.writeStatus v).pqSize = s.pqSize := rfl
@[simp] theorem State.writeStatus_root : (s.writeStatus v).root = s.root := rfl
@[simp] theorem State.writeStatus_lastOp : (s.writeStatus v).lastOp = s.lastOp := rfl
@[simp] theorem State.writeStatus_mem : (s.writeStatus v).mem = s.mem := rfl
@[simp] theorem State.writeStatus_host : (s.writeStatus v).host = s.host := rfl
@[simp] theorem State.writeStatus_resp : (s.writeStatus v).resp = s.resp := rfl
@[simp] theorem State.writeStatus_epoch : (s.writeStatus v).epoch = s.epoch := rfl
@[simp] theorem State.writeStatus_draws : (s.writeStatus v).draws = s.draws := rfl
end

section
variable (s : State) (r : PortResp)
@[simp] theorem State.respond_seq : (s.respond r).seq = s.seq := rfl
@[simp] theorem State.respond_rstN : (s.respond r).rstN = s.rstN := rfl
@[simp] theorem State.respond_irqEn : (s.respond r).irqEn = s.irqEn := rfl
@[simp] theorem State.respond_done : (s.respond r).done = s.done := rfl
@[simp] theorem State.respond_overrun : (s.respond r).overrun = s.overrun := rfl
@[simp] theorem State.respond_treeValid : (s.respond r).treeValid = s.treeValid := rfl
@[simp] theorem State.respond_codesValid : (s.respond r).codesValid = s.codesValid := rfl
@[simp] theorem State.respond_alphaN : (s.respond r).alphaN = s.alphaN := rfl
@[simp] theorem State.respond_textLen : (s.respond r).textLen = s.textLen := rfl
@[simp] theorem State.respond_bitLen : (s.respond r).bitLen = s.bitLen := rfl
@[simp] theorem State.respond_outLen : (s.respond r).outLen = s.outLen := rfl
@[simp] theorem State.respond_errCode : (s.respond r).errCode = s.errCode := rfl
@[simp] theorem State.respond_errInfo0 : (s.respond r).errInfo0 = s.errInfo0 := rfl
@[simp] theorem State.respond_errInfo1 : (s.respond r).errInfo1 = s.errInfo1 := rfl
@[simp] theorem State.respond_nodeCount : (s.respond r).nodeCount = s.nodeCount := rfl
@[simp] theorem State.respond_pqSize : (s.respond r).pqSize = s.pqSize := rfl
@[simp] theorem State.respond_root : (s.respond r).root = s.root := rfl
@[simp] theorem State.respond_lastOp : (s.respond r).lastOp = s.lastOp := rfl
@[simp] theorem State.respond_mem : (s.respond r).mem = s.mem := rfl
@[simp] theorem State.respond_host : (s.respond r).host = s.host := rfl
@[simp] theorem State.respond_resp : (s.respond r).resp = some r := rfl
@[simp] theorem State.respond_epoch : (s.respond r).epoch = s.epoch := rfl
@[simp] theorem State.respond_draws : (s.respond r).draws = s.draws := rfl
end

section
variable (s : State) (tb : Config.TieBreak)
@[simp] theorem State.tick_seq : (s.tick tb).seq = s.seq := by cases tb <;> rfl
@[simp] theorem State.tick_rstN : (s.tick tb).rstN = s.rstN := by cases tb <;> rfl
@[simp] theorem State.tick_irqEn : (s.tick tb).irqEn = s.irqEn := by cases tb <;> rfl
@[simp] theorem State.tick_done : (s.tick tb).done = s.done := by cases tb <;> rfl
@[simp] theorem State.tick_overrun : (s.tick tb).overrun = s.overrun := by cases tb <;> rfl
@[simp] theorem State.tick_treeValid : (s.tick tb).treeValid = s.treeValid := by cases tb <;> rfl
@[simp] theorem State.tick_codesValid : (s.tick tb).codesValid = s.codesValid := by cases tb <;> rfl
@[simp] theorem State.tick_alphaN : (s.tick tb).alphaN = s.alphaN := by cases tb <;> rfl
@[simp] theorem State.tick_textLen : (s.tick tb).textLen = s.textLen := by cases tb <;> rfl
@[simp] theorem State.tick_bitLen : (s.tick tb).bitLen = s.bitLen := by cases tb <;> rfl
@[simp] theorem State.tick_outLen : (s.tick tb).outLen = s.outLen := by cases tb <;> rfl
@[simp] theorem State.tick_errCode : (s.tick tb).errCode = s.errCode := by cases tb <;> rfl
@[simp] theorem State.tick_errInfo0 : (s.tick tb).errInfo0 = s.errInfo0 := by cases tb <;> rfl
@[simp] theorem State.tick_errInfo1 : (s.tick tb).errInfo1 = s.errInfo1 := by cases tb <;> rfl
@[simp] theorem State.tick_nodeCount : (s.tick tb).nodeCount = s.nodeCount := by cases tb <;> rfl
@[simp] theorem State.tick_pqSize : (s.tick tb).pqSize = s.pqSize := by cases tb <;> rfl
@[simp] theorem State.tick_root : (s.tick tb).root = s.root := by cases tb <;> rfl
@[simp] theorem State.tick_lastOp : (s.tick tb).lastOp = s.lastOp := by cases tb <;> rfl
@[simp] theorem State.tick_mem : (s.tick tb).mem = s.mem := by cases tb <;> rfl
@[simp] theorem State.tick_host : (s.tick tb).host = s.host := by cases tb <;> rfl
@[simp] theorem State.tick_resp : (s.tick tb).resp = s.resp := by cases tb <;> rfl
@[simp] theorem State.tick_epoch : (s.tick tb).epoch = s.epoch := by cases tb <;> rfl
@[simp] theorem State.tick_index : s.tick .index = s := rfl
end

section
variable (n : Nat) (s : State)
@[simp] theorem seedLeaves_seq : (seedLeaves n s).seq = s.seq := rfl
@[simp] theorem seedLeaves_rstN : (seedLeaves n s).rstN = s.rstN := rfl
@[simp] theorem seedLeaves_irqEn : (seedLeaves n s).irqEn = s.irqEn := rfl
@[simp] theorem seedLeaves_done : (seedLeaves n s).done = s.done := rfl
@[simp] theorem seedLeaves_overrun : (seedLeaves n s).overrun = s.overrun := rfl
@[simp] theorem seedLeaves_treeValid : (seedLeaves n s).treeValid = false := rfl
@[simp] theorem seedLeaves_codesValid : (seedLeaves n s).codesValid = false := rfl
@[simp] theorem seedLeaves_alphaN : (seedLeaves n s).alphaN = s.alphaN := rfl
@[simp] theorem seedLeaves_textLen : (seedLeaves n s).textLen = s.textLen := rfl
@[simp] theorem seedLeaves_bitLen : (seedLeaves n s).bitLen = s.bitLen := rfl
@[simp] theorem seedLeaves_outLen : (seedLeaves n s).outLen = s.outLen := rfl
@[simp] theorem seedLeaves_errCode : (seedLeaves n s).errCode = s.errCode := rfl
@[simp] theorem seedLeaves_errInfo0 : (seedLeaves n s).errInfo0 = s.errInfo0 := rfl
@[simp] theorem seedLeaves_errInfo1 : (seedLeaves n s).errInfo1 = s.errInfo1 := rfl
@[simp] theorem seedLeaves_nodeCount : (seedLeaves n s).nodeCount = BitVec.ofNat 10 n := rfl
@[simp] theorem seedLeaves_pqSize : (seedLeaves n s).pqSize = s.pqSize := rfl
@[simp] theorem seedLeaves_root : (seedLeaves n s).root = nil := rfl
@[simp] theorem seedLeaves_lastOp : (seedLeaves n s).lastOp = s.lastOp := rfl
@[simp] theorem seedLeaves_mem : (seedLeaves n s).mem = { s.mem with node := Ram.fill s.mem.node 0 n s.leafOf } := rfl
@[simp] theorem seedLeaves_host : (seedLeaves n s).host = s.host := rfl
@[simp] theorem seedLeaves_resp : (seedLeaves n s).resp = s.resp := rfl
@[simp] theorem seedLeaves_epoch : (seedLeaves n s).epoch = s.epoch := rfl
@[simp] theorem seedLeaves_draws : (seedLeaves n s).draws = s.draws := rfl
end

end Sys2Proof.Machine
end

