-- ==== Sys2Proof/Laws/Heap.lean ====
section
/-! SUPPORT. What the heap operations do to a heap, said once (spec/40_priority_queue.md R141-R146): they
permute its live slots and leave the others alone, and they restore the order. The order is any
preorder `le` that the comparison decides, so one set of lemmas serves both values of TIE_BREAK. -/

namespace Sys2Proof.Machine

/-- The live slots of a heap, in slot order. -/
def heapSlots (e n : Nat) (h : Ram NodeIdx) : List NodeIdx :=
  (List.range n).map (heapIn e h)

theorem State.queue_eq (s : State) : s.queue = heapSlots s.epoch s.pqSize.toNat s.mem.heap := rfl

theorem heapIn_set (e : Nat) (h : Ram NodeIdx) (i j : Nat) (k : NodeIdx) :
    heapIn e (Ram.set h i k) j = if j = i then k else heapIn e h j := by
  simp [heapIn, Ram.getD_set]

theorem heapIn_fill (e : Nat) (h : Ram NodeIdx) (n j : Nat) (f : Nat → NodeIdx) :
    heapIn e (Ram.fill h 0 n f) j = if j < n then f j else heapIn e h j := by
  simp [heapIn, Ram.getD_fill]

theorem heapIn_heapSwap (e : Nat) (h : Ram NodeIdx) (a b j : Nat) :
    heapIn e (heapSwap e h a b) j =
      if j = b then heapIn e h a else if j = a then heapIn e h b else heapIn e h j := by
  simp [heapSwap, heapIn_set]

theorem map_range_swap_perm {β : Type} (f : Nat → β) {n a b : Nat} (ha : a < n) (hb : b < n) :
    ((List.range n).map (fun j => if j = b then f a else if j = a then f b else f j)).Perm ((List.range n).map f) := by
  have h1 : ((List.range n).map (Equiv.swap a b)).Perm (List.range n) := by
    refine (List.perm_ext_iff_of_nodup ?_ List.nodup_range).2 fun x => ?_
    · exact List.nodup_range.map (Equiv.swap a b).injective
    · simp only [List.mem_map, List.mem_range]
      constructor
      · rintro ⟨y, hy, rfl⟩
        rw [Equiv.swap_apply_def]; split_ifs <;> omega
      · intro hx
        refine ⟨Equiv.swap a b x, ?_, by simp⟩
        rw [Equiv.swap_apply_def]; split_ifs <;> omega
  have h2 := h1.map f
  rw [List.map_map] at h2
  refine (List.Perm.of_eq (List.map_congr_left fun x _ => ?_)).trans h2
  simp only [Function.comp, Equiv.swap_apply_def]
  by_cases hxa : x = a <;> by_cases hxb : x = b <;> simp_all

theorem heapSlots_heapSwap (e : Nat) (h : Ram NodeIdx) {n a b : Nat} (ha : a < n) (hb : b < n) :
    (heapSlots e n (heapSwap e h a b)).Perm (heapSlots e n h) := by
  have := map_range_swap_perm (heapIn e h) ha hb
  refine (List.Perm.of_eq (List.map_congr_left fun x _ => ?_)).trans this
  exact heapIn_heapSwap e h a b x

section
variable (before : NodeIdx → NodeIdx → Bool) (e n : Nat)

/-- The slot siftDown goes on with is j or a child of j inside the queue. -/
theorem sinkTarget_cases (h : Ram NodeIdx) (j : Nat) :
    sinkTarget before e n h j = j ∨
      (sinkTarget before e n h j < n ∧
        (sinkTarget before e n h j = 2 * j + 1 ∨ sinkTarget before e n h j = 2 * j + 2)) := by
  unfold sinkTarget
  simp only [Bool.and_eq_true, decide_eq_true_eq]
  split_ifs <;> simp_all

theorem siftDown_perm (rounds : Nat) (h : Ram NodeIdx) {j : Nat} (hj : j < n) :
    (heapSlots e n (siftDown before e n rounds h j)).Perm (heapSlots e n h) := by
  induction rounds generalizing h j with
  | zero => exact List.Perm.refl _
  | succ r ih =>
    simp only [siftDown]
    split
    · exact List.Perm.refl _
    · rename_i hm
      obtain h1 | ⟨h1, -⟩ := sinkTarget_cases before e n h j
      · exact absurd h1 hm
      · exact (ih _ h1).trans (heapSlots_heapSwap e h hj h1)

theorem siftDown_outside (rounds : Nat) (h : Ram NodeIdx) {j i : Nat} (hj : j < n) (hi : n ≤ i) :
    heapIn e (siftDown before e n rounds h j) i = heapIn e h i := by
  induction rounds generalizing h j with
  | zero => rfl
  | succ r ih =>
    simp only [siftDown]
    split
    · rfl
    · rename_i hm
      obtain h1 | ⟨h1, -⟩ := sinkTarget_cases before e n h j
      · exact absurd h1 hm
      · rw [ih _ h1, heapIn_heapSwap]
        have a1 : i ≠ j := by omega
        have a2 : i ≠ sinkTarget before e n h j := by omega
        simp [a1, a2]

theorem siftUp_perm (rounds : Nat) (h : Ram NodeIdx) {j : Nat} (hj : j < n) :
    (heapSlots e n (siftUp before e rounds h j)).Perm (heapSlots e n h) := by
  induction rounds generalizing h j with
  | zero => exact List.Perm.refl _
  | succ r ih =>
    simp only [siftUp]
    split
    · exact List.Perm.refl _
    · split
      · have hp : (j - 1) / 2 < n := by omega
        exact (ih _ hp).trans (heapSlots_heapSwap e h hj hp)
      · exact List.Perm.refl _

theorem siftUp_outside (rounds : Nat) (h : Ram NodeIdx) {j i : Nat} (hi : j < i) :
    heapIn e (siftUp before e rounds h j) i = heapIn e h i := by
  induction rounds generalizing h j with
  | zero => rfl
  | succ r ih =>
    simp only [siftUp]
    split
    · rfl
    · split
      · rw [ih _ (by omega), heapIn_heapSwap]
        have a1 : i ≠ j := by omega
        have a2 : i ≠ (j - 1) / 2 := by omega
        simp [a1, a2]
      · rfl

theorem foldl_siftDown_perm (js : List Nat) (h : Ram NodeIdx) (hj : ∀ j ∈ js, j < n) :
    (heapSlots e n (js.foldl (fun h j => siftDown before e n n h j) h)).Perm (heapSlots e n h) := by
  induction js generalizing h with
  | nil => exact List.Perm.refl _
  | cons j js ih =>
    simp only [List.foldl_cons]
    exact (ih _ fun i hi => hj i (by simp [hi])).trans (siftDown_perm before e n n h (hj j (by simp)))

theorem heapify_perm (h : Ram NodeIdx) : (heapSlots e n (heapify before e n h)).Perm (heapSlots e n h) := by
  refine foldl_siftDown_perm before e n _ h fun j hj => ?_
  simp only [List.mem_reverse, List.mem_range] at hj
  omega
end

/-! The order. -/

/-- `le` is a preorder that the comparison decides: what comes before is `le`, what does not is `ge`. -/
structure Decides (before : NodeIdx → NodeIdx → Bool) (le : NodeIdx → NodeIdx → Prop) : Prop where
  refl : ∀ a, le a a
  trans : ∀ {a b c}, le a b → le b c → le a c
  of_before : ∀ {a b}, before a b = true → le a b
  of_not : ∀ {a b}, before a b = false → le b a

/-- Every slot below n whose parent is at `lo` or above holds no less than its parent (R141). -/
def HeapFrom (le : NodeIdx → NodeIdx → Prop) (e n : Nat) (h : Ram NodeIdx) (lo : Nat) : Prop :=
  ∀ c, c < n → 1 ≤ c → lo ≤ (c - 1) / 2 → le (heapIn e h ((c - 1) / 2)) (heapIn e h c)

section
variable {before : NodeIdx → NodeIdx → Bool} {le : NodeIdx → NodeIdx → Prop} (D : Decides before le)
include D

/-- siftDown goes on with a least one of j and its children. -/
theorem sinkTarget_least (e n : Nat) (h : Ram NodeIdx) (j : Nat) :
    le (heapIn e h (sinkTarget before e n h j)) (heapIn e h j) ∧
      ∀ c, c < n → (c = 2 * j + 1 ∨ c = 2 * j + 2) →
        le (heapIn e h (sinkTarget before e n h j)) (heapIn e h c) := by
  have key : ∀ m, (m = if 2 * j + 1 < n && before (heapIn e h (2 * j + 1)) (heapIn e h j) then 2 * j + 1 else j) →
      le (heapIn e h m) (heapIn e h j) ∧ (2 * j + 1 < n → le (heapIn e h m) (heapIn e h (2 * j + 1))) := by
    intro m hm
    by_cases h1 : 2 * j + 1 < n
    · cases hb : before (heapIn e h (2 * j + 1)) (heapIn e h j)
      · have : m = j := by simpa [h1, hb] using hm
        subst this; exact ⟨D.refl _, fun _ => D.of_not hb⟩
      · have : m = 2 * j + 1 := by simpa [h1, hb] using hm
        subst this; exact ⟨D.of_before hb, fun _ => D.refl _⟩
    · have : m = j := by simpa [h1] using hm
      subst this; exact ⟨D.refl _, fun h => absurd h h1⟩
  obtain ⟨k1, k2⟩ := key _ rfl
  unfold sinkTarget
  dsimp only
  generalize (if 2 * j + 1 < n && before (heapIn e h (2 * j + 1)) (heapIn e h j) then 2 * j + 1 else j) = m at k1 k2 ⊢
  by_cases h2 : 2 * j + 2 < n
  · cases hb : before (heapIn e h (2 * j + 2)) (heapIn e h m)
    · simp only [h2, Bool.and_false, Bool.false_eq_true, if_false]
      refine ⟨k1, ?_⟩
      rintro c hc (rfl | rfl)
      · exact k2 hc
      · exact D.of_not hb
    · simp only [h2, Bool.and_true, decide_true, if_true]
      have := D.of_before hb
      refine ⟨D.trans this k1, ?_⟩
      rintro c hc (rfl | rfl)
      · exact D.trans this (k2 hc)
      · exact D.refl _
  · simp only [h2, decide_false, Bool.false_and, Bool.false_eq_true, if_false]
    refine ⟨k1, ?_⟩
    rintro c hc (rfl | rfl)
    · exact k2 hc
    · exact absurd hc h2

/-- siftDown at j mends a heap whose only broken edges leave j. -/
theorem siftDown_heap (e n rounds : Nat) (h : Ram NodeIdx) (lo j : Nat) (hj : j < n) (hlo : lo ≤ j)
    (hr : n ≤ rounds + j)
    (h1 : ∀ c, c < n → 1 ≤ c → lo ≤ (c - 1) / 2 → (c - 1) / 2 ≠ j → le (heapIn e h ((c - 1) / 2)) (heapIn e h c))
    (h2 : 1 ≤ j → lo ≤ (j - 1) / 2 → ∀ c, c < n → (c = 2 * j + 1 ∨ c = 2 * j + 2) →
      le (heapIn e h ((j - 1) / 2)) (heapIn e h c)) :
    HeapFrom le e n (siftDown before e n rounds h j) lo := by
  induction rounds generalizing h j with
  | zero => omega
  | succ r ih =>
    obtain ⟨l1, l2⟩ := sinkTarget_least D e n h j
    simp only [siftDown]
    split
    · rename_i hm
      rw [hm] at l2
      intro c hc hc1 hp
      by_cases hpj : (c - 1) / 2 = j
      · rw [hpj]; exact l2 c hc (by omega)
      · exact h1 c hc hc1 hp hpj
    · rename_i hm
      obtain k1 | ⟨k1, k2⟩ := sinkTarget_cases before e n h j
      · exact absurd k1 hm
      · generalize hmm : sinkTarget before e n h j = m at *
        refine ih (heapSwap e h j m) m k1 (by omega) (by omega) ?_ ?_
        · intro c hc hc1 hp hpm
          simp only [heapIn_heapSwap]
          by_cases hpj : (c - 1) / 2 = j
          · have : c = 2 * j + 1 ∨ c = 2 * j + 2 := by omega
            have hjm : j ≠ m := by omega
            have hcj : c ≠ j := by omega
            rw [hpj]
            by_cases hcm : c = m
            · simp only [hjm, hcm, if_true, if_false]; exact l1
            · simp only [hjm, hcm, hcj, if_true, if_false]; exact l2 c hc this
          · by_cases hcj : c = j
            · subst hcj
              have a1 : (c - 1) / 2 ≠ m := by omega
              have a2 : c ≠ m := by omega
              simp only [hpm, hpj, a2, if_true, if_false]
              exact h2 hc1 hp m k1 k2
            · have hcm : c ≠ m := by omega
              simp only [hpm, hpj, hcj, hcm, if_false]
              exact h1 c hc hc1 hp hpj
        · intro hm1 hpm c hc hcm
          have hmj : (m - 1) / 2 = j := by omega
          have a1 : j ≠ m := by omega
          have a2 : c ≠ m := by omega
          have a3 : c ≠ j := by omega
          simp only [heapIn_heapSwap, hmj, a1, a2, a3, if_true, if_false]
          have : (c - 1) / 2 = m := by omega
          have := h1 c hc (by omega) (by omega) (by omega)
          rwa [‹(c - 1) / 2 = m›] at this

/-- siftUp at j mends a heap whose only broken edge enters j. -/
theorem siftUp_heap (e n rounds : Nat) (h : Ram NodeIdx) (j : Nat) (hj : j < n) (hr : j ≤ rounds)
    (h1 : ∀ c, c < n → 1 ≤ c → c ≠ j → le (heapIn e h ((c - 1) / 2)) (heapIn e h c))
    (h2 : 1 ≤ j → ∀ c, c < n → (c = 2 * j + 1 ∨ c = 2 * j + 2) → le (heapIn e h ((j - 1) / 2)) (heapIn e h c)) :
    HeapFrom le e n (siftUp before e rounds h j) 0 := by
  induction rounds generalizing h j with
  | zero =>
    intro c hc hc1 _
    exact h1 c hc hc1 (by omega)
  | succ r ih =>
    simp only [siftUp]
    split
    · intro c hc hc1 _
      exact h1 c hc hc1 (by omega)
    · rename_i hj0
      split
      · rename_i hb
        have hle := D.of_before hb
        refine ih (heapSwap e h j ((j - 1) / 2)) ((j - 1) / 2) (by omega) (by omega) ?_ ?_
        · intro c hc hc1 hcp
          simp only [heapIn_heapSwap]
          by_cases hcj : c = j
          · subst hcj
            simp only [if_true, hcp, if_false]; exact hle
          · by_cases hpp : (c - 1) / 2 = (j - 1) / 2
            · simp only [hpp, if_true, hcp, hcj, if_false]
              exact D.trans hle (by have := h1 c hc hc1 hcj; rwa [hpp] at this)
            · by_cases hpj : (c - 1) / 2 = j
              · have a1 : j ≠ (j - 1) / 2 := by omega
                simp only [hpj, a1, hcp, hcj, if_true, if_false]
                exact h2 (by omega) c hc (by omega)
              · simp only [hpp, hpj, hcp, hcj, if_false]
                exact h1 c hc hc1 hcj
        · intro hp1 c hc hcp
          generalize hq : (j - 1) / 2 = p at *
          have hpe := h1 p (by omega) hp1 (by omega)
          have a1 : (p - 1) / 2 ≠ p := by omega
          have a2 : (p - 1) / 2 ≠ j := by omega
          have a3 : c ≠ p := by omega
          simp only [heapIn_heapSwap, a1, a2, a3, if_false]
          by_cases hcj : c = j
          · simp only [hcj, if_true]; exact hpe
          · simp only [hcj, if_false]
            have : (c - 1) / 2 = p := by omega
            have h3 := h1 c hc (by omega) hcj
            rw [this] at h3
            exact D.trans hpe h3
      · rename_i hb
        simp only [Bool.not_eq_true] at hb
        intro c hc hc1 _
        by_cases hcj : c = j
        · subst hcj; exact D.of_not hb
        · exact h1 c hc hc1 hcj

/-- pqBuild's loop makes a heap (R145). -/
theorem heapify_heap (e n : Nat) (h : Ram NodeIdx) : HeapFrom le e n (heapify before e n h) 0 := by
  have key : ∀ k, k ≤ n / 2 → ∀ h, HeapFrom le e n h k →
      HeapFrom le e n ((List.range k).reverse.foldl (fun h j => siftDown before e n n h j) h) 0 := by
    intro k
    induction k with
    | zero => intro _ h hh; simpa using hh
    | succ k ih =>
      intro hk h hh
      rw [List.range_succ, List.reverse_append]
      simp only [List.reverse_cons, List.reverse_nil, List.nil_append, List.cons_append, List.foldl_cons]
      refine ih (by omega) _ (siftDown_heap D e n n h k k (by omega) le_rfl (by omega) ?_ ?_)
      · intro c hc hc1 hp hpk
        exact hh c hc hc1 (by omega)
      · intro h1 h2; omega
  refine key (n / 2) le_rfl h fun c hc hc1 hp => ?_
  omega

/-- The first slot of a heap is least (R141). -/
theorem HeapFrom.first_least {e n : Nat} {h : Ram NodeIdx} (hh : HeapFrom le e n h 0) :
    ∀ j, j < n → le (heapIn e h 0) (heapIn e h j) := by
  intro j
  induction j using Nat.strong_induction_on with
  | _ j ih =>
    intro hj
    by_cases h0 : j = 0
    · subst h0; exact D.refl _
    · exact D.trans (ih ((j - 1) / 2) (by omega) (by omega)) (hh j hj (by omega) (by omega))
end

end Sys2Proof.Machine
end

