-- ==== Sys2Proof/Laws/Queue.lean ====
section
/-! SUPPORT. What each queue operation answers and does, said once (spec/40_priority_queue.md R143-R147):
which state it leaves, how the queue's contents change, and that it keeps the order of the heap. -/

namespace Sys2Proof.Machine

/-- The preorder that the comparison of keys decides: `<lex` or equal under `INDEX`, the weights alone
under `ANY` (R140). -/
def State.keyLe (s : State) (tb : Config.TieBreak) (a b : NodeIdx) : Prop :=
  match tb with
  | .index =>
    (s.nodeAt a.toNat).weight < (s.nodeAt b.toNat).weight ∨
      ((s.nodeAt a.toNat).weight = (s.nodeAt b.toNat).weight ∧ a ≤ b)
  | .any => (s.nodeAt a.toNat).weight ≤ (s.nodeAt b.toNat).weight

theorem before_decides (s : State) (tb : Config.TieBreak) : Decides (s.before tb) (s.keyLe tb) := by
  cases tb
  · refine ⟨fun a => .inr ⟨rfl, BitVec.le_refl a⟩, fun {a b c} => ?_, fun {a b} => ?_, fun {a b} => ?_⟩ <;>
      simp only [State.keyLe, State.before, keyBefore, Bool.or_eq_true, Bool.and_eq_true, decide_eq_true_eq,
        Bool.or_eq_false_iff, Bool.and_eq_false_iff, decide_eq_false_iff_not, BitVec.lt_def, BitVec.le_def,
        ← BitVec.toNat_inj] <;> omega
  · refine ⟨fun a => ?_, fun {a b c} => ?_, fun {a b} => ?_, fun {a b} => ?_⟩ <;>
      simp only [State.keyLe, State.before, keyBefore, Bool.or_eq_true, Bool.and_eq_true, decide_eq_true_eq,
        Bool.or_eq_false_iff, Bool.and_eq_false_iff, decide_eq_false_iff_not, BitVec.lt_def, BitVec.le_def,
        ← BitVec.toNat_inj] <;> omega

/-- Under `INDEX` a key that is not equal and `le` comes strictly before. -/
theorem before_of_keyLe {s : State} {a b : NodeIdx} (h : s.keyLe .index a b) (hab : a ≠ b) :
    s.before .index a b = true := by
  simp only [State.keyLe, State.before, keyBefore, Bool.or_eq_true, Bool.and_eq_true, decide_eq_true_eq,
    BitVec.lt_def, BitVec.le_def, ← BitVec.toNat_inj, ne_eq] at *
  omega

/-- The queue is a heap in a state's order (R141). -/
abbrev HeapOrdered (tb : Config.TieBreak) (s : State) : Prop :=
  HeapFrom (s.keyLe tb) s.epoch s.pqSize.toNat s.mem.heap 0

/-- Two states with the same nodes have the same order of keys. -/
theorem keyLe_congr {s t : State} (tb : Config.TieBreak) (hn : t.mem.node = s.mem.node) (he : t.epoch = s.epoch) :
    t.keyLe tb = s.keyLe tb := by
  funext a b
  simp [State.keyLe, State.nodeAt, hn, he]

theorem nodeAt_withQueue (s : State) (tb : Config.TieBreak) (h : Ram NodeIdx) (n : BitVec 9) :
    ((s.withQueue h n).tick tb).nodeAt = s.nodeAt := by
  funext k; simp [State.nodeAt]

/-- What pqExtractMin answers on a queue that is not empty: its first slot, in a state where only H and
PQ_SIZE differ; the queue's contents lose exactly that entry (R144, R146). -/
theorem pqExtractMin_ok (tb : Config.TieBreak) {s : State} (hs : s.pqSize ≠ 0#9) :
    ∃ h, pqExtractMin tb s = .ok (s.heapAt 0) ((s.withQueue h (s.pqSize - 1#9)).tick tb) ∧
      s.queue.Perm (s.heapAt 0 :: ((s.withQueue h (s.pqSize - 1#9)).tick tb).queue) ∧
      (HeapOrdered tb s → HeapOrdered tb ((s.withQueue h (s.pqSize - 1#9)).tick tb)) := by
  have hpos : 0 < s.pqSize.toNat := by
    rw [Nat.pos_iff_ne_zero]; intro h; exact hs (by apply BitVec.eq_of_toNat_eq; simpa using h)
  have hsub : (s.pqSize - 1#9).toNat = s.pqSize.toNat - 1 := by bv_omega
  simp only [pqExtractMin, hs, if_false]
  refine ⟨_, rfl, ?_, ?_⟩
  · simp only [State.queue_eq, State.tick_epoch, State.tick_pqSize, State.tick_mem, State.withQueue_epoch,
      State.withQueue_pqSize, State.withQueue_mem, hsub]
    generalize hn : s.pqSize.toNat - 1 = n
    have hn' : s.pqSize.toNat = n + 1 := by omega
    rw [hn']
    split
    · rename_i h0
      obtain ⟨m, rfl⟩ : ∃ m, n = m + 1 := ⟨n - 1, by omega⟩
      refine List.Perm.trans ?_ ((siftDown_perm (s.before tb) s.epoch (m + 1) (m + 1) _ h0).symm.cons _)
      simp only [heapSlots]
      rw [List.range_succ, List.range_succ_eq_map]
      simp only [List.map_append, List.map_cons, List.map_map, List.map_nil, List.cons_append]
      refine List.Perm.cons _ ?_
      refine (List.perm_append_comm).trans ?_
      simp only [List.cons_append, List.nil_append, State.heapAt]
      rw [heapIn_set, if_pos rfl]
      refine List.Perm.cons _ (List.Perm.of_eq (List.map_congr_left fun x _ => ?_))
      simp [heapIn_set]
    · have : n = 0 := by omega
      subst this
      simp [heapSlots, State.heapAt]
  · intro hh
    simp only [HeapOrdered, keyLe_congr (s := s) tb (t := (s.withQueue _ _).tick tb) (by simp) (by simp),
      State.tick_epoch, State.tick_pqSize, State.tick_mem, State.withQueue_epoch, State.withQueue_pqSize,
      State.withQueue_mem, hsub] at hh ⊢
    split
    · rename_i h0
      refine siftDown_heap (before_decides s tb) _ _ _ _ 0 0 h0 le_rfl (by omega) ?_ (by intro h; omega)
      intro c hc hc1 _ hp
      have a : c ≠ 0 := by omega
      simp only [heapIn_set, hp, a, if_false]
      exact hh c (by omega) hc1 (Nat.zero_le _)
    · intro c hc hc1; omega

/-- An empty queue raises E_EMPTY_QUEUE(0, 0) (R144). -/
theorem pqExtractMin_empty (tb : Config.TieBreak) {s : State} (hs : s.pqSize = 0#9) :
    pqExtractMin tb s = .raised .emptyQueue 0#32 0#32 s := by
  simp [pqExtractMin, hs]

/-- What pqInsert does to a queue with a free slot: only H and PQ_SIZE differ, the contents gain exactly
k (R143, R146). -/
theorem pqInsert_spec (tb : Config.TieBreak) (k : NodeIdx) {s : State} (hs : s.pqSize.toNat < 256) :
    ∃ h, pqInsert tb k s = (s.withQueue h (s.pqSize + 1#9)).tick tb ∧
      (pqInsert tb k s).queue.Perm (k :: s.queue) ∧
      (HeapOrdered tb s → HeapOrdered tb (pqInsert tb k s)) := by
  have hadd : (s.pqSize + 1#9).toNat = s.pqSize.toNat + 1 := by bv_omega
  refine ⟨_, rfl, ?_, ?_⟩
  · simp only [pqInsert, State.queue_eq, State.tick_epoch, State.tick_pqSize, State.tick_mem,
      State.withQueue_epoch, State.withQueue_pqSize, State.withQueue_mem, hadd]
    refine (siftUp_perm _ _ _ _ _ (Nat.lt_succ_self _)).trans ?_
    simp only [heapSlots]
    rw [List.range_succ, List.map_append]
    refine List.perm_append_comm.trans ?_
    simp only [List.map_cons, List.map_nil, List.cons_append, List.nil_append]
    rw [heapIn_set, if_pos rfl]
    refine List.Perm.cons _ (List.Perm.of_eq (List.map_congr_left fun x hx => ?_))
    simp only [List.mem_range] at hx
    have : x ≠ s.pqSize.toNat := by omega
    simp [heapIn_set, this]
  · intro hh
    simp only [pqInsert, HeapOrdered,
      keyLe_congr (s := s) tb (t := (s.withQueue _ _).tick tb) (by simp) (by simp),
      State.tick_epoch, State.tick_pqSize, State.tick_mem, State.withQueue_epoch, State.withQueue_pqSize,
      State.withQueue_mem, hadd] at hh ⊢
    refine siftUp_heap (before_decides s tb) _ _ _ _ _ (Nat.lt_succ_self _) le_rfl ?_ ?_
    · intro c hc hc1 hcj
      have a : (c - 1) / 2 ≠ s.pqSize.toNat := by omega
      simp only [heapIn_set, a, hcj, if_false]
      exact hh c (by omega) hc1 (Nat.zero_le _)
    · intro h1 c hc hcj; omega

/-- What pqBuild does: the queue's contents are exactly the nodes 0..n-1, in heap order (R145, R146). -/
theorem pqBuild_spec (tb : Config.TieBreak) {n : Nat} (hn : n ≤ 256) (s : State) :
    ∃ h, pqBuild tb n s = (s.withQueue h (BitVec.ofNat 9 n)).tick tb ∧
      (pqBuild tb n s).queue.Perm ((List.range n).map (BitVec.ofNat 9)) ∧
      HeapOrdered tb (pqBuild tb n s) := by
  have hmod : (BitVec.ofNat 9 n).toNat = n := by simp; omega
  refine ⟨_, rfl, ?_, ?_⟩
  · simp only [pqBuild, State.queue_eq, State.tick_epoch, State.tick_pqSize, State.tick_mem,
      State.withQueue_epoch, State.withQueue_pqSize, State.withQueue_mem, hmod]
    refine (heapify_perm _ _ _ _).trans (List.Perm.of_eq (List.map_congr_left fun x hx => ?_))
    simp only [List.mem_range] at hx
    simp [heapIn_fill, hx]
  · simp only [pqBuild, HeapOrdered,
      keyLe_congr (s := s) tb (t := (s.withQueue _ _).tick tb) (by simp) (by simp),
      State.tick_epoch, State.tick_pqSize, State.tick_mem, State.withQueue_epoch, State.withQueue_pqSize,
      State.withQueue_mem, hmod]
    exact heapify_heap (before_decides s tb) _ _ _

end Sys2Proof.Machine
end

