-- ==== Sys2Proof/Laws/Memory.lean ====
section
/-! SUPPORT. The canonical form of the memory (log 18): the reset memory has it, and every operation that
writes a RAM inside its array keeps it. -/

namespace Sys2Proof.Machine

theorem memory_wf_iff (m : Memory) :
    m.wf = true ↔
      Ram.wf Config.nMax m.alphaSym = true ∧ Ram.wf Config.nMax m.alphaFreq = true ∧
      Ram.wf Config.nodeMax m.node = true ∧ Ram.wf Config.nMax m.heap = true ∧
      Ram.wf Config.nMax m.code = true ∧ Ram.wf Config.textMax m.text = true ∧
      Ram.wf Config.bitMax m.bit = true ∧ Ram.wf Config.outMax m.out = true := by
  simp [Memory.wf, and_assoc]

theorem reset_memory_wf : State.reset.mem.wf = true := by decide

/-! ## The queue -/

theorem heapSwap_wf {e a b : Nat} {h : Ram NodeIdx} (hw : Ram.wf Config.nMax h = true) (ha : a < 256) (hb : b < 256) :
    Ram.wf Config.nMax (heapSwap e h a b) = true :=
  Ram.wf_set _ (Ram.wf_set _ hw ha) hb

theorem siftDown_wf (before : NodeIdx → NodeIdx → Bool) {e n rounds : Nat} {h : Ram NodeIdx} {j : Nat}
    (hw : Ram.wf Config.nMax h = true) (hj : j < n) (hn : n ≤ 256) :
    Ram.wf Config.nMax (siftDown before e n rounds h j) = true := by
  induction rounds generalizing h j with
  | zero => exact hw
  | succ r ih =>
    simp only [siftDown]
    split
    · exact hw
    · rename_i hm
      obtain h1 | ⟨h1, -⟩ := sinkTarget_cases before e n h j
      · exact absurd h1 hm
      · exact ih (heapSwap_wf hw (by omega) (by omega)) h1

theorem siftUp_wf (before : NodeIdx → NodeIdx → Bool) {e rounds : Nat} {h : Ram NodeIdx} {j : Nat}
    (hw : Ram.wf Config.nMax h = true) (hj : j < 256) :
    Ram.wf Config.nMax (siftUp before e rounds h j) = true := by
  induction rounds generalizing h j with
  | zero => exact hw
  | succ r ih =>
    simp only [siftUp]
    split
    · exact hw
    · split
      · exact ih (heapSwap_wf hw hj (by omega)) (by omega)
      · exact hw

theorem heapify_wf (before : NodeIdx → NodeIdx → Bool) {e n : Nat} {h : Ram NodeIdx}
    (hw : Ram.wf Config.nMax h = true) (hn : n ≤ 256) : Ram.wf Config.nMax (heapify before e n h) = true := by
  have key : ∀ (js : List Nat) (h : Ram NodeIdx), Ram.wf Config.nMax h = true → (∀ j ∈ js, j < n) →
      Ram.wf Config.nMax (js.foldl (fun h j => siftDown before e n n h j) h) = true := by
    intro js
    induction js with
    | nil => intro h hw _; exact hw
    | cons j js ih =>
      intro h hw hj
      exact ih _ (siftDown_wf before hw (hj j (by simp)) hn) fun i hi => hj i (by simp [hi])
  refine key _ h hw fun j hj => ?_
  simp only [List.mem_reverse, List.mem_range] at hj
  omega

theorem pqInsert_wf (tb : Config.TieBreak) (k : NodeIdx) {s : State} (hw : s.mem.wf = true)
    (hs : s.pqSize.toNat < 256) : (pqInsert tb k s).mem.wf = true := by
  rw [memory_wf_iff] at hw ⊢
  simp only [pqInsert, State.tick_mem, State.withQueue_mem]
  obtain ⟨h1, h2, h3, h4, h5⟩ := hw
  exact ⟨h1, h2, h3, siftUp_wf _ (Ram.wf_set _ h4 hs) hs, h5⟩

theorem pqExtractMin_wf (tb : Config.TieBreak) {s t : State} {k : NodeIdx} (hw : s.mem.wf = true)
    (hs : s.pqSize.toNat ≤ 256) (h : pqExtractMin tb s = .ok k t) : t.mem.wf = true := by
  unfold pqExtractMin at h
  split at h
  · cases h
  · cases h
    rw [memory_wf_iff] at hw ⊢
    simp only [State.tick_mem, State.withQueue_mem]
    obtain ⟨h1, h2, h3, h4, h5⟩ := hw
    refine ⟨h1, h2, h3, ?_, h5⟩
    split
    · rename_i h0
      exact siftDown_wf _ (Ram.wf_set _ h4 (by decide)) h0 (by omega)
    · exact h4

theorem pqBuild_wf (tb : Config.TieBreak) {n : Nat} {s : State} (hw : s.mem.wf = true) (hn : n ≤ 256) :
    (pqBuild tb n s).mem.wf = true := by
  rw [memory_wf_iff] at hw ⊢
  simp only [pqBuild, State.tick_mem, State.withQueue_mem]
  obtain ⟨h1, h2, h3, h4, h5⟩ := hw
  refine ⟨h1, h2, h3, heapify_wf _ (Ram.wf_fill 0 n _ h4 ?_) hn, h5⟩
  simpa [Config.nMax] using hn

/-! ## The node store -/

theorem seedLeaves_wf {n : Nat} {s : State} (hw : s.mem.wf = true) (hn : n ≤ 256) :
    (seedLeaves n s).mem.wf = true := by
  rw [memory_wf_iff] at hw ⊢
  simp only [seedLeaves_mem]
  obtain ⟨h1, h2, h3, h4⟩ := hw
  refine ⟨h1, h2, Ram.wf_fill 0 n _ h3 ?_, h4⟩
  simp only [Config.nodeMax]; omega

theorem appendNode_wf (nd : Node) {s : State} (hw : s.mem.wf = true) (hn : s.nodeCount.toNat < 511) :
    (s.appendNode nd).mem.wf = true := by
  rw [memory_wf_iff] at hw ⊢
  simp only [State.appendNode_mem]
  obtain ⟨h1, h2, h3, h4⟩ := hw
  exact ⟨h1, h2, Ram.wf_set _ h3 hn, h4⟩

/-! ## The code table -/

theorem clearedTable_wf : Ram.wf Config.nMax clearedTable = true := by decide +kernel

theorem sym_lt (c : Sym) : c.toNat < Config.nMax := c.isLt

theorem traverse_wf {nodes : Nat → Node} {pops : Nat} {stack : List Visit} {code out : Ram CodeEntry}
    (hw : Ram.wf Config.nMax code = true) (h : traverse nodes pops stack code = some out) :
    Ram.wf Config.nMax out = true := by
  induction pops generalizing stack code with
  | zero =>
    cases stack with
    | nil => cases h; exact hw
    | cons v stack => cases h
  | succ p ih =>
    cases stack with
    | nil => cases h; exact hw
    | cons v stack =>
      simp only [traverse] at h
      split at h
      · exact ih (Ram.wf_set _ hw (sym_lt _)) h
      · exact ih hw h

theorem genTable_wf {s : State} {code : Ram CodeEntry} (h : genTable s = some code) :
    Ram.wf Config.nMax code = true := by
  unfold genTable at h
  dsimp only at h
  split at h
  · cases h; exact Ram.wf_set _ clearedTable_wf (sym_lt _)
  · exact traverse_wf clearedTable_wf h

/-! ## The bit RAM and the output RAM -/

theorem writeCodeword_wf {bit : Ram Bool} {q : Nat} {c : CodeEntry} (hw : Ram.wf Config.bitMax bit = true)
    (hq : q + c.len.toNat ≤ Config.bitMax) : Ram.wf Config.bitMax (writeCodeword bit q c) = true :=
  Ram.wf_fill _ _ _ hw hq

/-- One step of the decoder emits one symbol or none (44_decoder.md R232, R237). -/
theorem decStep_out (s : State) (b : Bool) (i : Nat) (c : Walk) :
    (∃ sym, (decStep s b i c).out = Ram.set c.out c.emitted sym ∧ (decStep s b i c).emitted = c.emitted + 1) ∨
      ((decStep s b i c).out = c.out ∧ (decStep s b i c).emitted = c.emitted) := by
  unfold decStep
  dsimp only
  split
  · exact .inl ⟨_, rfl, rfl⟩
  · split
    · split
      · exact .inl ⟨_, rfl, rfl⟩
      · exact .inr ⟨rfl, rfl⟩
    · split
      · exact .inl ⟨_, rfl, rfl⟩
      · exact .inr ⟨rfl, rfl⟩

theorem walk_out_wf {s : State} {left i : Nat} {c : Walk} (hw : Ram.wf Config.outMax c.out = true)
    (hn : c.emitted + left ≤ Config.outMax) : Ram.wf Config.outMax (walkFrom s left i c).out = true := by
  induction left generalizing i c with
  | zero => exact hw
  | succ n ih =>
    simp only [walkFrom]
    obtain ⟨sym, h1, h2⟩ | ⟨h1, h2⟩ := decStep_out s (s.bitAt i) i c
    · exact ih (by rw [h1]; exact Ram.wf_set _ hw (by omega)) (by omega)
    · exact ih (by rw [h1]; exact hw) (by omega)

/-! ## The port -/

/-- The map names only elements that the arrays have (20_memory.md R86-R93). -/
theorem placeAt_inRange {off : Nat} {pl : Place} (h : placeAt off = some pl) : pl.inRange = true := by
  unfold placeAt at h
  split at h
  · obtain rfl := Option.some.inj h
    unfold registerAt; split <;> rfl
  split at h
  · obtain rfl := Option.some.inj h
    split <;> simp only [Place.inRange, decide_eq_true_eq] <;> omega
  iterate 6
    split at h
    · obtain rfl := Option.some.inj h
      simp only [Place.inRange, decide_eq_true_eq]; omega
  cases h

/-- A write of a place of the map keeps the canonical form. -/
theorem writePlace_wf {s : State} {pl : Place} (v : Word) (hw : s.mem.wf = true) (hp : pl.inRange = true) :
    (s.writePlace pl v).mem.wf = true := by
  cases pl with
  | reg r => cases r <;> exact hw
  | reserved => exact hw
  | node k w => exact hw
  | pq j => exact hw
  | code c w => exact hw
  | out k => exact hw
  | alphaSym i =>
    simp only [Place.inRange, decide_eq_true_eq] at hp
    simp only [State.writePlace, State.withMem_mem, memory_wf_iff] at hw ⊢
    exact ⟨Ram.wf_set _ hw.1 hp, hw.2⟩
  | alphaFreq i =>
    simp only [Place.inRange, decide_eq_true_eq] at hp
    simp only [State.writePlace, State.withMem_mem, memory_wf_iff] at hw ⊢
    exact ⟨hw.1, Ram.wf_set _ hw.2.1 hp, hw.2.2⟩
  | text p =>
    simp only [Place.inRange, decide_eq_true_eq] at hp
    simp only [State.writePlace, State.withMem_mem, memory_wf_iff] at hw ⊢
    obtain ⟨h1, h2, h3, h4, h5, h6, h7⟩ := hw
    exact ⟨h1, h2, h3, h4, h5, Ram.wf_set _ h6 hp, h7⟩
  | bitWord w =>
    simp only [Place.inRange, decide_eq_true_eq] at hp
    simp only [State.writePlace, State.withMem_mem, memory_wf_iff] at hw ⊢
    obtain ⟨h1, h2, h3, h4, h5, h6, h7, h8⟩ := hw
    refine ⟨h1, h2, h3, h4, h5, h6, Ram.wf_fill _ _ _ h7 ?_, h8⟩
    simp only [Config.bitMax]; omega

end Sys2Proof.Machine
end

