-- ==== Sys2Proof/Laws/Builder.lean ====
section
/-! SUPPORT. What the parts of tree construction answer and do (spec/41_tree_builder.md R160-R166): when
SEED's checks pass, what one merge step and the taking of the root leave. -/

namespace Sys2Proof.Machine

theorem firstDuplicate_none_iff (s : State) (i : Nat) :
    s.firstDuplicate i = none ↔ ∀ j < i, s.alphaSymAt j ≠ s.alphaSymAt i := by
  simp [State.firstDuplicate]

theorem entryError_none_iff (s : State) (i : Nat) :
    entryError s i = none ↔ s.alphaFreqAt i ≠ 0#32 ∧ ∀ j < i, s.alphaSymAt j ≠ s.alphaSymAt i := by
  rw [← firstDuplicate_none_iff]
  unfold entryError
  split
  · simp [*]
  · split <;> simp [*]

/-- SEED's checks pass exactly when no error condition of R160 holds. -/
theorem seedError_none_iff (s : State) : seedError s = none ↔ AlphabetOk s := by
  have h0 : s.alphaN = 0#32 ↔ s.alphaN.toNat = 0 := by simp [← BitVec.toNat_inj]
  unfold seedError
  split
  · rename_i h
    rw [h0] at h
    simp [AlphabetOk, h]
  · rename_i h
    rw [h0] at h
    split
    · rename_i h1
      simp only [Config.nMax] at h1
      simp only [AlphabetOk, reduceCtorEq, false_iff]
      omega
    · rename_i h1
      simp only [Config.nMax] at h1
      rw [List.findSome?_eq_none_iff]
      simp only [List.mem_range, entryError_none_iff, AlphabetOk]
      constructor
      · intro hh
        exact ⟨by omega, by omega, fun i hi => (hh i hi).1, fun i hi => (hh i hi).2⟩
      · rintro ⟨-, -, h2, h3⟩ i hi
        exact ⟨h2 i hi, h3 i hi⟩

theorem seedBody_ok (tb : Config.TieBreak) {s : State} (h : AlphabetOk s) :
    seedBody tb s = .ok () (pqBuild tb s.alphaN.toNat (seedLeaves s.alphaN.toNat s)) := by
  rw [← seedError_none_iff] at h
  simp [seedBody, h]

/-- The leaves that SEED writes, and the nodes it leaves alone (R160, R161). -/
theorem nodeAt_seedLeaves (n : Nat) (s : State) (k : Nat) :
    (seedLeaves n s).nodeAt k = if k < n then s.leafOf k else s.nodeAt k := by
  simp [State.nodeAt, nodeIn, Ram.getD_fill]

/-- What reading a node gives after one is appended (R163). -/
theorem nodeAt_appendNode (s : State) (nd : Node) (k : Nat) :
    (s.appendNode nd).nodeAt k = if k = s.nodeCount.toNat then nd else s.nodeAt k := by
  simp [State.nodeAt, nodeIn, Ram.getD_set]

/-- What a merge step does to a queue of at least two entries: the first two entries l and r that the
queue yields leave it, the node NODE_COUNT is made of them, and it enters the queue (R163). The order of
the queue comes from pqExtractMin_ok and pqInsert_spec. -/
theorem mergeStep_ok (tb : Config.TieBreak) {s : State} (h2 : 2 ≤ s.pqSize.toNat) (h256 : s.pqSize.toNat ≤ 256) :
    ∃ (r : NodeIdx) (rest : List NodeIdx) (t : State),
      mergeStep tb s = .ok () t ∧
      (∃ h, t = { s with
        mem := { s.mem with
          node := Ram.set s.mem.node s.nodeCount.toNat (s.mergedNode (s.heapAt 0) r)
          heap := h }
        nodeCount := s.nodeCount + 1#10
        pqSize := s.pqSize - 1#9
        draws := if tb = .any then s.draws + 3 else s.draws }) ∧
      s.queue.Perm (s.heapAt 0 :: r :: rest) ∧
      t.queue.Perm (s.nodeCount.setWidth 9 :: rest) := by
  have hne : s.pqSize ≠ 0#9 := by intro h; rw [h] at h2; simp at h2
  obtain ⟨hp1, e1, q1, -⟩ := pqExtractMin_ok tb hne
  generalize hs1 : (s.withQueue hp1 (s.pqSize - 1#9)).tick tb = s1 at e1 q1
  have hsz1 : s1.pqSize = s.pqSize - 1#9 := by subst hs1; simp
  have hne1 : s1.pqSize ≠ 0#9 := by rw [hsz1]; intro h; have := congrArg BitVec.toNat h; simp at this; bv_omega
  obtain ⟨hp2, e2, q2, -⟩ := pqExtractMin_ok tb hne1
  generalize hs2 : (s1.withQueue hp2 (s1.pqSize - 1#9)).tick tb = s2 at e2 q2
  have hsz2 : s2.pqSize = s.pqSize - 1#9 - 1#9 := by subst hs2; simp [hsz1]
  generalize hs3 : s2.appendNode (s2.mergedNode (s.heapAt 0) (s1.heapAt 0)) = s3
  have hlt : s3.pqSize.toNat < 256 := by subst hs3; simp only [State.appendNode_pqSize, hsz2]; bv_omega
  obtain ⟨hp3, e3, q3, -⟩ := pqInsert_spec tb (s2.nodeCount.setWidth 9) hlt
  have hq3 : s3.queue = s2.queue := by subst hs3; rfl
  have hnc : s2.nodeCount = s.nodeCount := by subst hs2; subst hs1; simp
  refine ⟨s1.heapAt 0, s2.queue, pqInsert tb (s2.nodeCount.setWidth 9) s3, ?_, ?_, ?_, ?_⟩
  · simp only [mergeStep, e1, e2, Cmd.bind, hs3]
  · rw [e3]
    refine ⟨hp3, ?_⟩
    have hn : s2.nodeAt = s.nodeAt := by
      subst hs2; subst hs1; rw [nodeAt_withQueue, nodeAt_withQueue]
    have hm : s2.mergedNode (s.heapAt 0) (s1.heapAt 0) = s.mergedNode (s.heapAt 0) (s1.heapAt 0) := by
      simp [State.mergedNode, hn]
    have hsz : s.pqSize - 1#9 - 1#9 + 1#9 = s.pqSize - 1#9 := by bv_omega
    have hp : s3.pqSize + 1#9 = s.pqSize - 1#9 := by
      subst hs3; simp only [State.appendNode_pqSize, hsz2, hsz]
    rw [hp]
    rw [hm] at hs3
    subst hs3
    subst hs2
    subst hs1
    cases tb <;> simp_all [State.tick, State.withQueue, State.appendNode]
  · exact q1.trans (q2.cons _)
  · rw [hnc] at q3 ⊢
    rw [hq3] at q3
    exact q3

/-- Taking the root of a queue that is not empty (R165, R166). -/
theorem takeRoot_ok (tb : Config.TieBreak) {s : State} (hs : s.pqSize ≠ 0#9) :
    ∃ h, takeRoot tb s = .ok () { s with
      mem := { s.mem with heap := h }
      pqSize := s.pqSize - 1#9
      draws := if tb = .any then s.draws + 1 else s.draws
      root := s.heapAt 0
      treeValid := true } := by
  obtain ⟨h, e, -, -⟩ := pqExtractMin_ok tb hs
  refine ⟨h, ?_⟩
  simp only [takeRoot, e, Cmd.bind]
  cases tb <;> simp [State.tick, State.withQueue]

/-- What BUILD_TREE's loop does to a queue of 1 to 256 entries: one entry is left, each merge made one
node, and only nodes, queue and their counts differ (R166, R167). -/
theorem mergeAll_ok (tb : Config.TieBreak) (rounds : Nat) {s : State} (h1 : 1 ≤ s.pqSize.toNat)
    (h256 : s.pqSize.toNat ≤ 256) (hr : s.pqSize.toNat ≤ rounds + 1) :
    ∃ t, mergeAll tb rounds s = .ok () t ∧ t.pqSize = 1#9 ∧
      t.nodeCount = s.nodeCount + BitVec.ofNat 10 (s.pqSize.toNat - 1) ∧
      ∃ nodes h d, t = { s with
        mem := { s.mem with node := nodes, heap := h }
        nodeCount := t.nodeCount, pqSize := 1#9, draws := d } := by
  induction rounds generalizing s with
  | zero =>
    have hp : s.pqSize = 1#9 := by bv_omega
    refine ⟨s, rfl, hp, by simp [hp], s.mem.node, s.mem.heap, s.draws, ?_⟩
    rw [← hp]
  | succ n ih =>
    by_cases h2 : 2 ≤ s.pqSize.toNat
    · obtain ⟨r, rest, t1, e1, ⟨h, rfl⟩, -, -⟩ := mergeStep_ok tb h2 h256
      have hsub : (s.pqSize - 1#9).toNat = s.pqSize.toNat - 1 := by bv_omega
      simp only [mergeAll, ge_iff_le, h2, if_true, e1, Cmd.bind]
      obtain ⟨t, e, p, c, nodes, h', d, ht⟩ := @ih { s with
          mem := { s.mem with
            node := Ram.set s.mem.node s.nodeCount.toNat (s.mergedNode (s.heapAt 0) r)
            heap := h }
          nodeCount := s.nodeCount + 1#10
          pqSize := s.pqSize - 1#9
          draws := if tb = .any then s.draws + 3 else s.draws }
        (by simp only [hsub]; omega) (by simp only [hsub]; omega) (by simp only [hsub]; omega)
      refine ⟨t, e, p, ?_, nodes, h', d, ht⟩
      rw [c]
      simp only [hsub]
      bv_omega
    · have hp : s.pqSize = 1#9 := by bv_omega
      simp only [mergeAll, ge_iff_le, h2, if_false]
      refine ⟨s, rfl, hp, by simp [hp], s.mem.node, s.mem.heap, s.draws, ?_⟩
      rw [← hp]

end Sys2Proof.Machine
end

