-- ==== Sys2Proof/Laws/Commands.lean ====
section
/-! SUPPORT. What a command, a port access, a reset and a step can do, said once: if it answers a next state,
then one of the cases named here holds. Proofs about every step start from `step_cases`. -/

namespace Sys2Proof.Machine

@[simp] theorem Cmd.bind_ok {α β : Type} (a : α) (s : State) (f : α → State → Cmd β) :
    (Cmd.ok a s).bind f = f a s := rfl

@[simp] theorem Cmd.bind_raised {α β : Type} (e : ErrCode) (i0 i1 : Word) (s : State) (f : α → State → Cmd β) :
    (Cmd.raised e i0 i1 s : Cmd α).bind f = .raised e i0 i1 s := rfl

@[simp] theorem Cmd.complete_ok (s : State) : (Cmd.ok () s).complete = s.succeed := rfl

@[simp] theorem Cmd.complete_raised (e : ErrCode) (i0 i1 : Word) (s : State) :
    (Cmd.raised e i0 i1 s : Cmd Unit).complete = s.raise e i0 i1 := rfl

/-! ## The commands -/

/-- SEED: an error of its checks, or the leaves and their queue (41_tree_builder.md R160). -/
theorem execSeed_cases {s t : State} (h : exec .seed s = .next t) :
    (∃ e i0 i1, seedError s = some (e, i0, i1) ∧ t = s.raise e i0 i1) ∨
      (AlphabetOk s ∧ t = (pqBuild .index s.alphaN.toNat (seedLeaves s.alphaN.toNat s)).succeed) := by
  simp only [exec, execSeed, seedBody, Host.Outcome.next.injEq] at h
  cases hs : seedError s with
  | none =>
    rw [hs] at h
    exact .inr ⟨(seedError_none_iff s).1 hs, h.symm⟩
  | some x =>
    obtain ⟨e, i0, i1⟩ := x
    rw [hs] at h
    exact .inl ⟨e, i0, i1, rfl, h.symm⟩

/-- MERGE: an error, or one merge step (R164). -/
theorem execMerge_cases {s t : State} (h : exec .merge s = .next t) :
    (s.pqSize.toNat < 2 ∧ t = s.raise .emptyQueue (s.pqSize.setWidth 32) 0#32) ∨
      (2 ≤ s.pqSize.toNat ∧ t = (mergeStep .index s).complete) := by
  simp only [exec, execMerge, mergeBody, Host.Outcome.next.injEq] at h
  by_cases hs : s.pqSize.toNat < 2
  · rw [if_pos hs] at h
    exact .inl ⟨hs, h.symm⟩
  · rw [if_neg hs] at h
    exact .inr ⟨by omega, h.symm⟩

/-- FINISH: one of its two errors, or the root taken (R165). -/
theorem execFinish_cases {s t : State} (h : exec .finish s = .next t) :
    (s.pqSize = 0#9 ∧ t = s.raise .emptyQueue 0#32 0#32) ∨
      (2 ≤ s.pqSize.toNat ∧ t = s.raise .mergePending (s.pqSize.setWidth 32) 0#32) ∨
      (s.pqSize = 1#9 ∧ t = (takeRoot .index s).complete) := by
  simp only [exec, execFinish, finishBody, Host.Outcome.next.injEq] at h
  by_cases h0 : s.pqSize = 0#9
  · rw [if_pos h0] at h
    exact .inl ⟨h0, h.symm⟩
  · rw [if_neg h0] at h
    by_cases h2 : s.pqSize.toNat ≥ 2
    · rw [if_pos h2] at h
      exact .inr (.inl ⟨h2, h.symm⟩)
    · rw [if_neg h2] at h
      refine .inr (.inr ⟨?_, h.symm⟩)
      bv_omega

/-- GEN_CODES: no tree, or the table of the tree under ROOT (42_code_table.md R190). -/
theorem execGenCodes_cases {s t : State} (h : exec .genCodes s = .next t) :
    (s.treeValid = false ∧ t = s.raise .noTree 0#32 0#32) ∨
      (s.treeValid = true ∧ ∃ code, genTable s = some code ∧ t = (s.withTable code).succeed) := by
  simp only [exec, execGenCodes] at h
  split at h
  · rename_i hv
    exact .inl ⟨hv, by simpa using h.symm⟩
  · rename_i hv
    split at h
    · rename_i code hc
      exact .inr ⟨by simpa using hv, code, hc, by simpa using h.symm⟩
    · cases h

/-- However ENCODE's loop ends, it has only written BIT and BIT_LEN (43_encoder.md R211, R217). -/
theorem encodeFrom_cases (s : State) (left p q : Nat) (bit : Ram Bool) :
    (∃ bit' n, encodeFrom s left p q bit = .ok () (s.withStream bit' n)) ∨
      (∃ e i0 i1 bit', encodeFrom s left p q bit = .raised e i0 i1 (s.withStream bit' 0#32) ∧
        (e = .unknownSymbol ∨ e = .outputOverflow)) := by
  induction left generalizing p q bit with
  | zero => exact .inl ⟨_, _, rfl⟩
  | succ n ih =>
    simp only [encodeFrom]
    split
    · exact .inr ⟨_, _, _, _, rfl, .inl rfl⟩
    · split
      · exact .inr ⟨_, _, _, _, rfl, .inr rfl⟩
      · exact ih _ _ _

/-- ENCODE writes only BIT and BIT_LEN besides the completion state. -/
theorem execEncode_cases {s t : State} (h : exec .encode s = .next t) :
    (∃ bit n, t = (s.withStream bit n).succeed) ∨
      (∃ e i0 i1 bit, t = (s.withStream bit 0#32).raise e i0 i1) := by
  simp only [exec, execEncode, encodeBody, Host.Outcome.next.injEq] at h
  split at h
  · exact .inr ⟨_, _, _, _, h.symm⟩
  · split at h
    · exact .inr ⟨_, _, _, _, h.symm⟩
    · obtain ⟨bit, n, e⟩ | ⟨e, i0, i1, bit, e', -⟩ := encodeFrom_cases s s.textLen.toNat 0 0 s.mem.bit
      · rw [e] at h; exact .inl ⟨bit, n, h.symm⟩
      · rw [e'] at h; exact .inr ⟨e, i0, i1, bit, h.symm⟩

/-- DECODE writes only OUT and OUT_LEN besides the completion state (44_decoder.md R235). -/
theorem execDecode_cases {s t : State} (h : exec .decode s = .next t) :
    (∃ out n, t = (s.withOutput out n).succeed) ∨
      (∃ e i0 i1 out, t = (s.withOutput out 0#32).raise e i0 i1) := by
  simp only [exec, execDecode, decodeBody, Host.Outcome.next.injEq] at h
  split at h
  · exact .inr ⟨_, _, _, _, h.symm⟩
  · split at h
    · exact .inr ⟨_, _, _, _, h.symm⟩
    · split at h
      · exact .inr ⟨_, _, _, _, h.symm⟩
      · exact .inl ⟨_, _, h.symm⟩

/-- What reading BIT gives after a codeword is written (43_encoder.md R210). -/
theorem bitIn_writeCodeword (e : Nat) (bit : Ram Bool) (q : Nat) (c : CodeEntry) (j : Nat) :
    bitIn e (writeCodeword bit q c) j =
      if q ≤ j ∧ j < q + c.len.toNat then c.bits.getLsbD (j - q) else bitIn e bit j := by
  simp [bitIn, writeCodeword, Ram.getD_fill]

/-- What reading CODE gives after the table is cleared (42_code_table.md R190). -/
theorem codeIn_clearedTable (e : Nat) (c : Sym) : codeIn e clearedTable c.toNat = noCode := by
  have key : ∀ n, ∀ k < n, Ram.get? ((List.range n).map (fun c => (c, noCode))) k = some noCode := by
    have mem : ∀ (l : List Nat) (k : Nat), k ∈ l → Ram.get? (l.map (fun c => (c, noCode))) k = some noCode := by
      intro l k
      induction l with
      | nil => intro h; cases h
      | cons a l ih =>
        intro h
        by_cases ha : k = a
        · simp [Ram.get?, ha]
        · simp only [List.map_cons, Ram.get?, ha, if_false]
          exact ih (by simpa [ha] using h)
    intro n k hk
    exact mem _ _ (List.mem_range.2 hk)
  simp [codeIn, Ram.getD, clearedTable, key 256 c.toNat c.isLt]

/-! ## The port, reset and the step -/

/-- A field with zeros above it has the field's number: how a narrow register reads (10_state.md section 2). -/
theorem toNat_zero_append {n m : Nat} (x : BitVec n) : (0#m ++ x).toNat = x.toNat := by
  simp [BitVec.toNat_append]

/-- A write of a place does not touch the pending events. -/
theorem writePlace_withHost (s : State) (pl : Place) (v : Word) (h : List HostEvent) :
    { s with host := h }.writePlace pl v = { s.writePlace pl v with host := h } := by
  cases pl with
  | reg r => cases r <;> rfl
  | reserved => rfl
  | alphaSym i => rfl
  | alphaFreq i => rfl
  | node k w => rfl
  | pq j => rfl
  | code c w => rfl
  | text p => rfl
  | bitWord w => rfl
  | out k => rfl

/-- While SEQ = IDLE a write of the port is the write of its place (20_memory.md R96, R98). -/
theorem portWrite_idle {s : State} (h : s.seq = .idle) (pl : Place) (v : Word) :
    s.portWrite pl v = (.wrote, s.writePlace pl v) := by
  simp [State.portWrite, State.busy, h]

/-- While SEQ = IDLE a read of the port answers its place (R96). -/
theorem portRead_idle {s : State} (h : s.seq = .idle) (pl : Place) :
    s.portRead pl = (.data (s.readPlace pl), s) := by
  simp [State.portRead, State.busy, h]

/-- What a host access that is answered OK can do: a read, exact or drawn; a write, dropped or made
(20_memory.md R94-R96). -/
theorem access_cases {s t : State} {a : Access} {r : PortResp} (h : s.access a = (r, t)) (hr : ∀ e, r ≠ .error e) :
    ∃ pl, resolve a = .ok pl ∧ pl.inRange = true ∧
      ((∃ off size, a = .read off size ∧
          ((r = .data (s.readPlace pl) ∧ t = s) ∨
            (s.busy = true ∧ r = .data (Config.busyRead s.draws) ∧ t = { s with draws := s.draws + 1 }))) ∨
        (∃ off size v, a = .write off size v ∧ r = .wrote ∧
          ((s.busy = true ∧ t = { s with overrun := true }) ∨
            ((s.busy = true → pl = .reg .ctrl ∨ pl = .reg .status) ∧ t = s.writePlace pl v)))) := by
  unfold State.access at h
  split at h
  · cases h; exact absurd rfl (hr _)
  · rename_i pl hres
    refine ⟨pl, hres, ?_, ?_⟩
    · unfold resolve at hres
      split at hres
      · cases hres
      · split at hres
        · cases hres
        · split at hres
          · rename_i pl' hpl
            cases hres; exact placeAt_inRange hpl
          · cases hres
    · split at h
      · left
        unfold State.portRead at h
        split at h
        · rename_i hb
          cases h
          exact ⟨_, _, rfl, .inr ⟨by simp_all, rfl, rfl⟩⟩
        · cases h; exact ⟨_, _, rfl, .inl ⟨rfl, rfl⟩⟩
      · right
        unfold State.portWrite at h
        split at h
        · rename_i hb
          cases h
          exact ⟨_, _, _, rfl, rfl, .inl ⟨by simp_all, rfl⟩⟩
        · rename_i hb
          cases h
          refine ⟨_, _, _, rfl, rfl, .inr ⟨fun hbusy => ?_, rfl⟩⟩
          simp only [hbusy, Bool.true_and, Bool.not_eq_true', Bool.not_eq_false] at hb
          unfold writtenWhileBusy at hb
          split at hb <;> simp_all

/-- What a host access that is answered with a next state does: its response is in `resp`, and the state is as
access_cases says. -/
theorem portTurn_cases {s t : State} {a : Access} (h : portTurn a s = .next t) :
    s.rstN = true ∧ ∃ r u, s.access a = (r, u) ∧ (∀ e, r ≠ .error e) ∧ t = u.respond r := by
  unfold portTurn at h
  split at h
  · cases h
  · rename_i hn
    refine ⟨by simpa using hn, ?_⟩
    split at h
    · cases h
    · rename_i r u hne hacc
      cases h
      refine ⟨_, _, hacc, ?_, rfl⟩
      rintro e rfl
      exact hne e rfl

/-- What driving `rst_n` leaves: the state itself, or the reset values (70_reset_and_hazards.md R290). -/
theorem driveReset_cases (s : State) (level : Bool) :
    s.driveReset level = s ∨
      s.driveReset level =
        { State.reset with rstN := level, host := s.host, epoch := s.epoch + 1, draws := s.draws } := by
  unfold State.driveReset
  split
  · exact .inl rfl
  · exact .inr rfl

/-- What a step that answers a next state has done: nothing, a command of its decoded word, the error entry of
an illegal word, a reset, or a port access, each after its event is taken off the list. -/
theorem step_cases {s t : State} (h : step s = .next t) :
    ∃ rest,
      t = { s with host := rest } ∨
      (∃ w i, s.seq = .busy w ∧ s.rstN = true ∧ decode w = .ok i ∧ exec i { s with host := rest } = .next t) ∨
      (∃ w, s.seq = .busy w ∧ s.rstN = true ∧ t = { s with host := rest }.raise .illegalCmd w 0#32) ∨
      (∃ level, t = { s with host := rest }.driveReset level) ∨
      (∃ a, portTurn a { s with host := rest } = .next t) := by
  have turn : ∀ {u : State} {rest : List HostEvent}, u = { s with host := rest } → sequencerTurn u = .next t →
      t = { s with host := rest } ∨
      (∃ w i, s.seq = .busy w ∧ s.rstN = true ∧ decode w = .ok i ∧ exec i { s with host := rest } = .next t) ∨
      (∃ w, s.seq = .busy w ∧ s.rstN = true ∧ t = { s with host := rest }.raise .illegalCmd w 0#32) := by
    intro u rest hu ht
    unfold sequencerTurn at ht
    split at ht
    · cases ht; exact .inl hu
    · rename_i w hw
      have : s.seq = .busy w ∧ s.rstN = true := by
        subst hu
        unfold State.fetchCommand at hw
        dsimp only at hw
        split at hw
        · cases hw
        · split at hw
          · cases hw; exact ⟨‹_›, ‹_›⟩
          · cases hw
      split at ht
      · rename_i i hi
        exact .inr (.inl ⟨w, i, this.1, this.2, hi, hu ▸ ht⟩)
      · simp only [execIllegal, Host.Outcome.next.injEq] at ht
        exact .inr (.inr ⟨w, this.1, this.2, by rw [← ht, hu]⟩)
  unfold step at h
  split at h
  · rename_i hh
    obtain h1 | h1 | h1 := turn (rest := []) (by rw [← hh]) h
    · exact ⟨[], .inl h1⟩
    · exact ⟨[], .inr (.inl h1)⟩
    · exact ⟨[], .inr (.inr (.inl h1))⟩
  · rename_i rest hh
    obtain h1 | h1 | h1 := turn (rest := rest) rfl h
    · exact ⟨rest, .inl h1⟩
    · exact ⟨rest, .inr (.inl h1)⟩
    · exact ⟨rest, .inr (.inr (.inl h1))⟩
  · rename_i level rest hh
    refine ⟨rest, .inr (.inr (.inr (.inl ⟨level, ?_⟩)))⟩
    simpa using h.symm
  · rename_i a rest hh
    exact ⟨rest, .inr (.inr (.inr (.inr ⟨a, h⟩)))⟩

end Sys2Proof.Machine
end

