-- ==== Sys2Proof/Laws/PerInstr.lean ====
section
/-! SUPPORT. Statements made for every command as syntax, one lemma a constructor: its word is the one of the
opcode map, is legal, and is read back as the command (spec/30_encoding.md R113-R115). -/

namespace Sys2Proof.Laws.WordOfCommand

/-- The word of a command is well formed, decodes to the command, also from its byte lanes and as the row of
the opcode table, and has RES = 0. -/
def Statement (i : Instr) : Prop :=
  i.wf = true ∧ (fieldsOf (encode i)).wf = true ∧ (fieldsOf (encode i)).opcode = opcodeOf i ∧
  decode (encode i) = .ok i ∧ decodeTableWord 32 (encode i).toNat = some i

theorem nop : Statement .nop := by unfold Statement; decide
theorem clear : Statement .clear := by unfold Statement; decide
theorem seed : Statement .seed := by unfold Statement; decide
theorem merge : Statement .merge := by unfold Statement; decide
theorem finish : Statement .finish := by unfold Statement; decide
theorem buildTree : Statement .buildTree := by unfold Statement; decide
theorem genCodes : Statement .genCodes := by unfold Statement; decide
theorem encode : Statement .encode := by unfold Statement; decide
theorem decode : Statement .decode := by unfold Statement; decide

end Sys2Proof.Laws.WordOfCommand
end

