-- ==== Sys2Proof/Tests/Slice0.lean ====
section
/-! SUPPORT. Tests of the model against the vectors of spec/95_test_vectors.md, the smoke test of WellFormed,
and for every statement with hypotheses a concrete state that meets them. -/

namespace Sys2Proof.Tests

set_option Elab.async false

open Sys2Proof Sys2Proof.Machine

/-! ## Small states -/

/-- The state right after reset with an alphabet loaded (30_encoding.md R119). -/
def withAlphabet (l : List (Sym × Freq)) : State :=
  { State.reset with
    alphaN := BitVec.ofNat 32 l.length
    mem := { Memory.empty with
      alphaSym := l.zipIdx.map (fun e => (e.2, e.1.1))
      alphaFreq := l.zipIdx.map (fun e => (e.2, e.1.2)) } }

/-- A state with node store and queue written out; nothing is finished. -/
def withStore (nodes : List Node) (queue : List NodeIdx) : State :=
  { State.reset with
    nodeCount := BitVec.ofNat 10 nodes.length
    pqSize := BitVec.ofNat 9 queue.length
    mem := { Memory.empty with
      node := nodes.zipIdx.map (fun e => (e.2, e.1))
      heap := queue.zipIdx.map (fun e => (e.2, e.1)) } }

/-- A state with a finished tree. -/
def withTree (nodes : List Node) (root : NodeIdx) : State :=
  { withStore nodes [] with root := root, treeValid := true }

/-- A state with a finished tree and its table. -/
def withTable (nodes : List Node) (root : NodeIdx) (codes : List (Nat × CodeEntry)) : State :=
  { withTree nodes root with
    codesValid := true
    mem := { (withTree nodes root).mem with
      code := codes.foldl (fun r e => Ram.set r e.1 e.2) clearedTable } }

/-- The state with a text loaded (R119). -/
def loadText (s : State) (text : List Sym) : State :=
  { s with
    textLen := BitVec.ofNat 32 text.length
    mem := { s.mem with text := text.zipIdx.map (fun e => (e.2, e.1)) } }

/-- The state with a bitstring loaded. -/
def loadBits (s : State) (bits : List Bool) : State :=
  { s with
    bitLen := BitVec.ofNat 32 bits.length
    mem := { s.mem with bit := bits.zipIdx.map (fun e => (e.2, e.1)) } }

/-- A leaf of a symbol and a weight. -/
def leafNode (sym : Sym) (weight : Weight) : Node :=
  { leaf := true, sym := sym, weight := weight, left := 0x1FF#9, right := 0x1FF#9 }

/-- An internal node (w; l, r). -/
def innerNode (weight : Weight) (l r : NodeIdx) : Node :=
  { leaf := false, sym := 0#8, weight := weight, left := l, right := r }

/-- Scenario A of 95_test_vectors.md 1.1. -/
def scenarioA : State :=
  withAlphabet [(0x41#8, 5#32), (0x42#8, 1#32), (0x43#8, 6#32), (0x44#8, 3#32), (0x45#8, 2#32)]

/-- The leaves of scenario A. -/
def leavesA : List Node :=
  [leafNode 0x41#8 5#40, leafNode 0x42#8 1#40, leafNode 0x43#8 6#40, leafNode 0x44#8 3#40, leafNode 0x45#8 2#40]

/-- After SD1. -/
def seededA : State := withStore leavesA [1#9, 4#9, 2#9, 3#9, 0#9]

/-- Two entries left, before the last merge of scenario B (95_test_vectors.md 1.2). -/
def seededB : State := withStore [leafNode 0x41#8 1#40, leafNode 0x42#8 1#40] [0#9, 1#9]

/-- The alphabet of scenario H (BT5). -/
def scenarioH : State := withAlphabet [(0x41#8, 1#32), (0x42#8, 1#32), (0x43#8, 1#32)]

/-- The alphabet of one symbol (SD9). -/
def scenarioQ : State := withAlphabet [(0x51#8, 7#32)]

/-- The nodes of BT5. -/
def nodesH : List Node :=
  [leafNode 0x41#8 1#40, leafNode 0x42#8 1#40, leafNode 0x43#8 1#40, innerNode 2#40 0#9 1#9, innerNode 3#40 2#9 3#9]

/-- The tree BT5. -/
def treeH : State := withTree nodesH 4#9

/-- The tree BT5 with the table GC5: A "10", B "11", C "0". -/
def tableH : State :=
  withTable nodesH 4#9
    [(0x41, { valid := true, len := 2#8, bits := 1#255 }), (0x42, { valid := true, len := 2#8, bits := 3#255 }),
     (0x43, { valid := true, len := 1#8, bits := 0#255 })]

/-- The tree BT6. -/
def treeQ : State := withTree [leafNode 0x51#8 7#40] 0#9

/-- The tree BT2 with the table GC2. -/
def treeB : State :=
  withTree [leafNode 0x41#8 1#40, leafNode 0x42#8 1#40, innerNode 2#40 0#9 1#9] 2#9

/-- A command of a word is running. -/
def running (w : Word) (host : List HostEvent) : State :=
  { State.reset with seq := .busy w, host := host }

/-- Nothing runs, and an event is pending. -/
def pending (host : List HostEvent) : State :=
  { State.reset with host := host }

/-- The state an outcome gives, the reset state where it stops. -/
def after (o : Host.Outcome State Fault Refusal) : State :=
  match o with
  | .next t => t
  | .fault _ => State.reset
  | .refused _ => State.reset

/-- Whether an outcome is a next state. -/
def completes (o : Host.Outcome State Fault Refusal) : Bool :=
  match o with
  | .next _ => true
  | .fault _ => false
  | .refused _ => false

theorem next_of_completes {o : Host.Outcome State Fault Refusal} (h : completes o = true) : ∃ t, o = .next t := by
  cases o with
  | next t => exact ⟨t, rfl⟩
  | fault r => cases h
  | refused r => cases h

/-- The end of a command run on a state, and whether it is a next state. -/
def ends (i : Instr) (s : State) (p : State → Bool) : Bool :=
  completes (exec i s) && p (after (exec i s))

/-! ## WellFormed -/

/-- RES ≠ 0 is ill formed (30_encoding.md R115, vector CT5). -/
theorem test_wf_refuses_reserved_bits : (CmdFields.wf { opcode := 0x13#8, res := 0x000001#24 }) = false := by decide
/-- A reserved opcode is ill formed (R115, vector CT6). -/
theorem test_wf_refuses_reserved_opcode : (CmdFields.wf { opcode := 0x02#8, res := 0#24 }) = false := by decide
/-- A misaligned offset is ill formed (20_memory.md R83, vector HP7). -/
theorem test_wf_refuses_misaligned : (Access.wf (.read 0x00002#19 4)) = false := by decide
/-- A 2-byte access is ill formed (R83, vector HP8). -/
theorem test_wf_refuses_halfword : (Access.wf (.write 0x00040#19 2 5#32)) = false := by decide
/-- Indices past each array are out of range (10_state.md R49-R56). -/
theorem test_wf_refuses_places_out_of_range :
    ([Place.alphaSym 256, .alphaFreq 256, .node 512 0, .node 0 4, .pq 256, .code 256 0, .code 0 16, .text 4096,
      .bitWord 1024, .out 32768].all (fun pl => pl.inRange == false)) = true := by decide
/-- Every command is well formed, and so is its word. -/
theorem test_wf_accepts_every_command :
    (Instr.all.all (fun i => i.wf && (fieldsOf (encode i)).wf)) = true := by decide

/-! ## Decoding: the words of 30_encoding.md R113, written out bit by bit -/

theorem test_decode_nop : decode 0b00000000000000000000000000000000#32 = .ok .nop := by decide
theorem test_decode_clear : decode 0b00000000000000000000000000000001#32 = .ok .clear := by decide
theorem test_decode_seed : decode 0b00000000000000000000000000010000#32 = .ok .seed := by decide
theorem test_decode_merge : decode 0b00000000000000000000000000010001#32 = .ok .merge := by decide
theorem test_decode_finish : decode 0b00000000000000000000000000010010#32 = .ok .finish := by decide
theorem test_decode_buildTree : decode 0b00000000000000000000000000010011#32 = .ok .buildTree := by decide
theorem test_decode_genCodes : decode 0b00000000000000000000000000100000#32 = .ok .genCodes := by decide
theorem test_decode_encode : decode 0b00000000000000000000000000110000#32 = .ok .encode := by decide
theorem test_decode_decode : decode 0b00000000000000000000000001000000#32 = .ok .decode := by decide
/-- Lane 0 is the byte at the lowest address (20_memory.md R85). -/
theorem test_decode_lanes : decodeBytes [0x13#8, 0x00#8, 0x00#8, 0x00#8] = .ok .buildTree := by decide
/-- The word with the opcode in lane 3 is illegal (R115). -/
theorem test_decode_lanes_swapped :
    decodeBytes [0x00#8, 0x00#8, 0x00#8, 0x13#8] = .error (.reservedBits 0x130000#24) := by decide
theorem test_decode_table_word : decodeTableWord 32 0x20 = some .genCodes := by decide

/-! ## Commands, one step each -/

/-- CT3: NOP clears an error report. -/
theorem test_nop :
    (let t := after (runCommand .nop { State.reset with errCode := 0x04#8, errInfo0 := 13#32, errInfo1 := 2#32 })
     (t.errCode, t.errInfo0, t.errInfo1, t.done, t.lastOp) = (0x00#8, 0#32, 0#32, true, 0x00#8)) := by decide
/-- CT1: CLEAR leaves the inputs and reads STATUS 0x02. -/
theorem test_clear :
    (let t := after (runCommand .clear (loadText tableH [0x41#8]))
     (t.readReg .root, t.nodeCount, t.readReg .status, t.textLen) = (0x1FF#32, 0#10, 0x02#32, 1#32)) := by decide
/-- SD1: the queue after SEED, and STATUS. -/
theorem test_seed_scenarioA :
    (let t := after (runCommand .seed scenarioA)
     t.queue = [1#9, 4#9, 2#9, 3#9, 0#9] ∧ t.nodeCount = 5#10 ∧ t.readReg .status = 0x02#32 ∧
       t.nodeWord 0 0 = 0x00004103#32 ∧ t.nodeWord 0 3 = 0x01FF01FF#32) := by decide +kernel
/-- SD8: the first duplicate in index order. -/
theorem test_seed_duplicate :
    (let t := after (exec .seed (withAlphabet [(0x41#8, 5#32), (0x42#8, 3#32), (0x41#8, 2#32), (0x42#8, 1#32)]))
     (t.errCode, t.errInfo0, t.errInfo1, t.nodeCount) = (0x13#8, 2#32, 0#32, 0#10)) := by decide +kernel
/-- MG1: leaf 1 is the left child, leaf 4 the right one. -/
theorem test_merge_scenarioA :
    (let t := after (exec .merge seededA)
     t.nodeAt 5 = innerNode 3#40 1#9 4#9 ∧ t.nodeWord 5 3 = 0x00040001#32 ∧ t.queue = [3#9, 5#9, 2#9, 0#9]) := by
  decide +kernel
/-- MG7: a sum above 2^32 is exact. -/
theorem test_merge_wide_weight :
    (let t := after (exec .merge
       (withStore [leafNode 0x41#8 0xFFFFFFFF#40, leafNode 0x42#8 0xFFFFFFFF#40] [0#9, 1#9]))
     t.nodeWord 2 1 = 0xFFFFFFFE#32 ∧ t.nodeWord 2 2 = 0x00000001#32) := by decide +kernel
/-- FN4: the one leaf becomes ROOT; STATUS reads 0x4A. -/
theorem test_finish_one_leaf :
    (let t := after (exec .finish (withStore [leafNode 0x51#8 7#40] [0#9]))
     (t.root, t.readReg .status, t.pqSize) = (0#9, 0x4A#32, 0#9)) := by decide
/-- FN2: a merge is pending. -/
theorem test_finish_pending :
    (let t := after (exec .finish seededA)
     (t.errCode, t.errInfo0, t.pqSize, t.treeValid) = (0x14#8, 5#32, 5#9, false)) := by decide
/-- BT1 and P1: the root of scenario A and its children. -/
theorem test_build_scenarioA :
    (let t := after (exec .buildTree scenarioA)
     t.root = 8#9 ∧ t.nodeAt 6 = innerNode 6#40 3#9 5#9 ∧ t.nodeWord 8 3 = 0x00070006#32 ∧
       t.readReg .rootWeightLo = 0x11#32) := by decide +kernel
/-- BT5: on a tie of weights the lower index is extracted first. -/
theorem test_build_scenarioH :
    (let t := after (exec .buildTree scenarioH)
     t.nodeAt 3 = innerNode 2#40 0#9 1#9 ∧ t.nodeAt 4 = innerNode 3#40 2#9 3#9) := by decide +kernel
/-- GC5: the codewords of tree BT5, and a symbol outside the alphabet. -/
theorem test_gen_codes_scenarioH :
    ends .genCodes treeH (fun t =>
      t.codeWord 0x41 0 == 0x201#32 && t.codeWord 0x41 1 == 0x1#32 && t.codeWord 0x42 1 == 0x3#32 &&
        t.codeWord 0x43 0 == 0x101#32 && t.codeWord 0x44 0 == 0#32) = true := by decide +kernel
/-- GC6: the fallback codeword. -/
theorem test_gen_codes_fallback :
    ends .genCodes treeQ (fun t => t.codeWord 0x51 0 == 0x00000101#32 && t.codeWord 0x51 1 == 0#32) = true := by
  decide +kernel
/-- EN5: "ABC" encodes to "10110". -/
theorem test_encode_scenarioH :
    (let t := after (exec .encode (loadText tableH [0x41#8, 0x42#8, 0x43#8]))
     t.bitLen = 5#32 ∧ t.stream 5 = [true, false, true, true, false] ∧ t.errCode = 0x00#8) := by decide +kernel
/-- EN6: 'Z' at position 2; the codewords of "AB" stay written. -/
theorem test_encode_unknown :
    (let t := after (exec .encode (loadText tableH [0x41#8, 0x42#8, 0x5A#8]))
     (t.errCode, t.errInfo0, t.errInfo1, t.bitLen) = (0x03#8, 0x5A#32, 2#32, 0#32) ∧
       t.stream 4 = [true, false, true, true]) := by decide +kernel
/-- The inverse of EN5 (44_decoder.md R238): "10110" decodes to "ABC". -/
theorem test_decode_command_scenarioH :
    (let t := after (exec .decode (loadBits treeH [true, false, true, true, false]))
     t.outLen = 3#32 ∧ t.output 3 = [0x41#8, 0x42#8, 0x43#8]) := by decide +kernel
/-- As DC5: the stream "1011" with a tail "1" of tree BT5 begins its last codeword at bit 4 and has 1 bit. -/
theorem test_decode_command_truncated :
    (let t := after (exec .decode (loadBits treeH [true, false, true, true, true]))
     (t.errCode, t.errInfo0, t.errInfo1, t.outLen) = (0x04#8, 4#32, 1#32, 0#32)) := by decide +kernel
/-- DC7: over the one-leaf tree a 1 bit emits the symbol too. -/
theorem test_decode_command_one_leaf :
    (let t := after (exec .decode (loadBits treeQ [true, false, true]))
     t.outLen = 3#32 ∧ t.output 3 = [0x51#8, 0x51#8, 0x51#8]) := by decide +kernel

/-! ## The port and the step -/

/-- CT5: 0x00000113 is no BUILD_TREE. -/
theorem test_step_illegal_word :
    (let t := after (step (running 0x00000113#32 []))
     (t.errCode, t.errInfo0, t.seq, t.done) = (0x10#8, 0x00000113#32, Seq.idle, true)) := by decide
/-- HP6: an unmapped offset. -/
theorem test_port_unmapped : completes (step (pending [.port (.read 0x00100#19 4)])) = false := by decide
/-- HP9: only the low 8 bits of ALPHA[0].sym are stored. -/
theorem test_port_alpha_sym :
    (after (step (pending [writeForm (.alphaSym 0) 0x00001234#32]))).readPlace (.alphaSym 0) = 0x34#32 := by decide
/-- HP12: a write while BUSY is dropped and sets OVERRUN. -/
theorem test_port_busy_write :
    (let t := after (step (running 0x40#32 [writeForm (.reg .textLen) 5#32]))
     (t.textLen, t.overrun, t.readReg .status) = (0#32, true, 0x21#32)) := by decide
/-- HP1, HP2: the constants. -/
theorem test_port_constants :
    ([Reg.id, .param0, .param1, .param2, .param3].map State.reset.readReg) =
      [0x48544201#32, 0x00000100#32, 0x00001000#32, 0x00008000#32, 0x00282008#32] := by decide
/-- GC1: CODE[0x41] is at offset 0x11040; P1: NODE[8] is at 0x02080. -/
theorem test_map_offsets : placeAt 0x11040 = some (.code 0x41 0) ∧ placeAt 0x0208C = some (.node 8 3) := by decide
/-- The table row of a command is what the next step runs. -/
theorem test_with_fetch_word :
    (let t := after (step (State.reset.withFetchWord 32 0x11))
     (t.errCode, t.lastOp, t.done) = (0x02#8, 0x11#8, true)) := by decide

/-! ## Witnesses: states that meet the hypotheses of the statements -/

theorem witness_DecodeOfEncodeIsTheCommand : ∀ i : Instr, i.wf = true := by
  intro i
  cases i <;> decide

theorem witness_StepRunsTheDecodedCommand :
    ((running 0x40#32 []).rstN = true ∧ (running 0x40#32 []).seq = .busy 0x40#32 ∧ decode 0x40#32 = .ok .decode ∧
      (running 0x40#32 []).host = []) ∧
    ((running 0x00#32 [.sequencer]).seq = .busy 0x00#32 ∧ decode 0x00#32 = .ok .nop ∧
      (running 0x00#32 [.sequencer]).host = .sequencer :: []) := by decide

theorem witness_CmdWriteIsAcceptedWhenIdleDroppedWhenBusy :
    ((pending [.port (.write 0x00024#19 4 0x13#32)]).rstN = true ∧
      (pending [.port (.write 0x00024#19 4 0x13#32)]).seq = .idle ∧ decode 0x13#32 = .ok .buildTree ∧
      completes (step (pending [.port (.write 0x00024#19 4 0x13#32)])) = true) ∧
    ((running 0x40#32 [.port (.write 0x00024#19 4 0#32)]).rstN = true ∧
      (running 0x40#32 [.port (.write 0x00024#19 4 0#32)]).seq = .busy 0x40#32) := by decide

theorem witness_IllegalWordReportsItselfAndNothingElse :
    ((pending [.port (.write 0x00024#19 4 0x80000000#32)]).rstN = true ∧
      (pending [.port (.write 0x00024#19 4 0x80000000#32)]).seq = .idle ∧ (fieldsOf 0x80000000#32).wf = false) ∧
    (fieldsOf 0x000000FF#32).wf = false := by decide

theorem witness_IdleBlockDoesNothing : State.reset.seq = .idle ∧ State.reset.host = [] := by decide

theorem witness_ResetFromAnyStateGivesTheResetValues :
    (running 0x40#32 [.drive false, .drive true]).host = .drive false :: .drive true :: [] ∧
    ({ State.reset with rstN := false }.rstN = false ∧ { State.reset with rstN := false }.host = []) ∧
    (let s := { pending [.port (.read 0x00028#19 4)] with rstN := false }
     s.rstN = false ∧ s.host = .port (.read 0x00028#19 4) :: []) := by decide

/-- The largest alphabet, as SD11: every symbol with frequency 1. -/
def fullAlphabet : State :=
  withAlphabet ((List.range 256).map (fun i => (BitVec.ofNat 8 i, 1#32)))

theorem alphabetOk_fullAlphabet : AlphabetOk fullAlphabet := by
  have hn : fullAlphabet.alphaN = 256#32 := by decide +kernel
  have hs : ∀ i < 256, fullAlphabet.alphaSymAt i = BitVec.ofNat 8 i := by decide +kernel
  have hf : ∀ i < 256, fullAlphabet.alphaFreqAt i ≠ 0#32 := by decide +kernel
  simp only [AlphabetOk, hn]
  refine ⟨by decide, by decide, hf, fun i hi j hj h => ?_⟩
  have hi' : i < 256 := hi
  rw [hs i hi', hs j (by omega)] at h
  have := congrArg BitVec.toNat h
  simp only [BitVec.toNat_ofNat] at this
  omega

/-- The smallest and the largest alphabet. -/
theorem witness_SeedMakesLeavesAndTheirQueue : AlphabetOk scenarioQ ∧ AlphabetOk fullAlphabet :=
  ⟨by decide +kernel, alphabetOk_fullAlphabet⟩

/-- Clause by clause: n = 0; n = 257; n = 256 with entry 0 bad; n = 2 with entry 1 bad or a duplicate. -/
theorem witness_SeedAndBuildReportTheFirstError :
    State.reset.alphaN = 0#32 ∧ 256 < (257#32 : Word).toNat ∧
    (let s := { withAlphabet [(0x41#8, 0#32)] with alphaN := 256#32 }
     0 < s.alphaN.toNat ∧ s.alphaN.toNat ≤ 256 ∧ s.alphaFreqAt 0 = 0#32) ∧
    (let s := withAlphabet [(0x41#8, 5#32), (0x41#8, 0#32)]
     1 < s.alphaN.toNat ∧ s.alphaN.toNat ≤ 256 ∧ s.alphaFreqAt 0 ≠ 0#32 ∧ s.alphaFreqAt 1 = 0#32) ∧
    (let s := withAlphabet [(0x41#8, 5#32), (0x41#8, 3#32)]
     1 < s.alphaN.toNat ∧ s.alphaN.toNat ≤ 256 ∧ s.alphaFreqAt 0 ≠ 0#32 ∧ s.alphaFreqAt 1 ≠ 0#32 ∧
       s.alphaSymAt 0 = s.alphaSymAt 1) := by decide

theorem witness_ExtractMinAnswersALeastEntry :
    seededA.pqSize ≠ 0#9 ∧
    (∀ j < seededA.pqSize.toNat, 1 ≤ j →
      seededA.before .index (seededA.heapAt ((j - 1) / 2)) (seededA.heapAt j) = true) ∧
    (∀ j < seededA.pqSize.toNat, 1 ≤ j →
      (seededA.nodeAt (seededA.heapAt ((j - 1) / 2)).toNat).weight ≤
        (seededA.nodeAt (seededA.heapAt j).toNat).weight) := by decide +kernel

theorem witness_MergeJoinsTheTwoLeastEntries :
    (CountsFit seededA ∧ QueueSound seededA ∧ 2 ≤ seededA.pqSize.toNat) ∧
    (CountsFit seededB ∧ QueueSound seededB ∧ seededB.pqSize.toNat = 2) := by decide +kernel

theorem witness_MergeAndFinishErrorsChangeNothingElse :
    (withStore [leafNode 0x51#8 7#40] [0#9]).pqSize.toNat < 2 ∧ State.reset.pqSize = 0#9 ∧
      2 ≤ seededB.pqSize.toNat := by decide

theorem witness_FinishMakesTheLastEntryTheRoot :
    (withStore [leafNode 0x51#8 7#40] [0#9]).pqSize = 1#9 := by decide

theorem witness_BuildTreeMakesAFullTreeOfTheAlphabet : AlphabetOk scenarioQ ∧ AlphabetOk fullAlphabet :=
  ⟨by decide +kernel, alphabetOk_fullAlphabet⟩

theorem witness_BuildTreeEqualsSeedMergesFinish : AlphabetOk scenarioQ ∧ AlphabetOk scenarioA := by decide +kernel

/-- The same alphabet, over a reset state and over one that holds another tree. -/
theorem witness_TreeIsAFunctionOfTheAlphabet :
    let s' := { scenarioH with
      epoch := 3, treeValid := true, root := 2#9, nodeCount := 3#10, mem := { scenarioH.mem with node := treeB.mem.node } }
    (AlphabetOk scenarioH ∧ s'.alphaN = scenarioH.alphaN ∧
      ∀ i < scenarioH.alphaN.toNat,
        s'.alphaSymAt i = scenarioH.alphaSymAt i ∧ s'.alphaFreqAt i = scenarioH.alphaFreqAt i) ∧
    ∃ t t', exec .buildTree scenarioH = .next t ∧ exec .buildTree s' = .next t' :=
  ⟨by decide +kernel, _, _, rfl, rfl⟩

theorem treeSound_treeH : TreeSound treeH :=
  ⟨by decide +kernel, by decide +kernel⟩

theorem treeSound_treeQ : TreeSound treeQ :=
  ⟨by decide +kernel, by decide +kernel⟩

theorem treeSound_tableH : TreeSound tableH :=
  ⟨by decide +kernel, by decide +kernel⟩

theorem treeSound_seededA : TreeSound seededA :=
  ⟨by decide +kernel, by decide +kernel⟩

theorem witness_GenCodesCompletesOnATree :
    State.reset.treeValid = false ∧ (TreeSound treeH ∧ treeH.treeValid = true) ∧
      (TreeSound treeQ ∧ treeQ.treeValid = true) :=
  ⟨rfl, ⟨treeSound_treeH, rfl⟩, treeSound_treeQ, rfl⟩

theorem witness_GenCodesFallbackForOneLeaf :
    treeQ.treeValid = true ∧ (treeQ.nodeAt treeQ.root.toNat).leaf = true ∧
      (0x52#8 : Sym) ≠ (treeQ.nodeAt treeQ.root.toNat).sym := by decide

/-- 'A' has a codeword after GEN_CODES on BT5. -/
theorem witness_GenCodesSpellsThePathsOfTheLeaves :
    TreeSound treeH ∧ OwnedOnce treeH ∧ treeH.treeValid = true ∧ (treeH.nodeAt treeH.root.toNat).leaf = false ∧
      (∃ t, exec .genCodes treeH = .next t) ∧
      ends .genCodes treeH (fun t => (t.codeAt 0x41#8).valid && (t.codeAt 0x41#8).len == 2#8) = true :=
  ⟨treeSound_treeH, by decide +kernel, rfl, by decide, next_of_completes (by decide +kernel), by decide +kernel⟩

theorem witness_GeneratedCodeIsPrefixFree :
    TreeSound treeH ∧ treeH.treeValid = true ∧ (∃ t, exec .genCodes treeH = .next t) ∧
      ends .genCodes treeH (fun t => (t.codeAt 0x41#8).valid && (t.codeAt 0x43#8).valid) = true ∧
      (0x41#8 : Sym) ≠ 0x43#8 :=
  ⟨treeSound_treeH, rfl, next_of_completes (by decide +kernel), by decide +kernel, by decide⟩

theorem witness_GeneratedCodeLengthsFillTheTree :
    TreeSound treeH ∧ OwnedOnce treeH ∧ treeH.treeValid = true ∧ (treeH.nodeAt treeH.root.toNat).leaf = false ∧
      ∃ t, exec .genCodes treeH = .next t :=
  ⟨treeSound_treeH, by decide +kernel, rfl, by decide, next_of_completes (by decide +kernel)⟩

theorem witness_GenCodesAgainGivesTheIdenticalTable :
    treeH.treeValid = true ∧ ∃ t, exec .genCodes treeH = .next t :=
  ⟨rfl, next_of_completes (by decide +kernel)⟩

theorem witness_EncodeConcatenatesTheCodewords :
    (let s := loadText tableH [0x41#8, 0x42#8, 0x43#8]
     s.codesValid = true ∧ s.textLen.toNat ≤ 4096 ∧ TextFits s s.textLen.toNat) ∧
    (tableH.textLen = 0#32 ∧ TextFits tableH tableH.textLen.toNat) := by decide +kernel

theorem witness_EncodeChecksTableAndLengthFirst :
    State.reset.codesValid = false ∧
      (let s := { tableH with textLen := 4097#32 }
       s.codesValid = true ∧ 4096 < s.textLen.toNat) := by decide

theorem encoded_length (s : State) (text : List Sym) :
    (s.encoded text).length = (text.map (fun c => (s.codeAt c).len.toNat)).sum := by
  simp [State.encoded, codeBits, List.length_flatMap]

/-- A state with one codeword of 255 bits and a text of 129 times its symbol: 128 of them fill 32640 bits. -/
def overflowing : State :=
  loadText (withTable nodesH 4#9 [(0x41, { valid := true, len := 255#8, bits := 0#255 })]) (List.replicate 129 0x41#8)

/-- An unknown symbol after two known ones (EN6), and an overflow at position 128. -/
theorem witness_EncodeErrorKeepsThePrefixItWrote :
    (let s := loadText tableH [0x41#8, 0x42#8, 0x5A#8]
     s.codesValid = true ∧ s.textLen.toNat ≤ 4096 ∧ 2 < s.textLen.toNat ∧ TextFits s 2 ∧
      (s.codeAt (s.textAt 2)).valid = false) ∧
    (overflowing.codesValid = true ∧ overflowing.textLen.toNat ≤ 4096 ∧ 128 < overflowing.textLen.toNat ∧
      TextFits overflowing 128 ∧ (overflowing.codeAt (overflowing.textAt 128)).valid = true ∧
      32768 < (overflowing.encoded (overflowing.text 128)).length +
        (overflowing.codeAt (overflowing.textAt 128)).len.toNat) := by
  refine ⟨by decide +kernel, rfl, by decide +kernel, by decide +kernel, ⟨by decide +kernel, ?_⟩, by decide +kernel, ?_⟩
  · rw [encoded_length]
    decide +kernel
  · rw [encoded_length]
    decide +kernel

/-- The stream "10110" of EN5, and the empty stream (DC8). -/
theorem witness_DecodeOfCodewordsGivesTheirSymbols :
    (let s := loadBits treeH [true, false, true, true, false]
     let words : List (List Bool × Sym) := [([true, false], 0x41#8), ([true, true], 0x42#8), ([false], 0x43#8)]
     s.treeValid = true ∧ s.bitLen.toNat ≤ 32768 ∧ (s.nodeAt s.root.toNat).leaf = false ∧
      (∀ x ∈ words, x.1.length ≤ 255 ∧ s.spells x.1 x.2) ∧ s.stream s.bitLen.toNat = words.flatMap Prod.fst) ∧
    treeH.stream treeH.bitLen.toNat = ([] : List (List Bool × Sym)).flatMap Prod.fst := by decide +kernel

/-- The stream "0" "1": 'C', then the first bit of a codeword of two. -/
theorem witness_DecodeReportsATruncatedTail :
    let s := loadBits treeH [false, true]
    let words : List (List Bool × Sym) := [([false], 0x43#8)]
    s.treeValid = true ∧ s.bitLen.toNat ≤ 32768 ∧ (s.nodeAt s.root.toNat).leaf = false ∧
      (∀ x ∈ words, x.1.length ≤ 255 ∧ s.spells x.1 x.2) ∧ [true] ≠ [] ∧ [true].length ≤ 254 ∧
      s.descend s.root [true] = some 3#9 ∧ (s.nodeAt 3).leaf = false ∧
      s.stream s.bitLen.toNat = words.flatMap Prod.fst ++ [true] := by decide +kernel

theorem witness_DecodeOverOneLeafEmitsItForEveryBit :
    let s := { treeQ with bitLen := 32768#32 }
    s.treeValid = true ∧ s.bitLen.toNat ≤ 32768 ∧ (s.nodeAt s.root.toNat).leaf = true := by decide

theorem witness_DecodeChecksTreeAndLengthFirst :
    State.reset.treeValid = false ∧
      (let s := { treeH with bitLen := 32769#32 }
       s.treeValid = true ∧ 32768 < s.bitLen.toNat) := by decide

theorem tableDerived_tableH : TableDerived tableH := by decide +kernel

theorem witness_EncodeThenDecodeGivesTheTextBack :
    let s := loadText tableH [0x41#8, 0x42#8, 0x43#8]
    TreeSound s ∧ TableDerived s ∧ s.codesValid = true ∧ s.textLen.toNat ≤ 4096 ∧ TextFits s s.textLen.toNat :=
  ⟨⟨by decide +kernel, by decide +kernel⟩, by decide +kernel, rfl, by decide, by decide +kernel⟩

theorem witness_CommandsEndIdleAndWriteNoInput :
    ∀ i ∈ Instr.all, completes (exec i (loadText tableH [0x41#8, 0x42#8, 0x43#8])) = true := by decide +kernel

theorem witness_TreeIsReadOnlyForItsReaders :
    (∃ t, exec .genCodes tableH = .next t) ∧ (∃ t, exec .encode tableH = .next t) ∧
      (∃ t, exec .decode tableH = .next t) :=
  ⟨next_of_completes (by decide +kernel), ⟨_, rfl⟩, ⟨_, rfl⟩⟩

/-- GEN_CODES (0x20) and an illegal word (0xFF), over the tree BT5. -/
theorem witness_EveryAcceptedCommandCompletes :
    (let s := { treeH with seq := .busy 0x20#32 }
     TreeSound s ∧ s.rstN = true ∧ s.seq = .busy 0x20#32 ∧ s.host = []) ∧
    (let s := { treeH with seq := .busy 0xFF#32 }
     TreeSound s ∧ s.rstN = true ∧ s.seq = .busy 0xFF#32 ∧ s.host = []) :=
  ⟨⟨⟨by decide +kernel, by decide +kernel⟩, rfl, rfl, rfl⟩, ⟨⟨by decide +kernel, by decide +kernel⟩, rfl, rfl, rfl⟩⟩

/-- MG6 and SD2. -/
theorem witness_RepeatedCommandRepeatsItsError :
    (∃ t, runCommand .merge State.reset = .next t ∧ t.errCode ≠ 0x00#8) ∧
      ∃ t, runCommand .seed State.reset = .next t ∧ t.errCode ≠ 0x00#8 :=
  ⟨⟨_, rfl, by decide⟩, ⟨_, rfl, by decide⟩⟩

theorem witness_CommandsDoNotSeeThePort : ∃ t, exec .seed scenarioA = .next t :=
  ⟨_, rfl⟩

/-- HP7 and HP8. -/
theorem witness_MisalignedOrNonWordAccessIsAnError :
    ((Access.read 0x00002#19 4).off.toNat % 4 ≠ 0 ∧
      (pending [.port (.read 0x00002#19 4)]).rstN = true ∧
      (pending [.port (.read 0x00002#19 4)]).host = .port (.read 0x00002#19 4) :: []) ∧
    (Access.write 0x00040#19 2 5#32).size ≠ 4 := by decide

/-- The first and the last word of every gap of the map, and of the register region. -/
theorem witness_UnmappedOffsetIsAnError :
    ([0x00100, 0x00FFC, 0x01800, 0x01FFC, 0x04400, 0x0FFFC, 0x14000, 0x1FFFC, 0x24000, 0x2FFFC, 0x31000, 0x3FFFC,
      0x60000, 0x7FFFC].all (fun off =>
        decide (((Access.read (BitVec.ofNat 19 off) 4).off.toNat) % 4 = 0 ∧ placeAt off = none))) = true ∧
    ([0x00000, 0x000FC].all (fun off => decide (off % 4 = 0 ∧ off < 0x100 ∧ placeAt off ≠ none))) = true ∧
    ((pending [.port (.read 0x00100#19 4)]).rstN = true ∧
      (pending [.port (.read 0x00100#19 4)]).host = .port (.read 0x00100#19 4) :: []) := by
  decide

theorem witness_EveryPlaceHasItsOwnOffset :
    ([Place.reg .lastOp, .reserved, .alphaSym 255, .alphaFreq 255, .node 511 3, .pq 255, .code 255 15, .text 4095,
      .bitWord 1023, .out 32767].all (fun pl => pl.inRange)) = true ∧
    ([0x014, 0x01C, 0x038, 0x03C, 0x06C, 0x0FC].all (fun off => decide (reservedOffset off))) = true := by decide

theorem witness_IdleReadAnswersThePlaceAndChangesNothing :
    let s := pending [readForm (.out 32767)]
    (s.rstN = true ∧ s.seq = .idle ∧ (Place.out 32767).inRange = true ∧ s.host = readForm (.out 32767) :: []) ∧
    (reservedOffset (0x00014#19 : Offset).toNat ∧ reservedOffset (0x000FC#19 : Offset).toNat ∧
      (pending [.port (.read 0x00014#19 4)]).rstN = true ∧ (pending [.port (.read 0x00014#19 4)]).seq = .idle ∧
      (pending [.port (.read 0x00014#19 4)]).host = .port (.read 0x00014#19 4) :: []) := by decide

/-- HP12, a write of a reserved offset, and writes of CTRL and STATUS while BUSY. -/
theorem witness_BusyWritesAreDroppedAndOverrun :
    [Place.reg .textLen, .reserved, .reg .ctrl, .reg .status].all (fun pl =>
      decide ((running 0x40#32 [writeForm pl 5#32]).rstN = true ∧
        (running 0x40#32 [writeForm pl 5#32]).seq = .busy 0x40#32 ∧ pl.inRange = true ∧
        (running 0x40#32 [writeForm pl 5#32]).host = writeForm pl 5#32 :: [])) = true := by decide

/-- HP14 and HP15. -/
theorem witness_BusyReadsAreExactOrFree :
    ([Place.reg .root, .reg .status].all (fun pl =>
      decide ((running 0x40#32 [readForm pl]).rstN = true ∧
        (running 0x40#32 [readForm pl]).seq = .busy 0x40#32 ∧ pl.inRange = true ∧
        (running 0x40#32 [readForm pl]).host = readForm pl :: []))) = true ∧
    Place.reg .status ∈ [Place.reg .id, .reg .param0, .reg .param1, .reg .param2, .reg .param3, .reg .ctrl,
      .reg .status] ∧
    Place.reg .root ∉ [Place.reg .id, .reg .param0, .reg .param1, .reg .param2, .reg .param3, .reg .ctrl,
      .reg .status, .reserved] ∧
    (reservedOffset (0x00014#19 : Offset).toNat ∧ reservedOffset (0x000FC#19 : Offset).toNat ∧
      (running 0x40#32 [.port (.read 0x00014#19 4)]).rstN = true ∧
      (running 0x40#32 [.port (.read 0x00014#19 4)]).seq = .busy 0x40#32 ∧
      (running 0x40#32 [.port (.read 0x00014#19 4)]).host = .port (.read 0x00014#19 4) :: []) := by decide

theorem witness_HostCannotTouchARunningCommand :
    let accesses := [Access.write 0x00044#19 4 5#32, .write 0x00024#19 4 1#32, .write 0x00020#19 4 1#32]
    let s := running 0x40#32 (accesses.map .port)
    s.seq = .busy 0x40#32 ∧ s.host = accesses.map .port ∧ ∃ u, Sys2Proof.core.run accesses.length s = .next u :=
  ⟨rfl, rfl, next_of_completes (by decide)⟩

/-- HP16 and HP18. -/
theorem witness_StatusFieldsAndTheirClearing :
    (running 0x40#32 [.port (.write 0x00028#19 4 0x20#32)]).rstN = true ∧
      (running 0x40#32 [.port (.write 0x00028#19 4 0x20#32)]).host = .port (.write 0x00028#19 4 0x20#32) :: [] := by
  decide

theorem witness_IrqRisesAtCompletionAndFallsAtAcceptance :
    (∃ t, exec .nop { State.reset with irqEn := true } = .next t ∧ t.irq = true) ∧
      ((running 0xFF#32 []).rstN = true ∧ (running 0xFF#32 []).seq = .busy 0xFF#32 ∧
        (running 0xFF#32 []).host = [] ∧ decode 0xFF#32 = .error (.reservedOpcode 0xFF#8)) ∧
      (2#32 : Word).getLsbD 1 = true ∧ (0#32 : Word).getLsbD 0 = false ∧ (1#32 : Word).getLsbD 0 = true ∧
      ({ State.reset with done := true }).done = true :=
  ⟨⟨_, rfl, rfl⟩, by decide, by decide, by decide, by decide, rfl⟩

/-- The last BIT word written while idle; other indices, bits and words. -/
theorem witness_WindowWritesReadBackAndTouchNothingElse :
    ((pending [writeForm (.bitWord 1023) 5#32]).rstN = true ∧
      (pending [writeForm (.bitWord 1023) 5#32]).seq = .idle ∧ (Place.bitWord 1023).inRange = true ∧
      (pending [writeForm (.bitWord 1023) 5#32]).host = writeForm (.bitWord 1023) 5#32 :: []) ∧
    (0 : Nat) ≠ 255 ∧ (31 : Nat) < 32 ∧ (32 : Nat) / 32 ≠ 0 := by decide

/-- Live and dead nodes, queue slots inside and past PQ_SIZE, a table and none, output inside and past OUT_LEN. -/
theorem witness_ReadOnlyWindowsShowWhatIsLive :
    (4 < treeH.nodeCount.toNat ∧ treeH.nodeCount.toNat ≤ 5) ∧
    (4 < seededA.pqSize.toNat ∧ seededA.pqSize.toNat ≤ 5) ∧
    tableH.codesValid = true ∧ treeH.codesValid = false ∧
    (let s := { treeH with outLen := 1#32 }
     0 < s.outLen.toNat ∧ s.outLen.toNat ≤ 1) ∧
    Reg.errCode ∉ [Reg.ctrl, .cmd, .status, .alphaN, .textLen, .bitLen] := by decide

theorem witness_DiagnosticViewsOfTreeAndTable :
    treeH.treeValid = true ∧ State.reset.treeValid = false ∧
      (tableH.codesValid = true ∧ (tableH.codeAt 0x41#8).valid = true) ∧ State.reset.codesValid = false := by
  decide +kernel

/-- MERGE over scenario A's leaves. -/
theorem witness_StepKeepsMemoryCanonicalAndCountsInRange :
    let s := { seededA with seq := .busy 0x11#32 }
    MemoryFits s ∧ CountsFit s ∧ ∃ t, step s = .next t :=
  ⟨by decide +kernel, by decide, next_of_completes (by decide +kernel)⟩

/-- CLEAR over a tree with its table. -/
theorem witness_StepKeepsTheFlagsAgreeing :
    let s := { tableH with seq := .busy 0x01#32 }
    CountsFit s ∧ FlagsAgree s ∧ ErrCodeLegal s ∧ ∃ t, step s = .next t :=
  ⟨by decide, by decide, by decide, ⟨_, rfl⟩⟩

theorem witness_StepKeepsTheQueueAHeap :
    let s := { seededA with seq := .busy 0x11#32 }
    CountsFit s ∧ QueueSound s ∧ ∃ t, step s = .next t :=
  ⟨by decide, by decide +kernel, next_of_completes (by decide +kernel)⟩

theorem witness_StepKeepsTheTreeSound :
    let s := { seededA with seq := .busy 0x11#32 }
    TreeSound s ∧ ∃ t, step s = .next t :=
  ⟨⟨by decide +kernel, by decide +kernel⟩, next_of_completes (by decide +kernel)⟩

theorem witness_StepKeepsEveryNodeOwnedOnce :
    let s := { seededA with seq := .busy 0x11#32 }
    TreeSound s ∧ OwnedOnce s ∧ ∃ t, step s = .next t :=
  ⟨⟨by decide +kernel, by decide +kernel⟩, by decide +kernel, next_of_completes (by decide +kernel)⟩

/-- ENCODE over a tree with its table. -/
theorem witness_StepKeepsTheTableOfTheTree :
    let s := { loadText tableH [0x43#8] with seq := .busy 0x30#32 }
    FlagsAgree s ∧ TableDerived s ∧ ∃ t, step s = .next t :=
  ⟨by decide, by decide +kernel, next_of_completes (by decide +kernel)⟩

/-- Each of the four registers, written and read back. -/
theorem witness_IdleRegisterWritesStoreAndReadBack :
    ([0x00040#19, 0x00044#19, 0x00048#19, 0x00020#19].all (fun off : Offset =>
      decide ((pending [.port (.write off 4 0xFFFFFFFF#32), .port (.read off 4)]).rstN = true ∧
        (pending [.port (.write off 4 0xFFFFFFFF#32), .port (.read off 4)]).seq = .idle ∧
        (pending [.port (.write off 4 0xFFFFFFFF#32), .port (.read off 4)]).host =
          .port (.write off 4 0xFFFFFFFF#32) :: .port (.read off 4) :: []))) = true := by decide

/-- HP5, while idle and while BUSY, at the first and the last reserved offset. -/
theorem witness_ReservedOffsetsIgnoreWrites :
    reservedOffset (0x00014#19 : Offset).toNat ∧ reservedOffset (0x000FC#19 : Offset).toNat ∧
    ((pending [.port (.write 0x00014#19 4 5#32)]).rstN = true ∧
      (pending [.port (.write 0x00014#19 4 5#32)]).seq = .idle ∧
      (pending [.port (.write 0x00014#19 4 5#32)]).host = .port (.write 0x00014#19 4 5#32) :: []) ∧
    ((running 0x40#32 [.port (.write 0x000FC#19 4 5#32)]).rstN = true ∧
      (running 0x40#32 [.port (.write 0x000FC#19 4 5#32)]).seq = .busy 0x40#32 ∧
      (running 0x40#32 [.port (.write 0x000FC#19 4 5#32)]).host = .port (.write 0x000FC#19 4 5#32) :: []) := by
  decide

end Sys2Proof.Tests
end

/-! # What every step keeps

A property that the commands and the port keep one by one is kept by every step. The properties of the queue
and the node store speak of a few fields only, so most of the cases are about nothing that they see. -/

namespace Sys2Proof.Machine

/-! ## The port -/

/-- What a host access keeps: what holds of the state itself, after a draw, with OVERRUN set, and after a write of a
place of the map, and what the response does not touch. -/
theorem portTurn_keeps {P : State → Prop} {s t : State} {a : Access}
    (respond : ∀ {u : State} (r : PortResp), P u → P (u.respond r))
    (same : P s) (drawn : P { s with draws := s.draws + 1 }) (overrun : P { s with overrun := true })
    (written : ∀ (pl : Place) (v : Word), pl.inRange = true → P (s.writePlace pl v)) (h : portTurn a s = .next t) :
    P t := by
  obtain ⟨-, r, u, hu, hr, rfl⟩ := portTurn_cases h
  refine respond r ?_
  obtain ⟨pl, -, hin, ⟨-, -, -, ⟨-, rfl⟩ | ⟨-, -, rfl⟩⟩ | ⟨-, -, v, -, -, ⟨-, rfl⟩ | ⟨-, rfl⟩⟩⟩ := access_cases hu hr
  · exact same
  · exact drawn
  · exact overrun
  · exact written pl v hin

/-! ## The builder's part of a state -/

/-- A state with only what the invariants of 10_state.md R58 speak of: the node store, the heap, their counts,
ROOT and the two flags. -/
def State.builder (s : State) : State :=
  { State.reset with
    treeValid := s.treeValid
    codesValid := s.codesValid
    nodeCount := s.nodeCount
    pqSize := s.pqSize
    root := s.root
    mem := { Memory.empty with node := s.mem.node, heap := s.mem.heap }
    epoch := s.epoch }

theorem builder_writePlace (s : State) (pl : Place) (v : Word) : (s.writePlace pl v).builder = s.builder := by
  cases pl with
  | reg r => cases r <;> rfl
  | _ => simp [State.writePlace, State.builder]

theorem builder_encode {s t : State} (h : exec .encode s = .next t) : t.builder = s.builder := by
  obtain ⟨bit, n, rfl⟩ | ⟨e, i0, i1, bit, rfl⟩ := execEncode_cases h <;> rfl

theorem builder_decode {s t : State} (h : exec .decode s = .next t) : t.builder = s.builder := by
  obtain ⟨out, n, rfl⟩ | ⟨e, i0, i1, out, rfl⟩ := execDecode_cases h <;> rfl

theorem builder_portTurn {s t : State} {a : Access} (h : portTurn a s = .next t) : t.builder = s.builder :=
  portTurn_keeps (P := fun u => u.builder = s.builder) (fun _ hu => hu) rfl rfl rfl
    (fun pl v _ => builder_writePlace s pl v) h

/-- Reset discards tree and queue as CLEAR does (70_reset_and_hazards.md R290). -/
theorem builder_driveReset (s : State) (level : Bool) :
    (s.driveReset level).builder = s.builder ∨ ∃ u : State, (s.driveReset level).builder = u.cleared.builder := by
  obtain h | h := driveReset_cases s level
  · exact .inl (by rw [h])
  · exact .inr ⟨s.driveReset level, by rw [h]; rfl⟩

/-! ## The counts -/

/-- What taking the first entry k out of the queue leaves (40_priority_queue.md R144, R146). -/
structure Extracted (s : State) (k : NodeIdx) (t : State) : Prop where
  ok : pqExtractMin .index s = .ok k t
  pqSize : t.pqSize.toNat + 1 = s.pqSize.toNat
  nodeCount : t.nodeCount = s.nodeCount
  queue : s.queue.Perm (k :: t.queue)
  heap : HeapOrdered .index s → HeapOrdered .index t

theorem exists_extracted {s : State} (h1 : 1 ≤ s.pqSize.toNat) : ∃ k t, Extracted s k t := by
  obtain ⟨h, e, hq, hh⟩ := pqExtractMin_ok .index (s := s) (by bv_omega)
  refine ⟨_, _, e, ?_, rfl, hq, hh⟩
  simp only [State.tick_pqSize, State.withQueue_pqSize]
  bv_omega

/-- The parts of a merge step (41_tree_builder.md R163): two extractions, then the new node's insertion. -/
theorem mergeStep_parts {s t : State} (h2 : 2 ≤ s.pqSize.toNat) (h : mergeStep .index s = .ok () t) :
    ∃ l r s1 s2, Extracted s l s1 ∧ Extracted s1 r s2 ∧
      t = pqInsert .index (s2.nodeCount.setWidth 9) (s2.appendNode (s2.mergedNode l r)) := by
  obtain ⟨l, s1, x1⟩ := exists_extracted (s := s) (by omega)
  have hp1 := x1.pqSize
  obtain ⟨r, s2, x2⟩ := exists_extracted (s := s1) (by omega)
  refine ⟨l, r, s1, s2, x1, x2, ?_⟩
  simp only [mergeStep, x1.ok, x2.ok, Cmd.bind_ok, Cmd.ok.injEq, true_and] at h
  exact h.symm

/-- Every entry of the queue names a live node (10_state.md R58 (b)). -/
abbrev QueueLive (s : State) : Prop := ∀ q ∈ s.queue, q.toNat < s.nodeCount.toNat

theorem heapIn_mem_queue {s : State} {j : Nat} (hj : j < s.pqSize.toNat) : heapIn s.epoch s.mem.heap j ∈ s.queue :=
  List.mem_map.2 ⟨j, List.mem_range.2 hj, rfl⟩

/-- A new node is no entry of the queue yet, so the order of the entries' keys does not see it. -/
theorem heapOrdered_appendNode {s : State} (nd : Node) (hlive : QueueLive s) (hh : HeapOrdered .index s) :
    HeapOrdered .index (s.appendNode nd) := by
  intro c hc hc1 h0
  have hkey := hh c hc hc1 h0
  have hparent := hlive _ (heapIn_mem_queue (j := (c - 1) / 2) (by simp only [State.appendNode_pqSize] at hc; omega))
  have hchild := hlive _ (heapIn_mem_queue hc)
  simp only [State.keyLe, nodeAt_appendNode, State.appendNode_epoch, State.appendNode_mem] at hkey ⊢
  rwa [if_neg hparent.ne, if_neg hchild.ne]

theorem mergeStep_heapOrdered {s t : State} (h2 : 2 ≤ s.pqSize.toNat) (hq : s.pqSize.toNat ≤ 256)
    (h : mergeStep .index s = .ok () t) (hlive : QueueLive s) (hh : HeapOrdered .index s) : HeapOrdered .index t := by
  obtain ⟨l, r, s1, s2, x1, x2, rfl⟩ := mergeStep_parts h2 h
  have hlive2 : QueueLive s2 := fun q hq => by
    rw [x2.nodeCount, x1.nodeCount]
    exact hlive q (x1.queue.mem_iff.2 (.tail _ (x2.queue.mem_iff.2 (.tail _ hq))))
  have hp1 := x1.pqSize
  have hp2 := x2.pqSize
  obtain ⟨-, -, -, hins⟩ := pqInsert_spec .index (s2.nodeCount.setWidth 9) (s := s2.appendNode (s2.mergedNode l r))
    (by rw [State.appendNode_pqSize]; omega)
  exact hins (heapOrdered_appendNode _ hlive2 (x2.heap (x1.heap hh)))

/-- What a merge of l and r, the first two entries that the queue yields, leaves (41_tree_builder.md R163). -/
structure Merged (s : State) (l r : NodeIdx) (rest : List NodeIdx) (t : State) : Prop where
  two : 2 ≤ s.pqSize.toNat
  oldQueue : s.queue.Perm (l :: r :: rest)
  newQueue : t.queue.Perm (s.nodeCount.setWidth 9 :: rest)
  heap : QueueLive s → HeapOrdered .index s → HeapOrdered .index t
  index : (s.nodeCount.setWidth 9).toNat = s.nodeCount.toNat
  nodeCount : t.nodeCount.toNat = s.nodeCount.toNat + 1
  pqSize : t.pqSize.toNat + 1 = s.pqSize.toNat
  newNode : t.nodeAt s.nodeCount.toNat = s.mergedNode l r
  oldNodes : ∀ k, k ≠ s.nodeCount.toNat → t.nodeAt k = s.nodeAt k
  treeValid : t.treeValid = s.treeValid
  codesValid : t.codesValid = s.codesValid
  root : t.root = s.root
  errCode : t.errCode = s.errCode

theorem mergeStep_merged {s : State} (hc : CountsFit s) (h2 : 2 ≤ s.pqSize.toNat) :
    ∃ l r rest t, mergeStep .index s = .ok () t ∧ Merged s l r rest t := by
  obtain ⟨hsum, -, hq⟩ := hc
  obtain ⟨r, rest, t, e, ⟨h, ht⟩, hold, hnew⟩ := mergeStep_ok .index h2 hq
  have hnode (k : Nat) :
      t.nodeAt k = if k = s.nodeCount.toNat then s.mergedNode (s.heapAt 0) r else s.nodeAt k := by
    rw [ht]; exact nodeAt_appendNode s _ k
  refine ⟨s.heapAt 0, r, rest, t, e,
    { two := h2, oldQueue := hold, newQueue := hnew, heap := mergeStep_heapOrdered h2 hq e
      index := ?index, nodeCount := ?count, pqSize := ?size
      newNode := by simp [hnode], oldNodes := fun k hk => by simp [hnode, hk]
      treeValid := by rw [ht], codesValid := by rw [ht], root := by rw [ht], errCode := by rw [ht] }⟩
  case index => rw [BitVec.toNat_setWidth]; omega
  case count => rw [ht]; simp only; bv_omega
  case size => rw [ht]; simp only; bv_omega

theorem merged_of_mergeStep {s t : State} (hc : CountsFit s) (h2 : 2 ≤ s.pqSize.toNat)
    (h : mergeStep .index s = .ok () t) : ∃ l r rest, Merged s l r rest t := by
  obtain ⟨l, r, rest, t', e, hm⟩ := mergeStep_merged hc h2
  obtain rfl : t' = t := by rw [e] at h; injection h
  exact ⟨l, r, rest, hm⟩

theorem Merged.countsFit {s t : State} {l r : NodeIdx} {rest : List NodeIdx} (hm : Merged s l r rest t)
    (hc : CountsFit s) : CountsFit t := by
  obtain ⟨hsum, -, hq⟩ := hc
  have h2 := hm.two
  have hn := hm.nodeCount
  have hp := hm.pqSize
  exact ⟨by omega, by omega, by omega⟩

theorem AlphabetOk.one_le {s : State} (ha : AlphabetOk s) : 1 ≤ s.alphaN.toNat := by
  obtain ⟨h, -⟩ := ha
  exact h

theorem AlphabetOk.le_max {s : State} (ha : AlphabetOk s) : s.alphaN.toNat ≤ 256 := by
  obtain ⟨-, h, -⟩ := ha
  exact h

/-- What SEED leaves of a legal alphabet (41_tree_builder.md R160-R162). -/
structure Seeded (s t : State) : Prop where
  nodeCount : t.nodeCount.toNat = s.alphaN.toNat
  pqSize : t.pqSize.toNat = s.alphaN.toNat
  leaves : ∀ k < s.alphaN.toNat, t.nodeAt k = s.leafOf k
  queue : t.queue.Perm ((List.range s.alphaN.toNat).map (BitVec.ofNat 9))
  heap : HeapOrdered .index t
  treeValid : t.treeValid = false
  codesValid : t.codesValid = false
  root : t.root = nil
  errCode : t.errCode = s.errCode

/-- The state that SEED completes from, where its checks pass (R160). -/
def State.seeded (s : State) : State :=
  pqBuild .index s.alphaN.toNat (seedLeaves s.alphaN.toNat s)

theorem seeded_spec {s : State} (ha : AlphabetOk s) : Seeded s s.seeded := by
  have hn := ha.le_max
  obtain ⟨h, e, hq, hh⟩ := pqBuild_spec .index hn (seedLeaves s.alphaN.toNat s)
  have e' : s.seeded = ((seedLeaves s.alphaN.toNat s).withQueue h (BitVec.ofNat 9 s.alphaN.toNat)).tick .index := e
  refine
    { nodeCount := ?count, pqSize := ?size, leaves := fun k hk => ?leaf, queue := hq, heap := hh
      treeValid := by simp [e'], codesValid := by simp [e'], root := by simp [e'], errCode := by simp [e'] }
  case count =>
    simp only [e', State.tick_nodeCount, State.withQueue_nodeCount, seedLeaves_nodeCount, BitVec.toNat_ofNat]; omega
  case size => simp only [e', State.tick_pqSize, State.withQueue_pqSize, BitVec.toNat_ofNat]; omega
  case leaf => rw [e', nodeAt_withQueue, nodeAt_seedLeaves, if_pos hk]

theorem Seeded.countsFit {s t : State} (hs : Seeded s t) (ha : AlphabetOk s) : CountsFit t := by
  have hn := ha.le_max
  have h1 := hs.nodeCount
  have h2 := hs.pqSize
  exact ⟨by omega, by omega, by omega⟩

/-- What taking the root of a queue with one entry leaves (41_tree_builder.md R165). -/
structure Rooted (s t : State) : Prop where
  nodeCount : t.nodeCount = s.nodeCount
  pqSize : t.pqSize = 0#9
  nodeAt : t.nodeAt = s.nodeAt
  treeValid : t.treeValid = true
  codesValid : t.codesValid = s.codesValid
  root : s.queue = [t.root]
  errCode : t.errCode = s.errCode

theorem takeRoot_rooted {s : State} (h1 : s.pqSize = 1#9) : ∃ t, takeRoot .index s = .ok () t ∧ Rooted s t := by
  obtain ⟨h, e⟩ := takeRoot_ok .index (s := s) (by rw [h1]; decide)
  refine ⟨_, e, rfl, by simp [h1], rfl, rfl, rfl, ?_, rfl⟩
  simp [State.queue, h1]

theorem rooted_of_takeRoot {s t : State} (h1 : s.pqSize = 1#9) (h : takeRoot .index s = .ok () t) : Rooted s t := by
  obtain ⟨t', e, hr⟩ := takeRoot_rooted h1
  obtain rfl : t' = t := by rw [e] at h; injection h
  exact hr

theorem Rooted.countsFit {s t : State} (hr : Rooted s t) (hc : CountsFit s) : CountsFit t := by
  obtain ⟨-, hn, -⟩ := hc
  simp only [CountsFit, hr.nodeCount, hr.pqSize, BitVec.toNat_ofNat]
  omega

/-! ## Step invariants -/

/-- What has to be shown of a property so that every step keeps it: one field for each thing that a step can do.
The counts are in range in every state that the builder's commands pass through. -/
structure StepInvariant (P : State → Prop) : Prop where
  host : ∀ {s : State} (rest : List HostEvent), P s → P { s with host := rest }
  succeed : ∀ {s : State}, P s → P s.succeed
  raise : ∀ {s : State} (e : ErrCode) (i0 i1 : Word), P s → P (s.raise e i0 i1)
  cleared : ∀ {s : State}, P s → P s.cleared
  seeded : ∀ {s : State}, P s → AlphabetOk s → P s.seeded
  merged : ∀ {s t : State}, CountsFit s → P s → 2 ≤ s.pqSize.toNat → mergeStep .index s = .ok () t → P t
  rooted : ∀ {s t : State}, CountsFit s → P s → s.pqSize = 1#9 → takeRoot .index s = .ok () t → P t
  tabled : ∀ {s : State} {code : Ram CodeEntry}, P s → s.treeValid = true → genTable s = some code →
    P (s.withTable code)
  encoded : ∀ {s t : State}, P s → exec .encode s = .next t → P t
  decoded : ∀ {s t : State}, P s → exec .decode s = .next t → P t
  driven : ∀ {s : State} (level : Bool), P s → P (s.driveReset level)
  accessed : ∀ {s t : State} {a : Access}, P s → portTurn a s = .next t → P t

namespace StepInvariant

variable {P : State → Prop} (I : StepInvariant P)
include I

/-- BUILD_TREE's loop keeps a step invariant (41_tree_builder.md R166). -/
theorem mergeAll {rounds : Nat} {s t : State} (hc : CountsFit s) (hs : P s)
    (h : mergeAll .index rounds s = .ok () t) : CountsFit t ∧ P t := by
  induction rounds generalizing s with
  | zero => cases h; exact ⟨hc, hs⟩
  | succ n ih =>
    simp only [Machine.mergeAll] at h
    split at h
    · rename_i h2
      obtain ⟨l, r, rest, u, e, hm⟩ := mergeStep_merged hc h2
      rw [e] at h
      exact ih (hm.countsFit hc) (I.merged hc hs h2 e) h
    · cases h; exact ⟨hc, hs⟩

theorem buildTree {s t : State} (hs : P s) (h : exec .buildTree s = .next t) : P t := by
  simp only [Machine.exec, execBuildTree, buildBody, Host.Outcome.next.injEq] at h
  cases he : seedError s with
  | some x =>
    obtain ⟨e, i0, i1⟩ := x
    have e1 : seedBody .index s = .raised e i0 i1 s := by simp [seedBody, he]
    rw [Config.tieBreak, e1, Cmd.bind_raised, Cmd.complete_raised] at h
    exact h ▸ I.raise e i0 i1 hs
  | none =>
    have ha := (seedError_none_iff s).1 he
    have hseed := seeded_spec ha
    have hcs := hseed.countsFit ha
    have hq1 : 1 ≤ s.seeded.pqSize.toNat := hseed.pqSize ▸ ha.one_le
    have hq2 : s.seeded.pqSize.toNat ≤ 256 := hseed.pqSize ▸ ha.le_max
    have e1 : seedBody .index s = .ok () s.seeded := seedBody_ok .index ha
    obtain ⟨u, e2, hp, -⟩ := mergeAll_ok .index s.seeded.pqSize.toNat hq1 hq2 (by omega)
    obtain ⟨v, e3, -⟩ := takeRoot_rooted hp
    obtain ⟨hcu, hu⟩ := I.mergeAll hcs (I.seeded hs ha) e2
    rw [Config.tieBreak, e1, Cmd.bind_ok, e2, Cmd.bind_ok, e3, Cmd.complete_ok] at h
    exact h ▸ I.succeed (I.rooted hcu hu hp e3)

theorem exec {i : Instr} {s t : State} (hc : CountsFit s) (hs : P s) (h : exec i s = .next t) : P t := by
  cases i with
  | nop =>
    obtain rfl : s.succeed = t := by simpa [Machine.exec, execNop] using h
    exact I.succeed hs
  | clear =>
    obtain rfl : s.cleared.succeed = t := by simpa [Machine.exec, execClear] using h
    exact I.succeed (I.cleared hs)
  | seed =>
    obtain ⟨e, i0, i1, -, rfl⟩ | ⟨ha, rfl⟩ := execSeed_cases h
    · exact I.raise e i0 i1 hs
    · exact I.succeed (I.seeded hs ha)
  | merge =>
    obtain ⟨-, rfl⟩ | ⟨h2, rfl⟩ := execMerge_cases h
    · exact I.raise _ _ _ hs
    · obtain ⟨l, r, rest, u, e, -⟩ := mergeStep_merged hc h2
      rw [e]
      exact I.succeed (I.merged hc hs h2 e)
  | finish =>
    obtain ⟨-, rfl⟩ | ⟨-, rfl⟩ | ⟨h1, rfl⟩ := execFinish_cases h
    · exact I.raise _ _ _ hs
    · exact I.raise _ _ _ hs
    · obtain ⟨u, e, -⟩ := takeRoot_rooted h1
      rw [e]
      exact I.succeed (I.rooted hc hs h1 e)
  | buildTree => exact I.buildTree hs h
  | genCodes =>
    obtain ⟨-, rfl⟩ | ⟨hv, code, hg, rfl⟩ := execGenCodes_cases h
    · exact I.raise _ _ _ hs
    · exact I.succeed (I.tabled hs hv hg)
  | encode => exact I.encoded hs h
  | decode => exact I.decoded hs h

/-- Every step keeps a step invariant, where the counts are in range. -/
theorem step {s t : State} (hc : CountsFit s) (hs : P s) (h : step s = .next t) : P t := by
  obtain ⟨rest, rfl | ⟨w, i, -, -, -, hx⟩ | ⟨w, -, -, rfl⟩ | ⟨level, rfl⟩ | ⟨a, ha⟩⟩ := step_cases h
  · exact I.host rest hs
  · exact I.exec (s := { s with host := rest }) hc (I.host rest hs) hx
  · exact I.raise _ _ _ (I.host rest hs)
  · exact I.driven level (I.host rest hs)
  · exact I.accessed (I.host rest hs) ha

end StepInvariant

/-- What has to be shown of a property that sees the builder's part of a state only. -/
structure BuilderInvariant (P : State → Prop) : Prop where
  builder : ∀ s : State, P s.builder ↔ P s
  cleared : ∀ s : State, P s.cleared
  seeded : ∀ {s t : State}, AlphabetOk s → Seeded s t → P t
  merged : ∀ {s t : State} {l r : NodeIdx} {rest : List NodeIdx}, CountsFit s → P s → Merged s l r rest t → P t
  rooted : ∀ {s t : State}, P s → s.pqSize = 1#9 → Rooted s t → P t
  tabled : ∀ {s : State} (code : Ram CodeEntry), P s → s.treeValid = true → P (s.withTable code)

namespace BuilderInvariant

variable {P : State → Prop} (B : BuilderInvariant P)
include B

theorem congr {s t : State} (h : t.builder = s.builder) (hs : P s) : P t :=
  (B.builder t).1 (h ▸ (B.builder s).2 hs)

theorem stepInvariant : StepInvariant P where
  host {s} _ hs := B.congr (s := s) rfl hs
  succeed {s} hs := B.congr (s := s) rfl hs
  raise {s} _ _ _ hs := B.congr (s := s) rfl hs
  cleared _ := B.cleared _
  seeded _ ha := B.seeded ha (seeded_spec ha)
  merged hc hs h2 h := by
    obtain ⟨l, r, rest, hm⟩ := merged_of_mergeStep hc h2 h
    exact B.merged hc hs hm
  rooted _ hs h1 h := B.rooted hs h1 (rooted_of_takeRoot h1 h)
  tabled hs hv _ := B.tabled _ hs hv
  encoded hs h := B.congr (builder_encode h) hs
  decoded hs h := B.congr (builder_decode h) hs
  driven {s} level hs := by
    obtain h | ⟨u, h⟩ := builder_driveReset s level
    · exact B.congr h hs
    · exact B.congr h (B.cleared u)
  accessed hs h := B.congr (builder_portTurn h) hs

end BuilderInvariant

end Sys2Proof.Machine

/-! # The counts, the canonical memory and the flags -/

namespace Sys2Proof.Machine

/-! ## Counts -/

theorem countsFit_cleared (s : State) : CountsFit s.cleared := by
  simp [CountsFit]

theorem countsFit_builderInvariant : BuilderInvariant CountsFit where
  builder _ := Iff.rfl
  cleared := countsFit_cleared
  seeded ha hs := hs.countsFit ha
  merged hc _ hm := hm.countsFit hc
  rooted hc _ hr := hr.countsFit hc
  tabled _ hc _ := hc

/-! ## The canonical form of the memory (log 18) -/

theorem mergeStep_memoryFits {s t : State} (hw : MemoryFits s) (hc : CountsFit s) (h2 : 2 ≤ s.pqSize.toNat)
    (h : mergeStep .index s = .ok () t) : MemoryFits t := by
  obtain ⟨hsum, hn, hq⟩ := hc
  obtain ⟨l, r, s1, s2, x1, x2, rfl⟩ := mergeStep_parts h2 h
  have hp1 := x1.pqSize
  have hp2 := x2.pqSize
  have hw1 := pqExtractMin_wf .index hw hq x1.ok
  have hw2 := pqExtractMin_wf .index hw1 (by omega) x2.ok
  refine pqInsert_wf .index _ (appendNode_wf _ hw2 ?_) ?_
  · rw [x2.nodeCount, x1.nodeCount]; omega
  · rw [State.appendNode_pqSize]; omega

theorem takeRoot_memoryFits {s t : State} (hw : MemoryFits s) (h1 : s.pqSize = 1#9)
    (h : takeRoot .index s = .ok () t) : MemoryFits t := by
  obtain ⟨h', e, -, -⟩ := pqExtractMin_ok .index (s := s) (by rw [h1]; decide)
  have hw1 := pqExtractMin_wf .index hw (by rw [h1]; decide) e
  simp only [takeRoot, e, Cmd.bind_ok, Cmd.ok.injEq, true_and] at h
  rw [← h]
  exact hw1

theorem withStream_memoryFits {s : State} {bit : Ram Bool} (n : Word) (hw : MemoryFits s)
    (hb : Ram.wf Config.bitMax bit = true) : MemoryFits (s.withStream bit n) := by
  simp only [MemoryFits, memory_wf_iff, State.withStream_mem] at hw ⊢
  obtain ⟨h1, h2, h3, h4, h5, h6, -, h8⟩ := hw
  exact ⟨h1, h2, h3, h4, h5, h6, hb, h8⟩

theorem withOutput_memoryFits {s : State} {out : Ram Sym} (n : Word) (hw : MemoryFits s)
    (ho : Ram.wf Config.outMax out = true) : MemoryFits (s.withOutput out n) := by
  simp only [MemoryFits, memory_wf_iff, State.withOutput_mem] at hw ⊢
  obtain ⟨h1, h2, h3, h4, h5, h6, h7, -⟩ := hw
  exact ⟨h1, h2, h3, h4, h5, h6, h7, ho⟩

theorem withTable_memoryFits {s : State} {code : Ram CodeEntry} (hw : MemoryFits s)
    (hk : Ram.wf Config.nMax code = true) : MemoryFits (s.withTable code) := by
  simp only [MemoryFits, memory_wf_iff, State.withTable_mem] at hw ⊢
  obtain ⟨h1, h2, h3, h4, -, h6⟩ := hw
  exact ⟨h1, h2, h3, h4, hk, h6⟩

theorem MemoryFits.bit {s : State} (hw : MemoryFits s) : Ram.wf Config.bitMax s.mem.bit = true := by
  obtain ⟨-, -, -, -, -, -, h, -⟩ := (memory_wf_iff s.mem).1 hw
  exact h

theorem MemoryFits.out {s : State} (hw : MemoryFits s) : Ram.wf Config.outMax s.mem.out = true := by
  obtain ⟨-, -, -, -, -, -, -, h⟩ := (memory_wf_iff s.mem).1 hw
  exact h

/-- ENCODE checks the end of a codeword before it writes it (43_encoder.md R211). -/
theorem encodeFrom_memoryFits {s : State} (hw : MemoryFits s) (left p q : Nat) {bit : Ram Bool}
    (hb : Ram.wf Config.bitMax bit = true) : MemoryFits (encodeFrom s left p q bit).complete := by
  induction left generalizing p q bit with
  | zero => exact withStream_memoryFits (BitVec.ofNat 32 q) hw hb
  | succ n ih =>
    simp only [encodeFrom]
    split
    · exact withStream_memoryFits 0#32 hw hb
    · split
      · exact withStream_memoryFits 0#32 hw hb
      · exact ih _ _ (writeCodeword_wf hb (by omega))

theorem encode_memoryFits {s t : State} (hw : MemoryFits s) (h : exec .encode s = .next t) : MemoryFits t := by
  simp only [exec, execEncode, encodeBody, Host.Outcome.next.injEq] at h
  rw [← h]
  split
  · exact withStream_memoryFits 0#32 hw hw.bit
  · split
    · exact withStream_memoryFits 0#32 hw hw.bit
    · exact encodeFrom_memoryFits hw s.textLen.toNat 0 0 hw.bit

/-- DECODE emits at most one symbol for each of at most BIT_MAX bits (44_decoder.md R237). -/
theorem decode_memoryFits {s t : State} (hw : MemoryFits s) (h : exec .decode s = .next t) : MemoryFits t := by
  simp only [exec, execDecode, decodeBody, Host.Outcome.next.injEq] at h
  rw [← h]
  split
  · exact withOutput_memoryFits 0#32 hw hw.out
  · split
    · exact withOutput_memoryFits 0#32 hw hw.out
    · rename_i hlen
      have hwalk : Ram.wf Config.outMax (walkFrom s s.bitLen.toNat 0 s.atRoot).out = true := by
        refine walk_out_wf hw.out ?_
        simp only [State.atRoot, Config.outMax, Config.bitMax] at hlen ⊢
        omega
      split
      · exact withOutput_memoryFits 0#32 hw hwalk
      · exact withOutput_memoryFits (BitVec.ofNat 32 (walkFrom s s.bitLen.toNat 0 s.atRoot).emitted) hw hwalk

theorem portTurn_memoryFits {s t : State} {a : Access} (hw : MemoryFits s) (h : portTurn a s = .next t) :
    MemoryFits t :=
  portTurn_keeps (P := MemoryFits) (fun _ hu => hu) hw hw hw (fun _ v hin => writePlace_wf v hw hin) h

theorem driveReset_memoryFits {s : State} (level : Bool) (hw : MemoryFits s) : MemoryFits (s.driveReset level) := by
  obtain h | h := driveReset_cases s level
  · rw [h]; exact hw
  · rw [h]; exact reset_memory_wf

theorem memoryFits_stepInvariant : StepInvariant MemoryFits where
  host _ hw := hw
  succeed hw := hw
  raise _ _ _ hw := hw
  cleared hw := hw
  seeded hw ha := pqBuild_wf .index (seedLeaves_wf hw ha.le_max) ha.le_max
  merged hc hw h2 h := mergeStep_memoryFits hw hc h2 h
  rooted _ hw h1 h := takeRoot_memoryFits hw h1 h
  tabled hw _ hg := withTable_memoryFits hw (genTable_wf hg)
  encoded := encode_memoryFits
  decoded := decode_memoryFits
  driven := driveReset_memoryFits
  accessed := portTurn_memoryFits

/-! ## Flags and the error code -/

theorem flagsAgree_cleared (s : State) : FlagsAgree s.cleared := by
  simp [FlagsAgree]

/-- A queue that is not empty is one of an unfinished tree (41_tree_builder.md R170). -/
theorem FlagsAgree.treeValid_of_queue {s : State} (hf : FlagsAgree s) (hq : 1 ≤ s.pqSize.toNat) :
    s.treeValid = false := by
  obtain ⟨-, hempty, -⟩ := hf
  cases hv : s.treeValid with
  | false => rfl
  | true => rw [hempty hv] at hq; simp at hq

theorem Seeded.flagsAgree {s t : State} (hs : Seeded s t) : FlagsAgree t := by
  simp [FlagsAgree, hs.treeValid, hs.codesValid, hs.root]

theorem Merged.flagsAgree {s t : State} {l r : NodeIdx} {rest : List NodeIdx} (hm : Merged s l r rest t)
    (hf : FlagsAgree s) : FlagsAgree t := by
  have hv := hf.treeValid_of_queue (Nat.le_of_succ_le hm.two)
  obtain ⟨hcodes, -, hroot⟩ := hf
  simp only [FlagsAgree, hm.treeValid, hm.codesValid, hm.root]
  exact ⟨hcodes, fun h => absurd h (by simp [hv]), hroot⟩

theorem Rooted.flagsAgree {s t : State} (hr : Rooted s t) : FlagsAgree t := by
  simp [FlagsAgree, hr.treeValid, hr.pqSize]

theorem withTable_flagsAgree {s : State} (code : Ram CodeEntry) (hf : FlagsAgree s) (hv : s.treeValid = true) :
    FlagsAgree (s.withTable code) := by
  obtain ⟨-, hempty, hroot⟩ := hf
  exact ⟨fun _ => hv, hempty, hroot⟩

theorem flagsAgree_builderInvariant : BuilderInvariant FlagsAgree where
  builder _ := Iff.rfl
  cleared := flagsAgree_cleared
  seeded _ hs := hs.flagsAgree
  merged _ hf hm := hm.flagsAgree hf
  rooted _ _ hr := hr.flagsAgree
  tabled := withTable_flagsAgree

/-- The number of an error code is one of the numbers of 60_exceptions.md R260. -/
theorem code_mem_codes (e : ErrCode) : e.code ∈ ErrCode.all.map ErrCode.code :=
  List.mem_map_of_mem (by cases e <;> decide)

theorem errCodeLegal_raise (s : State) (e : ErrCode) (i0 i1 : Word) : ErrCodeLegal (s.raise e i0 i1) :=
  code_mem_codes e

theorem writePlace_errCodeLegal {s : State} (pl : Place) (v : Word) (he : ErrCodeLegal s) :
    ErrCodeLegal (s.writePlace pl v) := by
  cases pl with
  | reg r =>
    cases r with
    | cmd => exact code_mem_codes .none
    | _ => exact he
  | _ => simpa only [ErrCodeLegal, State.writePlace, State.withMem_errCode] using he

theorem portTurn_errCodeLegal {s t : State} {a : Access} (he : ErrCodeLegal s) (h : portTurn a s = .next t) :
    ErrCodeLegal t :=
  portTurn_keeps (P := ErrCodeLegal) (fun _ hu => hu) he he he (fun pl v _ => writePlace_errCodeLegal pl v he) h

theorem errCodeLegal_stepInvariant : StepInvariant ErrCodeLegal where
  host _ he := he
  succeed he := he
  raise e i0 i1 _ := errCodeLegal_raise _ e i0 i1
  cleared he := he
  seeded he ha := by
    rw [ErrCodeLegal, (seeded_spec ha).errCode]; exact he
  merged hc he h2 h := by
    obtain ⟨l, r, rest, hm⟩ := merged_of_mergeStep hc h2 h
    rw [ErrCodeLegal, hm.errCode]; exact he
  rooted _ he h1 h := by
    rw [ErrCodeLegal, (rooted_of_takeRoot h1 h).errCode]; exact he
  tabled he _ _ := he
  encoded he h := by
    obtain ⟨bit, n, rfl⟩ | ⟨e, i0, i1, bit, rfl⟩ := execEncode_cases h
    · exact he
    · exact errCodeLegal_raise _ e i0 i1
  decoded he h := by
    obtain ⟨out, n, rfl⟩ | ⟨e, i0, i1, out, rfl⟩ := execDecode_cases h
    · exact he
    · exact errCodeLegal_raise _ e i0 i1
  driven {s} level he := by
    obtain h | h := driveReset_cases s level
    · rw [h]; exact he
    · rw [h]; exact code_mem_codes .none
  accessed := portTurn_errCodeLegal

/-! ## The obligations -/

/-- Settles O53: two step invariants, the memory's resting on the counts. -/
theorem stepKeepsMemoryCanonicalAndCountsInRange : Obligations.StepKeepsMemoryCanonicalAndCountsInRange := by
  intro s t hw hc h
  exact ⟨memoryFits_stepInvariant.step hc hw h, countsFit_builderInvariant.stepInvariant.step hc hc h⟩

/-- Settles O54: two step invariants, the flags' and the error code's. -/
theorem stepKeepsTheFlagsAgreeing : Obligations.StepKeepsTheFlagsAgreeing := by
  intro s t hc hf he h
  exact ⟨flagsAgree_builderInvariant.stepInvariant.step hc hf h, errCodeLegal_stepInvariant.step hc he h⟩

end Sys2Proof.Machine

/-! # The queue, the node store and ownership -/

namespace Sys2Proof.Machine

/-! ## The queue as a heap -/

theorem queue_eq_nil {s : State} (h : s.pqSize = 0#9) : s.queue = [] := by
  simp [State.queue, h]

theorem before_keyLe {s : State} {a b : NodeIdx} (h : s.before .index a b = true) : s.keyLe .index a b :=
  (before_decides s .index).of_before h

/-- The queue is sound when its entries are live and distinct and in heap order; between distinct entries the
order of keys is strict. -/
theorem queueSound_iff (s : State) : QueueSound s ↔ QueueLive s ∧ s.queue.Nodup ∧ HeapOrdered .index s := by
  have hlive : (∀ j < s.pqSize.toNat, (s.heapAt j).toNat < s.nodeCount.toNat) ↔ QueueLive s := by
    simp [QueueLive, State.queue]
  rw [QueueSound, hlive]
  refine and_congr_right fun _ => and_congr_right fun hnd => ⟨fun h c hc hc1 _ => ?_, fun h j hj hj1 => ?_⟩
  · exact before_keyLe (h c hc hc1)
  · refine before_of_keyLe (h j hj hj1 (Nat.zero_le _)) fun heq => ?_
    have hinj := (List.nodup_map_iff_inj_on List.nodup_range).1 hnd
    have := hinj ((j - 1) / 2) (List.mem_range.2 (by omega)) j (List.mem_range.2 hj) heq
    omega

theorem queueSound_of_empty {s : State} (h : s.pqSize = 0#9) : QueueSound s := by
  rw [queueSound_iff]
  refine ⟨by simp [QueueLive, queue_eq_nil h], by simp [queue_eq_nil h], fun c hc => ?_⟩
  simp [h] at hc

theorem toNat_nodeIdx {i : Nat} (hi : i < 512) : (BitVec.ofNat 9 i).toNat = i := by
  rw [BitVec.toNat_ofNat]; omega

/-- The entries that SEED queues are the indices below ALPHA_N. -/
theorem toNat_lt_of_mem_leaves {n : Nat} {q : NodeIdx} (hn : n ≤ 256) (hq : q ∈ (List.range n).map (BitVec.ofNat 9)) :
    q.toNat < n := by
  obtain ⟨k, hk, rfl⟩ := List.mem_map.1 hq
  rw [List.mem_range] at hk
  rwa [toNat_nodeIdx (by omega)]

theorem Seeded.queueLive {s t : State} (hs : Seeded s t) (ha : AlphabetOk s) : QueueLive t := by
  intro q hq
  rw [hs.nodeCount]
  exact toNat_lt_of_mem_leaves ha.le_max (hs.queue.mem_iff.1 hq)

theorem Seeded.queueSound {s t : State} (hs : Seeded s t) (ha : AlphabetOk s) : QueueSound t := by
  refine (queueSound_iff t).2 ⟨hs.queueLive ha, hs.queue.nodup_iff.2 ?_, hs.heap⟩
  rw [List.nodup_map_iff_inj_on List.nodup_range]
  intro i hi j hj hij
  have hn := ha.le_max
  rw [List.mem_range] at hi hj
  have := congrArg BitVec.toNat hij
  rwa [toNat_nodeIdx (by omega), toNat_nodeIdx (by omega)] at this

namespace Merged

variable {s t : State} {l r : NodeIdx} {rest : List NodeIdx} (hm : Merged s l r rest t) (hlive : QueueLive s)
include hm hlive

theorem left_live : l.toNat < s.nodeCount.toNat :=
  hlive l (hm.oldQueue.mem_iff.2 (by simp))

theorem right_live : r.toNat < s.nodeCount.toNat :=
  hlive r (hm.oldQueue.mem_iff.2 (by simp))

theorem rest_live : ∀ q ∈ rest, q.toNat < s.nodeCount.toNat := fun q hq =>
  hlive q (hm.oldQueue.mem_iff.2 (by simp [hq]))

theorem queueLive : QueueLive t := by
  intro q hq
  rw [hm.nodeCount]
  obtain rfl | hrest := List.mem_cons.1 (hm.newQueue.mem_iff.1 hq)
  · rw [hm.index]; omega
  · exact Nat.lt_succ_of_lt (hm.rest_live hlive q hrest)

omit hlive in
theorem queueSound (hq : QueueSound s) : QueueSound t := by
  obtain ⟨hlive, hnd, hh⟩ := (queueSound_iff s).1 hq
  refine (queueSound_iff t).2 ⟨hm.queueLive hlive, hm.newQueue.nodup_iff.2 (List.nodup_cons.2 ⟨fun hmem => ?_, ?_⟩),
    hm.heap hlive hh⟩
  · have := hm.rest_live hlive _ hmem
    rw [hm.index] at this
    omega
  · exact (List.nodup_cons.1 (List.nodup_cons.1 (hm.oldQueue.nodup_iff.1 hnd)).2).2

end Merged

theorem queueSound_builderInvariant : BuilderInvariant QueueSound where
  builder _ := Iff.rfl
  cleared _ := queueSound_of_empty rfl
  seeded ha hs := hs.queueSound ha
  merged _ hq hm := hm.queueSound hq
  rooted _ _ hr := queueSound_of_empty hr.pqSize
  tabled _ hq _ := hq

/-! ## The weights -/

theorem weightsFit_of_empty {s : State} (h : s.pqSize = 0#9) : WeightsFit s := by
  simp [WeightsFit, State.queueWeight, queue_eq_nil h]

/-- At most 256 frequencies of 32 bits (00_scope.md R10). -/
theorem Seeded.weightsFit {s t : State} (hs : Seeded s t) (ha : AlphabetOk s) : WeightsFit t := by
  have hn := ha.le_max
  have hw : ∀ k ∈ (List.range s.alphaN.toNat).map (BitVec.ofNat 9),
      (t.nodeAt k.toNat).weight.toNat ≤ 2 ^ 32 - 1 := by
    intro k hk
    rw [hs.leaves _ (toNat_lt_of_mem_leaves hn hk)]
    simp only [State.leafOf, BitVec.toNat_setWidth]
    omega
  have hsum := List.sum_le_card_nsmul
    (((List.range s.alphaN.toNat).map (BitVec.ofNat 9)).map fun k => (t.nodeAt k.toNat).weight.toNat) (2 ^ 32 - 1)
    (by simpa using hw)
  rw [WeightsFit, State.queueWeight, (hs.queue.map _).sum_eq]
  refine hsum.trans ?_
  simp only [List.length_map, List.length_range, smul_eq_mul]
  exact Nat.mul_le_mul_right _ hn

namespace Merged

variable {s t : State} {l r : NodeIdx} {rest : List NodeIdx} (hm : Merged s l r rest t) (hlive : QueueLive s)
include hm

theorem queueWeight_old : s.queueWeight = (s.nodeAt l.toNat).weight.toNat + (s.nodeAt r.toNat).weight.toNat +
    (rest.map fun k => (s.nodeAt k.toNat).weight.toNat).sum := by
  rw [State.queueWeight, (hm.oldQueue.map _).sum_eq]
  simp [Nat.add_assoc]

/-- The sum of two entries' weights does not overflow (00_scope.md R10). -/
theorem weight_exact (hw : WeightsFit s) : (t.nodeAt s.nodeCount.toNat).weight.toNat =
    (s.nodeAt l.toNat).weight.toNat + (s.nodeAt r.toNat).weight.toNat := by
  rw [WeightsFit, hm.queueWeight_old] at hw
  rw [hm.newNode]
  simp only [State.mergedNode, BitVec.toNat_add]
  omega

include hlive

theorem rest_nodes : ∀ q ∈ rest, t.nodeAt q.toNat = s.nodeAt q.toNat := fun q hq =>
  hm.oldNodes _ (hm.rest_live hlive q hq).ne

theorem weightsFit (hw : WeightsFit s) : WeightsFit t := by
  have hrest : rest.map (fun k => (t.nodeAt k.toNat).weight.toNat) =
      rest.map (fun k => (s.nodeAt k.toNat).weight.toNat) :=
    List.map_congr_left fun q hq => by rw [hm.rest_nodes hlive q hq]
  have hsame : t.queueWeight = s.queueWeight := by
    rw [hm.queueWeight_old, State.queueWeight, (hm.newQueue.map _).sum_eq, List.map_cons, List.sum_cons, hm.index,
      hm.weight_exact hw, hrest]
  rw [WeightsFit, hsame]
  exact hw

end Merged

/-! ## The node store -/

theorem Seeded.nodesSound {s t : State} (hs : Seeded s t) : NodesSound t := by
  intro k hk
  rw [hs.nodeCount] at hk
  simp [hs.leaves k hk, State.leafOf]

theorem Merged.nodesSound {s t : State} {l r : NodeIdx} {rest : List NodeIdx} (hm : Merged s l r rest t)
    (hlive : QueueLive s) (hw : WeightsFit s) (hn : NodesSound s) : NodesSound t := by
  have hsame : ∀ j < s.nodeCount.toNat, t.nodeAt j = s.nodeAt j := fun j hj => hm.oldNodes j hj.ne
  intro k hk
  rw [hm.nodeCount] at hk
  obtain hk | rfl := Nat.lt_succ_iff_lt_or_eq.1 hk
  · have hold := hn k hk
    rw [hsame k hk]
    split at hold
    · rw [if_pos ‹_›]; exact hold
    · rw [if_neg ‹_›]
      obtain ⟨hsym, hl, hr, hsum⟩ := hold
      rw [hsame _ (hl.trans hk), hsame _ (hr.trans hk)]
      exact ⟨hsym, hl, hr, hsum⟩
  · have hl := hm.left_live hlive
    have hr := hm.right_live hlive
    have hweight := hm.weight_exact hw
    rw [hm.newNode] at hweight ⊢
    simp only [State.mergedNode, Bool.false_eq_true, if_false] at hweight ⊢
    rw [hsame _ hl, hsame _ hr]
    exact ⟨trivial, hl, hr, hweight⟩

theorem Rooted.nodesSound {s t : State} (hr : Rooted s t) (hn : NodesSound s) : NodesSound t := by
  simp only [NodesSound, hr.nodeCount, hr.nodeAt]
  exact hn

theorem NodesSound.children {s : State} (hn : NodesSound s) : ∀ k < s.nodeCount.toNat, (s.nodeAt k).leaf = false →
    (s.nodeAt k).left.toNat < k ∧ (s.nodeAt k).right.toNat < k := by
  intro k hk hleaf
  have h := hn k hk
  rw [if_neg (by simp [hleaf])] at h
  obtain ⟨-, hl, hr, -⟩ := h
  exact ⟨hl, hr⟩

/-! ## Coverage -/

/-- How many nodes hang under a node neither depends on the bound of the depth, once that is past the node, nor on
nodes past it, where children have smaller indices. -/
theorem subtreeSize_congr {nodes nodes' : Nat → Node} {n : Nat} (hsame : ∀ k < n, nodes' k = nodes k)
    (hchild : ∀ k < n, (nodes k).leaf = false → (nodes k).left.toNat < k ∧ (nodes k).right.toNat < k)
    {d d' k : Nat} (hk : k < n) (hd : k < d) (hd' : k < d') : subtreeSize nodes' d' k = subtreeSize nodes d k := by
  induction d generalizing d' k with
  | zero => omega
  | succ d ih =>
    obtain ⟨e, rfl⟩ : ∃ e, d' = e + 1 := ⟨d' - 1, by omega⟩
    simp only [subtreeSize, hsame k hk]
    split
    · rfl
    · rename_i hleaf
      obtain ⟨hl, hr⟩ := hchild k hk (Bool.not_eq_true _ ▸ hleaf)
      rw [ih (by omega) (by omega) (by omega), ih (by omega) (by omega) (by omega)]

theorem Seeded.nodesCovered {s t : State} (hs : Seeded s t) (ha : AlphabetOk s) : NodesCovered t := by
  have hn := ha.le_max
  have hone : ∀ k ∈ (List.range s.alphaN.toNat).map (BitVec.ofNat 9), t.sizeUnder k = 1 := by
    intro k hk
    have hlt := toNat_lt_of_mem_leaves hn hk
    obtain ⟨m, hm⟩ : ∃ m, s.alphaN.toNat = m + 1 := ⟨s.alphaN.toNat - 1, by omega⟩
    rw [State.sizeUnder, hs.nodeCount, hm, subtreeSize, hs.leaves _ hlt]
    rfl
  rw [NodesCovered, hs.treeValid, if_neg Bool.false_ne_true, (hs.queue.map _).sum_eq, List.map_congr_left hone,
    hs.nodeCount]
  simp [Function.comp_def]

namespace Merged

variable {s t : State} {l r : NodeIdx} {rest : List NodeIdx} (hm : Merged s l r rest t) (hn : NodesSound s)
include hm hn

theorem sizeUnder_old {q : NodeIdx} (hq : q.toNat < s.nodeCount.toNat) : t.sizeUnder q = s.sizeUnder q := by
  rw [State.sizeUnder, hm.nodeCount]
  exact subtreeSize_congr (fun k hk => hm.oldNodes k hk.ne) hn.children hq hq (by omega)

theorem sizeUnder_new (hlive : QueueLive s) :
    t.sizeUnder (s.nodeCount.setWidth 9) = 1 + s.sizeUnder l + s.sizeUnder r := by
  have hsame : ∀ k < s.nodeCount.toNat, t.nodeAt k = s.nodeAt k := fun k hk => hm.oldNodes k hk.ne
  have hl := hm.left_live hlive
  have hr := hm.right_live hlive
  rw [State.sizeUnder, hm.nodeCount, hm.index, subtreeSize, hm.newNode]
  simp only [State.mergedNode, Bool.false_eq_true, if_false]
  rw [subtreeSize_congr hsame hn.children hl hl hl, subtreeSize_congr hsame hn.children hr hr hr]
  rfl

theorem nodesCovered (hlive : QueueLive s) (hv : s.treeValid = false) (hcov : NodesCovered s) : NodesCovered t := by
  have hrest : rest.map t.sizeUnder = rest.map s.sizeUnder :=
    List.map_congr_left fun q hq => hm.sizeUnder_old hn (hm.rest_live hlive q hq)
  rw [NodesCovered, hv, if_neg Bool.false_ne_true, (hm.oldQueue.map _).sum_eq] at hcov
  rw [NodesCovered, hm.treeValid, hv, if_neg Bool.false_ne_true, (hm.newQueue.map _).sum_eq, hm.nodeCount,
    List.map_cons, hrest, hm.sizeUnder_new hn hlive, ← hcov]
  simp only [List.map_cons, List.sum_cons]
  omega

end Merged

theorem Rooted.nodesCovered {s t : State} (hr : Rooted s t) (hlive : QueueLive s) (hv : s.treeValid = false)
    (hcov : NodesCovered s) : NodesCovered t := by
  rw [NodesCovered, hv, if_neg Bool.false_ne_true, hr.root] at hcov
  rw [NodesCovered, hr.treeValid, if_pos rfl, State.sizeUnder, hr.nodeAt, hr.nodeCount]
  exact ⟨hlive _ (by simp [hr.root]), by simpa [State.sizeUnder] using hcov⟩

/-! ## The leaves -/

/-- Counting over one index more, where the indices before it count as before. -/
theorem countP_range_succ_congr {p p' : Nat → Bool} {n : Nat} (h : ∀ k < n, p' k = p k) :
    (List.range (n + 1)).countP p' = (List.range n).countP p + if p' n then 1 else 0 := by
  rw [List.range_succ, List.countP_append, List.countP_singleton,
    List.countP_congr fun k hk => by rw [h k (List.mem_range.1 hk)]]

theorem Seeded.leaf {s t : State} (hs : Seeded s t) : ∀ k < t.nodeCount.toNat, (t.nodeAt k).leaf = true := by
  intro k hk
  rw [hs.nodeCount] at hk
  rw [hs.leaves k hk, State.leafOf]

theorem Seeded.leavesCounted {s t : State} (hs : Seeded s t) (ha : AlphabetOk s) : LeavesCounted t := by
  have hcount : t.leafCount = t.nodeCount.toNat := by
    rw [State.leafCount, List.countP_eq_length.2 fun k hk => hs.leaf k (List.mem_range.1 hk), List.length_range]
  have hn := ha.le_max
  rw [LeavesCounted, hcount, hs.treeValid, if_neg Bool.false_ne_true, hs.nodeCount, hs.pqSize]
  omega

theorem Seeded.leavesDistinct {s t : State} (hs : Seeded s t) (ha : AlphabetOk s) : LeavesDistinct t := by
  obtain ⟨-, -, -, hdistinct⟩ := ha
  intro i hi j hj _ _ heq
  rw [hs.nodeCount] at hi
  rw [hs.leaves i hi, hs.leaves j (hj.trans hi)] at heq
  exact hdistinct i hi j hj heq.symm

theorem Merged.leavesCounted {s t : State} {l r : NodeIdx} {rest : List NodeIdx} (hm : Merged s l r rest t)
    (hv : s.treeValid = false) (hc : LeavesCounted s) : LeavesCounted t := by
  have hcount : t.leafCount = s.leafCount := by
    rw [State.leafCount, hm.nodeCount, countP_range_succ_congr fun k hk => by rw [hm.oldNodes k hk.ne], hm.newNode]
    rfl
  have hp := hm.pqSize
  rw [LeavesCounted, hv, if_neg Bool.false_ne_true] at hc
  rw [LeavesCounted, hcount, hm.treeValid, hv, if_neg Bool.false_ne_true, hm.nodeCount]
  omega

theorem Merged.leavesDistinct {s t : State} {l r : NodeIdx} {rest : List NodeIdx} (hm : Merged s l r rest t)
    (hd : LeavesDistinct s) : LeavesDistinct t := by
  intro i hi j hj hleaf hleaf'
  rw [hm.nodeCount] at hi
  obtain hi | rfl := Nat.lt_succ_iff_lt_or_eq.1 hi
  · rw [hm.oldNodes i hi.ne] at hleaf ⊢
    rw [hm.oldNodes j (hj.trans hi).ne] at hleaf' ⊢
    exact hd i hi j hj hleaf hleaf'
  · rw [hm.newNode] at hleaf
    exact absurd hleaf Bool.false_ne_true

theorem Rooted.leavesCounted {s t : State} (hr : Rooted s t) (h1 : s.pqSize = 1#9) (hv : s.treeValid = false)
    (hc : LeavesCounted s) : LeavesCounted t := by
  rw [LeavesCounted, hv, if_neg Bool.false_ne_true, h1] at hc
  rw [LeavesCounted, State.leafCount, hr.treeValid, if_pos rfl, hr.nodeAt, hr.nodeCount]
  exact hc

theorem Rooted.leavesDistinct {s t : State} (hr : Rooted s t) (hd : LeavesDistinct s) : LeavesDistinct t := by
  simp only [LeavesDistinct, hr.nodeCount, hr.nodeAt]
  exact hd

/-! ## The builder's invariant -/

theorem TreeSound.countsFit {s : State} (hs : TreeSound s) : CountsFit s := by
  obtain ⟨⟨hc, -⟩, -⟩ := hs
  exact hc

theorem TreeSound.flagsAgree {s : State} (hs : TreeSound s) : FlagsAgree s := by
  obtain ⟨⟨-, hf, -⟩, -⟩ := hs
  exact hf

theorem TreeSound.queueLive {s : State} (hs : TreeSound s) : QueueLive s := by
  obtain ⟨⟨-, -, hq, -⟩, -⟩ := hs
  obtain ⟨hlive, -, -⟩ := (queueSound_iff s).1 hq
  exact hlive

theorem TreeSound.nodesSound {s : State} (hs : TreeSound s) : NodesSound s := by
  obtain ⟨-, hn, -⟩ := hs
  exact hn

theorem treeSound_cleared (s : State) : TreeSound s.cleared := by
  have hq : s.cleared.queue = [] := queue_eq_nil rfl
  refine ⟨⟨countsFit_cleared s, flagsAgree_cleared s, queueSound_of_empty rfl, weightsFit_of_empty rfl⟩, ?_, ?_, ?_, ?_⟩
  · intro k hk; simp at hk
  · simp [NodesCovered, hq]
  · simp [LeavesCounted, State.leafCount]
  · intro i hi; simp at hi

theorem Seeded.treeSound {s t : State} (hs : Seeded s t) (ha : AlphabetOk s) : TreeSound t :=
  ⟨⟨hs.countsFit ha, hs.flagsAgree, hs.queueSound ha, hs.weightsFit ha⟩,
    hs.nodesSound, hs.nodesCovered ha, hs.leavesCounted ha, hs.leavesDistinct ha⟩

theorem Merged.treeSound {s t : State} {l r : NodeIdx} {rest : List NodeIdx} (hm : Merged s l r rest t)
    (hs : TreeSound s) : TreeSound t := by
  have hlive := hs.queueLive
  obtain ⟨⟨hc, hf, hq, hw⟩, hn, hcov, hleaves, hd⟩ := hs
  have hv := hf.treeValid_of_queue (Nat.le_of_succ_le hm.two)
  exact ⟨⟨hm.countsFit hc, hm.flagsAgree hf, hm.queueSound hq, hm.weightsFit hlive hw⟩,
    hm.nodesSound hlive hw hn, hm.nodesCovered hn hlive hv hcov, hm.leavesCounted hv hleaves, hm.leavesDistinct hd⟩

theorem Rooted.treeSound {s t : State} (hr : Rooted s t) (h1 : s.pqSize = 1#9) (hs : TreeSound s) : TreeSound t := by
  have hlive := hs.queueLive
  obtain ⟨⟨hc, hf, -, -⟩, hn, hcov, hleaves, hd⟩ := hs
  have hv := hf.treeValid_of_queue (by rw [h1]; decide)
  exact ⟨⟨hr.countsFit hc, hr.flagsAgree, queueSound_of_empty hr.pqSize, weightsFit_of_empty hr.pqSize⟩,
    hr.nodesSound hn, hr.nodesCovered hlive hv hcov, hr.leavesCounted h1 hv hleaves, hr.leavesDistinct hd⟩

theorem withTable_treeSound {s : State} (code : Ram CodeEntry) (hs : TreeSound s) (hv : s.treeValid = true) :
    TreeSound (s.withTable code) := by
  obtain ⟨⟨hc, hf, hq, hw⟩, hstore⟩ := hs
  exact ⟨⟨hc, withTable_flagsAgree code hf hv, hq, hw⟩, hstore⟩

theorem treeSound_builderInvariant : BuilderInvariant TreeSound where
  builder _ := Iff.rfl
  cleared := treeSound_cleared
  seeded ha hs := hs.treeSound ha
  merged _ hs hm := hm.treeSound hs
  rooted hs h1 hr := hr.treeSound h1 hs
  tabled := withTable_treeSound

/-! ## Ownership -/

/-- How many live internal nodes have node k as their child on an edge. -/
def State.childCount (s : State) (edge : Node → NodeIdx) (k : Nat) : Nat :=
  (List.range s.nodeCount.toNat).countP fun p => !(s.nodeAt p).leaf && (edge (s.nodeAt p)).toNat == k

theorem owners_eq (s : State) (k : Nat) : s.owners k = s.childCount Node.left k + s.childCount Node.right k +
    s.queue.countP (fun q => q.toNat == k) + if s.treeValid ∧ s.root.toNat = k then 1 else 0 := rfl

theorem childCount_eq_zero {s : State} {edge : Node → NodeIdx} {k : Nat}
    (h : ∀ p < s.nodeCount.toNat, (s.nodeAt p).leaf = false → (edge (s.nodeAt p)).toNat ≠ k) :
    s.childCount edge k = 0 := by
  refine List.countP_eq_zero.2 fun p hp => ?_
  cases hleaf : (s.nodeAt p).leaf with
  | true => simp
  | false => simpa using h p (List.mem_range.1 hp) hleaf

/-- A fresh leaf is no child, and it is queued once. -/
theorem Seeded.ownedOnce {s t : State} (hs : Seeded s t) (ha : AlphabetOk s) : OwnedOnce t := by
  have hn := ha.le_max
  intro k hk
  have hchild (edge : Node → NodeIdx) : t.childCount edge k = 0 :=
    childCount_eq_zero fun p hp hleaf => absurd (hs.leaf p hp) (by simp [hleaf])
  have hqueue : t.queue.countP (fun q => q.toNat == k) = 1 := by
    rw [hs.nodeCount] at hk
    rw [hs.queue.countP_eq, List.countP_map, ← List.count_eq_one_of_mem List.nodup_range (List.mem_range.2 hk),
      List.count]
    refine List.countP_congr fun i hi => ?_
    rw [List.mem_range] at hi
    simp only [Function.comp, toNat_nodeIdx (show i < 512 by omega)]
  simp [owners_eq, hchild, hqueue, hs.treeValid]

namespace Merged

variable {s t : State} {l r : NodeIdx} {rest : List NodeIdx} (hm : Merged s l r rest t)
include hm

theorem childCount (edge : Node → NodeIdx) (k : Nat) :
    t.childCount edge k = s.childCount edge k + if (edge (s.mergedNode l r)).toNat == k then 1 else 0 := by
  rw [State.childCount, hm.nodeCount, countP_range_succ_congr fun p hp => by rw [hm.oldNodes p hp.ne], hm.newNode]
  rfl

variable (hv : s.treeValid = false)
include hv

/-- The two merged entries become children: each node is owned as often as before. -/
theorem owners_old {k : Nat} (hk : k < s.nodeCount.toNat) : t.owners k = s.owners k := by
  rw [owners_eq, owners_eq, hm.childCount, hm.childCount, hm.newQueue.countP_eq, hm.oldQueue.countP_eq, hm.treeValid,
    hv]
  simp only [State.mergedNode, List.countP_cons, hm.index, beq_iff_eq, hk.ne', Bool.false_eq_true, false_and, if_false]
  omega

/-- The new node is queued once, and is no node's child yet. -/
theorem owners_new (hlive : QueueLive s) (hn : NodesSound s) : t.owners s.nodeCount.toNat = 1 := by
  have hl := hm.left_live hlive
  have hr := hm.right_live hlive
  have hleft : s.childCount Node.left s.nodeCount.toNat = 0 :=
    childCount_eq_zero fun p hp hleaf => ((hn.children p hp hleaf).1.trans hp).ne
  have hright : s.childCount Node.right s.nodeCount.toNat = 0 :=
    childCount_eq_zero fun p hp hleaf => ((hn.children p hp hleaf).2.trans hp).ne
  have hrest : rest.countP (fun q => q.toNat == s.nodeCount.toNat) = 0 :=
    List.countP_eq_zero.2 fun q hq => by simpa using (hm.rest_live hlive q hq).ne
  rw [owners_eq, hm.childCount, hm.childCount, hleft, hright, hm.newQueue.countP_eq, List.countP_cons, hrest, hm.index,
    hm.treeValid, hv]
  simp [State.mergedNode, hl.ne, hr.ne]

theorem ownedOnce (hlive : QueueLive s) (hn : NodesSound s) (ho : OwnedOnce s) : OwnedOnce t := by
  intro k hk
  rw [hm.nodeCount] at hk
  obtain hk | rfl := Nat.lt_succ_iff_lt_or_eq.1 hk
  · rw [hm.owners_old hv hk]; exact ho k hk
  · exact hm.owners_new hv hlive hn

end Merged

/-- The last entry of the queue becomes ROOT (41_tree_builder.md R165). -/
theorem Rooted.ownedOnce {s t : State} (hr : Rooted s t) (hv : s.treeValid = false) (ho : OwnedOnce s) :
    OwnedOnce t := by
  intro k hk
  rw [hr.nodeCount] at hk
  rw [← ho k hk, State.owners, State.owners, hr.nodeCount, hr.nodeAt, hr.treeValid, hv, hr.root,
    queue_eq_nil hr.pqSize]
  simp

theorem ownedOnce_builderInvariant : BuilderInvariant fun s => TreeSound s ∧ OwnedOnce s where
  builder _ := Iff.rfl
  cleared s := ⟨treeSound_cleared s, fun k hk => by simp at hk⟩
  seeded ha hs := ⟨hs.treeSound ha, hs.ownedOnce ha⟩
  merged := fun _ ⟨hs, ho⟩ hm =>
    have hv := hs.flagsAgree.treeValid_of_queue (Nat.le_of_succ_le hm.two)
    ⟨hm.treeSound hs, hm.ownedOnce hv hs.queueLive hs.nodesSound ho⟩
  rooted := fun ⟨hs, ho⟩ h1 hr =>
    have hv := hs.flagsAgree.treeValid_of_queue (by rw [h1]; decide)
    ⟨hr.treeSound h1 hs, hr.ownedOnce hv ho⟩
  tabled := fun code ⟨hs, ho⟩ hv => ⟨withTable_treeSound code hs hv, ho⟩

/-! ## The obligations -/

/-- Settles O55: the heap of live, distinct entries is an invariant of the builder. -/
theorem stepKeepsTheQueueAHeap : Obligations.StepKeepsTheQueueAHeap := by
  intro s t hc hq h
  exact queueSound_builderInvariant.stepInvariant.step hc hq h

/-- Settles O56: the builder's invariant implies that the counts are in range. -/
theorem stepKeepsTheTreeSound : Obligations.StepKeepsTheTreeSound := by
  intro s t hs h
  exact treeSound_builderInvariant.stepInvariant.step hs.countsFit hs h

/-- Settles O57: ownership is kept together with the builder's invariant. -/
theorem stepKeepsEveryNodeOwnedOnce : Obligations.StepKeepsEveryNodeOwnedOnce := by
  intro s t hs ho h
  obtain ⟨-, ho'⟩ := ownedOnce_builderInvariant.stepInvariant.step hs.countsFit ⟨hs, ho⟩ h
  exact ho'

end Sys2Proof.Machine

/-! # Registers and views -/

namespace Sys2Proof.Machine

/-! ## A host access as a step -/

theorem step_of_wrote {s t : State} {a : Access} {rest : List HostEvent} (hr : s.rstN = true)
    (hh : s.host = .port a :: rest) (h : { s with host := rest }.access a = (.wrote, t)) :
    step s = .next (t.respond .wrote) := by
  rw [step, hh]
  simp only [portTurn, hr, Bool.true_eq_false, if_false]
  rw [← hr, h]

theorem step_of_data {s t : State} {a : Access} {v : Word} {rest : List HostEvent} (hr : s.rstN = true)
    (hh : s.host = .port a :: rest) (h : { s with host := rest }.access a = (.data v, t)) :
    step s = .next (t.respond (.data v)) := by
  rw [step, hh]
  simp only [portTurn, hr, Bool.true_eq_false, if_false]
  rw [← hr, h]

/-- A write takes effect while SEQ = IDLE, and one of CTRL or STATUS also while BUSY (20_memory.md R94, R96). -/
theorem portWrite_taken {s : State} {pl : Place} (v : Word) (h : s.busy = true → writtenWhileBusy pl = true) :
    s.portWrite pl v = (.wrote, s.writePlace pl v) := by
  rw [State.portWrite, if_neg]
  cases hb : s.busy with
  | false => simp
  | true => simp [h hb]

/-- Any other write while BUSY is dropped and sets OVERRUN (R94). -/
theorem portWrite_dropped {s : State} {pl : Place} (v : Word) (hb : s.busy = true) (hd : writtenWhileBusy pl = false) :
    s.portWrite pl v = (.wrote, { s with overrun := true }) := by
  rw [State.portWrite, if_pos (by simp [hb, hd])]

section
variable {s : State} {off : Offset} {v : Word} {pl : Place} {rest : List HostEvent}

theorem step_write_taken (hr : s.rstN = true) (hh : s.host = .port (.write off 4 v) :: rest)
    (hp : resolve (.write off 4 v) = .ok pl) (ht : s.busy = true → writtenWhileBusy pl = true) :
    step s = .next { s.writePlace pl v with host := rest, resp := some .wrote } := by
  have hacc : { s with host := rest }.access (.write off 4 v) = (.wrote, { s.writePlace pl v with host := rest }) := by
    rw [State.access, hp, ← writePlace_withHost]
    exact portWrite_taken (s := { s with host := rest }) v ht
  exact step_of_wrote hr hh hacc

theorem step_write_idle (hr : s.rstN = true) (hi : s.seq = .idle) (hh : s.host = .port (.write off 4 v) :: rest)
    (hp : resolve (.write off 4 v) = .ok pl) :
    step s = .next { s.writePlace pl v with host := rest, resp := some .wrote } :=
  step_write_taken hr hh hp (by simp [State.busy, hi])

theorem step_write_dropped (hr : s.rstN = true) (hb : s.busy = true) (hh : s.host = .port (.write off 4 v) :: rest)
    (hp : resolve (.write off 4 v) = .ok pl) (hd : writtenWhileBusy pl = false) :
    step s = .next { s with host := rest, resp := some .wrote, overrun := true } := by
  have hacc : { s with host := rest }.access (.write off 4 v) = (.wrote, { s with host := rest, overrun := true }) := by
    rw [State.access, hp]
    exact portWrite_dropped (s := { s with host := rest }) v hb hd
  exact step_of_wrote hr hh hacc

theorem step_read_idle (hr : s.rstN = true) (hi : s.seq = .idle) (hh : s.host = .port (.read off 4) :: rest)
    (hp : resolve (.read off 4) = .ok pl) :
    step s = .next { s with host := rest, resp := some (.data ({ s with host := rest }.readPlace pl)) } := by
  have hacc : { s with host := rest }.access (.read off 4) =
      (.data ({ s with host := rest }.readPlace pl), { s with host := rest }) := by
    rw [State.access, hp]
    exact portRead_idle (s := { s with host := rest }) hi pl
  exact step_of_data hr hh hacc

/-- Every offset of the register region that R33-R46 do not list is reserved (10_state.md R47). -/
theorem placeAt_reserved {n : Nat} (h : reservedOffset n) : placeAt n = some .reserved := by
  obtain ⟨hlt, -, hnot⟩ := h
  have hkeys : assignedRegisterOffsets = regRows.map Prod.fst := rfl
  have hnone : regRows.lookup n = none := by
    rw [List.lookup_eq_none_iff]
    intro x hx
    rw [hkeys] at hnot
    exact bne_iff_ne.2 fun heq => hnot (heq ▸ List.mem_map_of_mem hx)
  rw [placeAt, if_pos hlt, registerAt, hnone]

theorem resolve_write (ha : off.toNat % 4 = 0) (hp : placeAt off.toNat = some pl) :
    resolve (.write off 4 v) = .ok pl := by
  simp [resolve, Access.size, Access.off, ha, hp]

theorem resolve_read (ha : off.toNat % 4 = 0) (hp : placeAt off.toNat = some pl) :
    resolve (.read off 4) = .ok pl := by
  simp [resolve, Access.size, Access.off, ha, hp]

theorem resolve_write_reserved (h : reservedOffset off.toNat) : resolve (.write off 4 v) = .ok .reserved := by
  obtain ⟨-, halign, -⟩ := id h
  exact resolve_write halign (placeAt_reserved h)
end

/-! ## Registers written and read back -/

/-- What a register reads does not depend on the port's own bookkeeping. -/
theorem readReg_withPort (s : State) (h : List HostEvent) (p : Option PortResp) (r : Reg) :
    { s with host := h, resp := p }.readReg r = s.readReg r := by
  cases r <;> rfl

theorem run_two {s t u : State} (h1 : step s = .next t) (h2 : step t = .next u) :
    Sys2Proof.core.run 2 s = .next u := by
  simp only [Host.Core.run, Sys2Proof.core, h1, h2]

/-- A write of a register and then a read of it, where the write leaves the block IDLE. -/
theorem run_write_read {s t : State} {off : Offset} {v x : Word} {r : Reg} {rest : List HostEvent}
    (hr : s.rstN = true) (hi : s.seq = .idle)
    (hh : s.host = .port (.write off 4 v) :: .port (.read off 4) :: rest)
    (ha : off.toNat % 4 = 0) (hp : placeAt off.toNat = some (.reg r))
    (ht : s.writeReg r v = t) (hx : t.readReg r = x) (hr' : t.rstN = true) (hi' : t.seq = .idle) :
    Sys2Proof.core.run 2 s = .next { t with host := rest, resp := some (.data x) } := by
  have hwrite : step s = .next { t with host := .port (.read off 4) :: rest, resp := some .wrote } := by
    rw [step_write_idle hr hi hh (resolve_write ha hp), ← ht]
    rfl
  have hread : step { t with host := .port (.read off 4) :: rest, resp := some .wrote } =
      .next { t with host := rest, resp := some (.data x) } := by
    rw [← hx, ← readReg_withPort t rest (some .wrote) r]
    exact step_read_idle (s := { t with host := .port (.read off 4) :: rest, resp := some .wrote }) hr' hi' rfl (resolve_read ha hp)
  exact run_two hwrite hread

theorem getLsbD_append_ofBool {n : Nat} (x : BitVec n) (b : Bool) (i : Nat) :
    (x ++ BitVec.ofBool b).getLsbD i = if i = 0 then b else x.getLsbD (i - 1) := by
  simp only [BitVec.getLsbD_append, BitVec.getLsbD_ofBool, Nat.lt_one_iff]
  by_cases h : i = 0 <;> simp [h]

/-- CTRL reads IRQ_EN in bit 0 and zeros above it (10_state.md R35). -/
theorem zero_append_bit0 (v : Word) : 0#31 ++ BitVec.ofBool (v.getLsbD 0) = v &&& 1#(31 + 1) := by
  refine BitVec.eq_of_getLsbD_eq fun i _ => ?_
  rw [getLsbD_append_ofBool, BitVec.getLsbD_and, BitVec.getLsbD_one]
  rcases i with _ | i <;> simp

/-- Settles O59: each of the four registers written and read in two steps. -/
theorem idleRegisterWritesStoreAndReadBack : Obligations.IdleRegisterWritesStoreAndReadBack := by
  intro s v rest hr hi
  refine ⟨fun hh => ?_, fun hh => ?_, fun hh => ?_, fun hh => ?_⟩
  · exact run_write_read (r := .alphaN) hr hi hh (by decide) (by decide) rfl rfl hr hi
  · exact run_write_read (r := .textLen) hr hi hh (by decide) (by decide) rfl rfl hr hi
  · exact run_write_read (r := .bitLen) hr hi hh (by decide) (by decide) rfl rfl hr hi
  · exact run_write_read (r := .ctrl) hr hi hh (by decide) (by decide) rfl (zero_append_bit0 v) hr hi

/-- Settles O60: a reserved offset names the reserved place, which no write changes. -/
theorem reservedOffsetsIgnoreWrites : Obligations.ReservedOffsetsIgnoreWrites := by
  intro s off v rest hr hres hh
  have hp : resolve (.write off 4 v) = .ok .reserved := resolve_write_reserved hres
  refine ⟨fun hi => step_write_idle hr hi hh hp, fun w hw => step_write_dropped hr ?_ hh hp rfl⟩
  simp [State.busy, hw]

/-! ## STATUS -/

theorem getLsbD_flagWord (b6 b5 b4 b3 b2 b1 b0 : Bool) (i : Nat) :
    (0#25 ++ BitVec.ofBool b6 ++ BitVec.ofBool b5 ++ BitVec.ofBool b4 ++ BitVec.ofBool b3 ++ BitVec.ofBool b2 ++
      BitVec.ofBool b1 ++ BitVec.ofBool b0).getLsbD i = [b0, b1, b2, b3, b4, b5, b6].getD i false := by
  simp only [getLsbD_append_ofBool]
  rcases i with _ | _ | _ | _ | _ | _ | _ | i <;> simp

/-- The bits of STATUS, from bit 0 up (10_state.md R36). -/
theorem getLsbD_status (s : State) (i : Nat) : (s.readReg .status).getLsbD i =
    [s.busy, s.done, s.err, s.treeValid, s.codesValid, s.overrun, s.singleLeaf].getD i false :=
  getLsbD_flagWord _ _ _ _ _ _ _ i

theorem busy_iff (s : State) : s.busy = true ↔ s.seq ≠ .idle := by
  unfold State.busy
  split <;> simp [*]

/-- Settles O47: the bits of the word by number, and a write that is taken also while BUSY. -/
theorem statusFieldsAndTheirClearing : Obligations.StatusFieldsAndTheirClearing := by
  intro s
  simp only [getLsbD_status]
  refine ⟨busy_iff s, rfl, by simp [State.err], rfl, rfl, rfl, by simp [State.singleLeaf], fun b hb => ?_, ?_⟩
  · exact List.getD_eq_default _ _ (by simpa using hb)
  · intro v rest hr hh
    exact step_write_taken hr hh (resolve_write (pl := .reg .status) (by decide) (by decide)) fun _ => rfl

/-! ## The views of tree and table -/

/-- A 40-bit weight is its two words joined (10_state.md R44). -/
theorem weight_words (w : Weight) : 0#24 ++ w.extractLsb' 32 8 ++ w.extractLsb' 0 32 = w.setWidth (24 + 8 + 32) := by
  apply BitVec.eq_of_toNat_eq
  simp only [BitVec.toNat_append, BitVec.toNat_ofNat, BitVec.extractLsb'_toNat, BitVec.toNat_setWidth,
    Nat.shiftRight_eq_div_pow, Nat.zero_mod, Nat.zero_shiftLeft, Nat.zero_or]
  rw [← Nat.shiftLeft_add_eq_or_of_lt (Nat.mod_lt _ (by decide)), Nat.shiftLeft_eq]
  omega

/-- The loop of MAX_LEN over some entries, from a first value m (10_state.md R45). -/
def maxLenFrom (entry : Nat → CodeEntry) (cs : List Nat) (m : Nat) : Nat :=
  cs.foldl (fun m c => if (entry c).valid then max m (entry c).len.toNat else m) m

/-- The loop ends in the largest of its first value and the lengths of the valid entries. -/
theorem maxLenFrom_spec (entry : Nat → CodeEntry) (cs : List Nat) (m : Nat) :
    m ≤ maxLenFrom entry cs m ∧
    (∀ c ∈ cs, (entry c).valid = true → (entry c).len.toNat ≤ maxLenFrom entry cs m) ∧
    ((∃ c ∈ cs, (entry c).valid = true ∧ (entry c).len.toNat = maxLenFrom entry cs m) ∨ maxLenFrom entry cs m = m) := by
  induction cs generalizing m with
  | nil => exact ⟨le_rfl, by simp, .inr rfl⟩
  | cons c cs ih =>
    by_cases hv : (entry c).valid = true
    · have hcons : maxLenFrom entry (c :: cs) m = maxLenFrom entry cs (max m (entry c).len.toNat) := by
        simp [maxLenFrom, hv]
      rw [hcons]
      obtain ⟨hm, hub, hatt⟩ := ih (max m (entry c).len.toNat)
      refine ⟨by omega, ?_, ?_⟩
      · rintro d (_ | ⟨_, hd⟩) hdv
        · omega
        · exact hub d hd hdv
      · obtain ⟨d, hd, hdv, hlen⟩ | heq := hatt
        · exact .inl ⟨d, .tail _ hd, hdv, hlen⟩
        · rw [heq]
          obtain hmax | hmax := max_choice m (entry c).len.toNat
          · exact .inr hmax
          · exact .inl ⟨c, .head _, hv, hmax.symm⟩
    · have hcons : maxLenFrom entry (c :: cs) m = maxLenFrom entry cs m := by simp [maxLenFrom, hv]
      rw [hcons]
      obtain ⟨hm, hub, hatt⟩ := ih m
      refine ⟨hm, ?_, ?_⟩
      · rintro d (_ | ⟨_, hd⟩) hdv
        · exact absurd hdv hv
        · exact hub d hd hdv
      · obtain ⟨d, hd, hdv, hlen⟩ | heq := hatt
        · exact .inl ⟨d, .tail _ hd, hdv, hlen⟩
        · exact .inr heq

/-- MAX_LEN bounds every valid length, and is one of them or 0 (10_state.md R45). -/
theorem maxLen_spec {s : State} (hc : s.codesValid = true) :
    (∀ c : Sym, (s.codeAt c).valid = true → (s.codeAt c).len.toNat ≤ s.maxLen) ∧
    ((∃ c : Sym, (s.codeAt c).valid = true ∧ (s.codeAt c).len.toNat = s.maxLen) ∨ s.maxLen = 0) := by
  have hmax : s.maxLen = maxLenFrom (codeIn s.epoch s.mem.code) (List.range 256) 0 := by
    rw [State.maxLen, if_pos hc]; rfl
  obtain ⟨-, hub, hatt⟩ := maxLenFrom_spec (codeIn s.epoch s.mem.code) (List.range 256) 0
  rw [hmax]
  refine ⟨fun c hv => hub c.toNat (List.mem_range.2 c.isLt) hv, hatt.imp_left ?_⟩
  rintro ⟨c, hmem, hv, hlen⟩
  have hidx : (BitVec.ofNat 8 c).toNat = c := by rw [BitVec.toNat_ofNat, Nat.mod_eq_of_lt (List.mem_range.1 hmem)]
  exact ⟨BitVec.ofNat 8 c, by rwa [State.codeAt, hidx], by rwa [State.codeAt, hidx]⟩

theorem toNat_readReg_maxLen {s : State} (hc : s.codesValid = true) : (s.readReg .maxLen).toNat = s.maxLen := by
  have hlt : s.maxLen < 2 ^ 32 := by
    obtain ⟨-, ⟨c, -, hlen⟩ | h0⟩ := maxLen_spec hc
    · have := (s.codeAt c).len.isLt
      omega
    · omega
  rw [State.readReg, BitVec.toNat_ofNat, Nat.mod_eq_of_lt hlt]

/-- Settles O51: the weight's two words joined, and the loop of MAX_LEN. -/
theorem diagnosticViewsOfTreeAndTable : Obligations.DiagnosticViewsOfTreeAndTable := by
  intro s
  refine ⟨fun hv => ?_, fun hv => ?_, fun hc => ?_, fun hc => ?_⟩
  · have hw : s.rootWeight = (s.nodeAt s.root.toNat).weight := by rw [State.rootWeight, if_pos hv]
    rw [← hw]
    exact weight_words s.rootWeight
  · simp [State.readReg, State.rootWeightHi, State.rootWeightLo, State.rootWeight, hv]
  · rw [toNat_readReg_maxLen hc]
    obtain ⟨hub, hatt⟩ := maxLen_spec hc
    exact ⟨hub, hatt.imp_right fun h0 => by simp [State.readReg, h0]⟩
  · simp [State.readReg, State.maxLen, hc]

/-! ## Reset -/

/-- Settles O52: the reset state is one that CLEAR could leave. -/
theorem resetMeetsEveryInvariant : Obligations.ResetMeetsEveryInvariant :=
  ⟨reset_memory_wf, treeSound_cleared State.reset, fun _ hk => absurd hk (Nat.not_lt_zero _),
    fun h => absurd h Bool.false_ne_true, code_mem_codes .none⟩

/-- Settles O8: every value is computed from the reset state. -/
theorem resetValuesOfEveryRegister : Obligations.ResetValuesOfEveryRegister := by
  refine ⟨rfl, rfl, rfl, rfl, rfl, rfl, rfl, rfl, rfl, rfl, rfl, rfl, rfl, rfl, rfl, rfl, rfl, rfl, rfl, rfl, rfl, rfl,
    rfl, rfl, ?_⟩
  exact ⟨fun _ _ => ⟨rfl, rfl⟩, fun _ _ => rfl, fun _ _ => rfl, fun _ _ => rfl, fun _ _ => rfl, fun _ _ => rfl,
    fun _ _ => rfl, fun _ _ => rfl, fun _ => rfl, fun _ _ => rfl, fun _ => rfl⟩

end Sys2Proof.Machine

/-! # Commands and the port's part of the state -/

namespace Sys2Proof.Machine

/-! ## The port's part -/

/-- The state with what a host access can change while a command runs taken from p: IRQ_EN, DONE, OVERRUN and the
port's bookkeeping (20_memory.md R101). -/
def State.withPort (s p : State) : State :=
  { s with
    irqEn := p.irqEn, done := p.done, overrun := p.overrun, host := p.host, resp := p.resp, draws := p.draws }

theorem State.withPort_withPort (s p q : State) : (s.withPort p).withPort q = s.withPort q := rfl

/-- The same end of a command, in another state. -/
def Cmd.mapState {α : Type} (g : State → State) : Cmd α → Cmd α
  | .ok a s => .ok a (g s)
  | .raised e i0 i1 s => .raised e i0 i1 (g s)

/-- A part of a command that neither reads nor writes the port's part. -/
abbrev PortBlind {α : Type} (f : State → Cmd α) : Prop :=
  ∀ s p : State, f (s.withPort p) = (f s).mapState (·.withPort p)

theorem PortBlind.bind {α β : Type} {f : State → Cmd α} {k : α → State → Cmd β} (hf : PortBlind f)
    (hk : ∀ a, PortBlind (k a)) : PortBlind fun s => (f s).bind k := by
  intro s p
  simp only [hf s p]
  cases f s with
  | ok a u => exact hk a u p
  | raised e i0 i1 u => rfl

theorem complete_mapState_withPort (c : Cmd Unit) (p : State) :
    (c.mapState (·.withPort p)).complete = { c.complete.withPort p with done := c.complete.done } := by
  cases c <;> rfl

/-- A command of which no part sees the port's part ends alike whatever that part is, but for DONE, which it sets. -/
theorem PortBlind.next_complete {f : State → Cmd Unit} (hf : PortBlind f) (p : State) {s t : State}
    (h : (.next (f s).complete : Host.Outcome State Fault Refusal) = .next t) :
    (.next (f (s.withPort p)).complete : Host.Outcome State Fault Refusal) =
      .next { t.withPort p with done := t.done } := by
  cases h
  rw [hf, complete_mapState_withPort]

/-! ## The parts of the commands -/

theorem portBlind_ite {α : Type} {c : State → Prop} [DecidablePred c] {f g : State → Cmd α}
    (hc : ∀ s p : State, c (s.withPort p) ↔ c s) (hf : PortBlind f) (hg : PortBlind g) :
    PortBlind fun s => if c s then f s else g s := by
  intro s p
  by_cases h : c s
  · simp only [if_pos h, if_pos ((hc s p).2 h), hf s p]
  · simp only [if_neg h, if_neg (mt (hc s p).1 h), hg s p]

theorem portBlind_pqExtractMin : PortBlind (pqExtractMin .index) :=
  portBlind_ite (c := fun s => s.pqSize = 0#9) (fun _ _ => Iff.rfl) (fun _ _ => rfl) fun _ _ => rfl

theorem portBlind_mergeStep : PortBlind (mergeStep .index) :=
  portBlind_pqExtractMin.bind fun _ => portBlind_pqExtractMin.bind fun _ _ _ => rfl

theorem portBlind_takeRoot : PortBlind (takeRoot .index) :=
  portBlind_pqExtractMin.bind fun _ _ _ => rfl

theorem portBlind_mergeAll (rounds : Nat) : PortBlind (mergeAll .index rounds) := by
  induction rounds with
  | zero => exact fun _ _ => rfl
  | succ n ih =>
    exact portBlind_ite (c := fun s => s.pqSize.toNat ≥ 2) (fun _ _ => Iff.rfl)
      (portBlind_mergeStep.bind fun _ => ih) fun _ _ => rfl

theorem portBlind_mergeBody : PortBlind (mergeBody .index) :=
  portBlind_ite (c := fun s => s.pqSize.toNat < 2) (fun _ _ => Iff.rfl) (fun _ _ => rfl) portBlind_mergeStep

theorem portBlind_finishBody : PortBlind (finishBody .index) :=
  portBlind_ite (c := fun s => s.pqSize = 0#9) (fun _ _ => Iff.rfl) (fun _ _ => rfl)
    (portBlind_ite (c := fun s => s.pqSize.toNat ≥ 2) (fun _ _ => Iff.rfl) (fun _ _ => rfl) portBlind_takeRoot)

theorem seedError_withPort (s p : State) : seedError (s.withPort p) = seedError s := rfl

theorem portBlind_seedBody : PortBlind (seedBody .index) := by
  intro s p
  rw [seedBody, seedBody, seedError_withPort]
  cases seedError s <;> rfl

theorem portBlind_buildBody : PortBlind (buildBody .index) :=
  portBlind_seedBody.bind fun _ =>
    PortBlind.bind (fun s => portBlind_mergeAll s.pqSize.toNat s) fun _ => portBlind_takeRoot

theorem portBlind_encodeFrom (left k q : Nat) (bit : Ram Bool) :
    PortBlind fun s => encodeFrom s left k q bit := by
  induction left generalizing k q bit with
  | zero => exact fun _ _ => rfl
  | succ n ih =>
    refine portBlind_ite (c := fun s => (s.codeAt (s.textAt k)).valid = false) (fun _ _ => Iff.rfl) (fun _ _ => rfl) ?_
    exact portBlind_ite (c := fun s => q + (s.codeAt (s.textAt k)).len.toNat > Config.bitMax) (fun _ _ => Iff.rfl)
      (fun _ _ => rfl) fun s p => ih (k + 1) _ _ s p

theorem portBlind_encodeBody : PortBlind encodeBody :=
  portBlind_ite (c := fun s => s.codesValid = false) (fun _ _ => Iff.rfl) (fun _ _ => rfl)
    (portBlind_ite (c := fun s => s.textLen.toNat > Config.textMax) (fun _ _ => Iff.rfl) (fun _ _ => rfl)
      fun s p => portBlind_encodeFrom s.textLen.toNat 0 0 s.mem.bit s p)

theorem walkFrom_withPort (s p : State) (left i : Nat) (c : Walk) :
    walkFrom (s.withPort p) left i c = walkFrom s left i c := by
  induction left generalizing i c with
  | zero => rfl
  | succ n ih => exact ih _ _

theorem portBlind_decodeBody : PortBlind decodeBody := by
  refine portBlind_ite (c := fun s => s.treeValid = false) (fun _ _ => Iff.rfl) (fun _ _ => rfl) ?_
  refine portBlind_ite (c := fun s => s.bitLen.toNat > Config.bitMax) (fun _ _ => Iff.rfl) (fun _ _ => rfl) ?_
  intro s p
  have hwalk : walkFrom (s.withPort p) (s.withPort p).bitLen.toNat 0 (s.withPort p).atRoot =
      walkFrom s s.bitLen.toNat 0 s.atRoot := walkFrom_withPort s p _ _ _
  simp only [hwalk]
  split <;> rfl

theorem genTable_withPort (s p : State) : genTable (s.withPort p) = genTable s := rfl

/-! ## The commands -/

theorem genCodes_withPort {s t : State} (p : State) (h : exec .genCodes s = .next t) :
    exec .genCodes (s.withPort p) = .next { t.withPort p with done := t.done } := by
  obtain ⟨hv, rfl⟩ | ⟨hv, code, hc, rfl⟩ := execGenCodes_cases h
  · have hv' : (s.withPort p).treeValid = false := hv
    rw [exec, execGenCodes, if_pos hv']
    rfl
  · have hv' : (s.withPort p).treeValid ≠ false := ne_false_of_eq_true hv
    rw [exec, execGenCodes, if_neg hv', genTable_withPort, hc]
    rfl

/-- What a command does is the same whatever the port's part is, and it sets DONE only there. -/
theorem exec_withPort {i : Instr} {s t : State} (p : State) (h : exec i s = .next t) :
    exec i (s.withPort p) = .next { t.withPort p with done := t.done } := by
  cases i with
  | nop => exact PortBlind.next_complete (f := fun s => .ok () s) (fun _ _ => rfl) p h
  | clear => exact PortBlind.next_complete (f := fun s => .ok () s.cleared) (fun _ _ => rfl) p h
  | seed => exact portBlind_seedBody.next_complete p h
  | merge => exact portBlind_mergeBody.next_complete p h
  | finish => exact portBlind_finishBody.next_complete p h
  | buildTree => exact portBlind_buildBody.next_complete p h
  | genCodes => exact genCodes_withPort p h
  | encode => exact portBlind_encodeBody.next_complete p h
  | decode => exact portBlind_decodeBody.next_complete p h

/-- Settles O39: no part of a command reads or writes the port's part of the state. -/
theorem commandsDoNotSeeThePort : Obligations.CommandsDoNotSeeThePort :=
  fun _ s _ irqEn done overrun host resp draws h =>
    exec_withPort
      { s with irqEn := irqEn, done := done, overrun := overrun, host := host, resp := resp, draws := draws } h

/-! ## The readers of the tree -/

/-- Settles O36: each of the three commands ends in one named update of the state, completed. -/
theorem treeIsReadOnlyForItsReaders : Obligations.TreeIsReadOnlyForItsReaders := by
  refine fun s t => ⟨fun h => ?_, fun h => ?_, fun h => ?_⟩
  · obtain ⟨-, rfl⟩ | ⟨-, code, -, rfl⟩ := execGenCodes_cases h <;> rfl
  · obtain ⟨bit, n, rfl⟩ | ⟨e, i0, i1, bit, rfl⟩ := execEncode_cases h <;> rfl
  · obtain ⟨out, n, rfl⟩ | ⟨e, i0, i1, out, rfl⟩ := execDecode_cases h <;> rfl

end Sys2Proof.Machine

/-! # The address map and the host port -/

namespace Sys2Proof.Machine

/-! ## The address map -/

/-! One equation for each region of R86: the regions are disjoint, and in each the layout is solved for the place. -/

theorem placeAt_regOffset (r : Reg) : placeAt (regOffset r) = some (.reg r) := by
  cases r <;> rfl

theorem placeAt_alphaSym {i : Nat} (hi : i < 256) : placeAt (0x01000 + 8 * i) = some (.alphaSym i) := by
  rw [placeAt, if_neg (by omega), if_pos (by omega)]
  dsimp only
  rw [if_pos (by omega)]
  congr 2
  omega

theorem placeAt_alphaFreq {i : Nat} (hi : i < 256) : placeAt (0x01000 + 8 * i + 4) = some (.alphaFreq i) := by
  rw [placeAt, if_neg (by omega), if_pos (by omega)]
  dsimp only
  rw [if_neg (by omega)]
  congr 2
  omega

theorem placeAt_node {k w : Nat} (hk : k < 512) (hw : w < 4) :
    placeAt (0x02000 + 16 * k + 4 * w) = some (.node k w) := by
  rw [placeAt, if_neg (by omega), if_neg (by omega), if_pos (by omega)]
  dsimp only
  congr 2 <;> omega

theorem placeAt_pq {j : Nat} (hj : j < 256) : placeAt (0x04000 + 4 * j) = some (.pq j) := by
  rw [placeAt]
  iterate 3 rw [if_neg (by omega)]
  rw [if_pos (by omega)]
  congr 2
  omega

theorem placeAt_code {c w : Nat} (hc : c < 256) (hw : w < 16) :
    placeAt (0x10000 + 64 * c + 4 * w) = some (.code c w) := by
  rw [placeAt]
  iterate 4 rw [if_neg (by omega)]
  rw [if_pos (by omega)]
  dsimp only
  congr 2 <;> omega

theorem placeAt_text {p : Nat} (hp : p < 4096) : placeAt (0x20000 + 4 * p) = some (.text p) := by
  rw [placeAt]
  iterate 5 rw [if_neg (by omega)]
  rw [if_pos (by omega)]
  congr 2
  omega

theorem placeAt_bitWord {w : Nat} (hw : w < 1024) : placeAt (0x30000 + 4 * w) = some (.bitWord w) := by
  rw [placeAt]
  iterate 6 rw [if_neg (by omega)]
  rw [if_pos (by omega)]
  congr 2
  omega

theorem placeAt_out {k : Nat} (hk : k < 32768) : placeAt (0x40000 + 4 * k) = some (.out k) := by
  rw [placeAt]
  iterate 7 rw [if_neg (by omega)]
  rw [if_pos (by omega)]
  congr 2
  omega

/-- The gaps between the regions of R86 are unmapped. -/
theorem placeAt_gap {off : Nat}
    (h : (0x00100 ≤ off ∧ off < 0x01000) ∨ (0x01800 ≤ off ∧ off < 0x02000) ∨ (0x04400 ≤ off ∧ off < 0x10000) ∨
      (0x14000 ≤ off ∧ off < 0x20000) ∨ (0x24000 ≤ off ∧ off < 0x30000) ∨ (0x31000 ≤ off ∧ off < 0x40000) ∨
      0x60000 ≤ off) : placeAt off = none := by
  rw [placeAt]
  iterate 8 rw [if_neg (by omega)]

theorem regOffset_aligned (r : Reg) : regOffset r % 4 = 0 ∧ regOffset r < 0x100 := by
  cases r <;> decide

theorem placeOffset_aligned {pl : Place} (h : pl.inRange = true) :
    placeOffset pl % 4 = 0 ∧ placeOffset pl < 0x80000 := by
  cases pl with
  | reg r =>
    obtain ⟨ha, hlt⟩ := regOffset_aligned r
    exact ⟨ha, by rw [placeOffset]; omega⟩
  | reserved => decide
  | _ => simp only [Place.inRange, decide_eq_true_eq] at h; simp only [placeOffset]; omega

theorem placeAt_placeOffset {pl : Place} (h : pl.inRange = true) : placeAt (placeOffset pl) = some pl := by
  cases pl with
  | reg r => exact placeAt_regOffset r
  | reserved => rfl
  | alphaSym i => exact placeAt_alphaSym (of_decide_eq_true h)
  | alphaFreq i => exact placeAt_alphaFreq (of_decide_eq_true h)
  | node k w =>
    obtain ⟨hk, hw⟩ := of_decide_eq_true h
    exact placeAt_node hk hw
  | pq j => exact placeAt_pq (of_decide_eq_true h)
  | code c w =>
    obtain ⟨hc, hw⟩ := of_decide_eq_true h
    exact placeAt_code hc hw
  | text p => exact placeAt_text (of_decide_eq_true h)
  | bitWord w => exact placeAt_bitWord (of_decide_eq_true h)
  | out k => exact placeAt_out (of_decide_eq_true h)

/-- Settles O42: each window's layout solved for its place, and the registers one by one. -/
theorem everyPlaceHasItsOwnOffset : Obligations.EveryPlaceHasItsOwnOffset := by
  refine ⟨fun pl h => ?_, by decide, fun off => placeAt_reserved, fun i hi => ⟨placeAt_alphaSym hi, placeAt_alphaFreq hi⟩,
    fun k hk w hw => placeAt_node hk hw, fun j => placeAt_pq, fun c hc w hw => placeAt_code hc hw,
    fun p => placeAt_text, fun w => placeAt_bitWord, fun k => placeAt_out⟩
  obtain ⟨ha, hlt⟩ := placeOffset_aligned h
  exact ⟨ha, hlt, placeAt_placeOffset h⟩

/-! ## Accesses that the bus answers with ERROR -/

theorem access_of_error {s : State} {a : Access} {e : PortError} (h : resolve a = .error e) :
    s.access a = (.error e, s) := by
  rw [State.access, h]

theorem step_of_error {s : State} {a : Access} {e : PortError} {rest : List HostEvent} (h : resolve a = .error e)
    (hr : s.rstN = true) (hh : s.host = .port a :: rest) : step s = .fault (.portError e a) := by
  have hr' : ({ s with host := rest } : State).rstN ≠ false := ne_false_of_eq_true hr
  simp only [step, hh, portTurn, if_neg hr', access_of_error h]

theorem resolve_malformed {a : Access} (h : a.off.toNat % 4 ≠ 0 ∨ a.size ≠ 4) : ∃ e, resolve a = .error e := by
  by_cases hs : a.size = 4
  · have hoff : a.off.toNat % 4 ≠ 0 := h.resolve_right (not_not.2 hs)
    exact ⟨.misaligned, by simp [resolve, hs, hoff]⟩
  · exact ⟨.notOneWord, by simp [resolve, hs]⟩

section
variable {a : Access} (hs : a.size = 4) (ho : a.off.toNat % 4 = 0)
include hs ho

theorem resolve_unmapped (hp : placeAt a.off.toNat = none) : resolve a = .error .unmapped := by
  simp [resolve, hs, ho, hp]

theorem resolve_mapped {pl : Place} (hp : placeAt a.off.toNat = some pl) : resolve a = .ok pl := by
  simp [resolve, hs, ho, hp]
end

/-- A mapped place is answered OK, idle or BUSY (20_memory.md R94-R96). -/
theorem access_ok (s : State) {a : Access} {pl : Place} (h : resolve a = .ok pl) :
    ∃ r t, s.access a = (r, t) ∧ ∀ e, r ≠ .error e := by
  cases a with
  | read off size =>
    have hacc : s.access (.read off size) = s.portRead pl := by rw [State.access, h]
    rw [hacc, State.portRead]
    split <;> exact ⟨_, _, rfl, fun _ => nofun⟩
  | write off size v =>
    have hacc : s.access (.write off size v) = s.portWrite pl v := by rw [State.access, h]
    rw [hacc, State.portWrite]
    split <;> exact ⟨_, _, rfl, fun _ => nofun⟩

/-- Settles O40: the form of the access is checked before anything else. -/
theorem misalignedOrNonWordAccessIsAnError : Obligations.MisalignedOrNonWordAccessIsAnError := by
  intro s a h
  obtain ⟨e, he⟩ := resolve_malformed h
  exact ⟨e, access_of_error he, rfl, fun _ hr hh => step_of_error he hr hh⟩

/-- Settles O41: the gaps of the map, and the register region, every offset of which names a place. -/
theorem unmappedOffsetIsAnError : Obligations.UnmappedOffsetIsAnError := by
  intro s a hs ho
  refine ⟨fun hgap => ?_, fun hreg => ?_⟩
  · have he : resolve a = .error .unmapped := resolve_unmapped hs ho (placeAt_gap hgap)
    exact ⟨access_of_error he, rfl, fun _ hr hh => step_of_error he hr hh⟩
  · have hp : placeAt a.off.toNat = some (registerAt a.off.toNat) := by rw [placeAt, if_pos hreg]
    exact access_ok s (resolve_mapped hs ho hp)

/-! ## The named places of a host program -/

theorem toNat_placeOffset {pl : Place} (h : pl.inRange = true) :
    (BitVec.ofNat 19 (placeOffset pl)).toNat = placeOffset pl := by
  obtain ⟨-, hlt⟩ := placeOffset_aligned h
  rw [BitVec.toNat_ofNat, Nat.mod_eq_of_lt hlt]

theorem resolve_readForm {pl : Place} (h : pl.inRange = true) :
    resolve (.read (BitVec.ofNat 19 (placeOffset pl)) 4) = .ok pl := by
  obtain ⟨ha, -⟩ := placeOffset_aligned h
  rw [← toNat_placeOffset h] at ha
  exact resolve_read ha ((toNat_placeOffset h).symm ▸ placeAt_placeOffset h)

theorem resolve_writeForm {pl : Place} (h : pl.inRange = true) (v : Word) :
    resolve (.write (BitVec.ofNat 19 (placeOffset pl)) 4 v) = .ok pl := by
  obtain ⟨ha, -⟩ := placeOffset_aligned h
  rw [← toNat_placeOffset h] at ha
  exact resolve_write ha ((toNat_placeOffset h).symm ▸ placeAt_placeOffset h)

theorem resolve_read_reserved {off : Offset} (h : reservedOffset off.toNat) : resolve (.read off 4) = .ok .reserved := by
  obtain ⟨-, halign, -⟩ := id h
  exact resolve_read halign (placeAt_reserved h)

/-! ## Reads -/

theorem readPlace_withHost (s : State) (h : List HostEvent) (pl : Place) :
    { s with host := h }.readPlace pl = s.readPlace pl := by
  cases pl with
  | reg r => cases r <;> rfl
  | _ => rfl

section
variable {s : State} {off : Offset} {pl : Place} {rest : List HostEvent} (hr : s.rstN = true)
  (hh : s.host = .port (.read off 4) :: rest) (hp : resolve (.read off 4) = .ok pl)
include hr hh hp

theorem step_read_exact (hx : exactWhileBusy pl = true) :
    step s = .next { s with host := rest, resp := some (.data (s.readPlace pl)) } := by
  have hc : ¬({ s with host := rest }.busy && !exactWhileBusy pl) = true := by
    simp [hx]
  refine step_of_data (t := { s with host := rest }) hr hh ?_
  rw [State.access, hp]
  simp only [State.portRead, if_neg hc, readPlace_withHost]

theorem step_read_drawn (hb : s.busy = true) (hx : exactWhileBusy pl = false) :
    step s = .next { s with
      host := rest, resp := some (.data (Config.busyRead s.draws)), draws := s.draws + 1 } := by
  have hc : ({ s with host := rest }.busy && !exactWhileBusy pl) = true := by
    simpa [State.busy, hx] using hb
  refine step_of_data (t := { s with host := rest, draws := s.draws + 1 }) hr hh ?_
  rw [State.access, hp]
  simp only [State.portRead, if_pos hc]
end

/-- The places whose read is exact while BUSY: those of R95, and the reserved offsets. -/
theorem exactWhileBusy_iff (pl : Place) : exactWhileBusy pl = true ↔
    pl ∈ [Place.reg .id, .reg .param0, .reg .param1, .reg .param2, .reg .param3, .reg .ctrl, .reg .status,
      .reserved] := by
  cases pl with
  | reg r => cases r <;> decide
  | reserved => decide
  | _ => simp [exactWhileBusy]

theorem writtenWhileBusy_iff (pl : Place) : writtenWhileBusy pl = true ↔ pl = .reg .ctrl ∨ pl = .reg .status := by
  cases pl with
  | reg r => cases r <;> decide
  | _ => simp [writtenWhileBusy]

theorem busy_of_seq {s : State} {w : Word} (h : s.seq = .busy w) : s.busy = true := by
  rw [busy_iff, h]
  nofun

/-- Settles O45: an exact read, or a drawn one, by the place. -/
theorem busyReadsAreExactOrFree : Obligations.BusyReadsAreExactOrFree := by
  refine ⟨fun s pl w rest hr hw hin hh => ⟨fun hmem => ?_, fun hnot => ?_⟩, fun s off w rest hr _ hres hh => ?_⟩
  · have hx : exactWhileBusy pl = true := (exactWhileBusy_iff pl).2 (List.mem_append_left [Place.reserved] hmem)
    exact step_read_exact hr hh (resolve_readForm hin) hx
  · have hx : exactWhileBusy pl = false := Bool.eq_false_iff.2 (mt (exactWhileBusy_iff pl).1 hnot)
    exact step_read_drawn hr hh (resolve_readForm hin) (busy_of_seq hw) hx
  · exact step_read_exact hr hh (resolve_read_reserved hres) rfl

/-! ## What the places read -/

/-- A narrow field reads with zeros above it (10_state.md section 2). -/
theorem setWidth_eq_zero_append {n : Nat} (m : Nat) (x : BitVec n) : x.setWidth (m + n) = 0#m ++ x := by
  apply BitVec.eq_of_toNat_eq
  have hlt : x.toNat < 2 ^ (m + n) := x.isLt.trans_le (Nat.pow_le_pow_right (by decide) (by omega))
  rw [toNat_zero_append, BitVec.toNat_setWidth, Nat.mod_eq_of_lt hlt]

theorem getLsbD_packWord (f : Nat → Bool) {b : Nat} (hb : b < 32) : (packWord f).getLsbD b = f b := by
  rw [packWord, BitVec.getLsbD_ofFnLE, dif_pos hb]

theorem getLsbD_bitWord (s : State) (w : Nat) {b : Nat} (hb : b < 32) :
    (s.readPlace (.bitWord w)).getLsbD b = s.bitAt (32 * w + b) := by
  rw [State.readPlace, State.bitWordAt, getLsbD_packWord _ hb]

/-- Settles O43: an idle read as a step, and what each place reads. -/
theorem idleReadAnswersThePlaceAndChangesNothing : Obligations.IdleReadAnswersThePlaceAndChangesNothing := by
  refine ⟨fun s pl rest hr hi hin hh => ?place, fun s off rest hr hi hres hh => ?reserved, fun s => ?registers,
    fun s => ⟨fun i => ⟨setWidth_eq_zero_append 24 _, rfl⟩, fun p => setWidth_eq_zero_append 24 _,
      fun w b hb => getLsbD_bitWord s w hb⟩⟩
  case place =>
    rw [← readPlace_withHost s rest pl]
    exact step_read_idle hr hi hh (resolve_readForm hin)
  case reserved => exact step_read_idle hr hi hh (resolve_read_reserved hres)
  case registers =>
    exact ⟨rfl, rfl, rfl, rfl, rfl, rfl, rfl, setWidth_eq_zero_append 24 _, rfl, rfl, rfl, rfl, rfl, rfl,
      setWidth_eq_zero_append 22 _, setWidth_eq_zero_append 23 _, setWidth_eq_zero_append 23 _,
      setWidth_eq_zero_append 24 _, fun _ => rfl⟩

/-! ## Writes while BUSY -/

/-- Settles O44: a dropped write, or one that is taken also while BUSY. -/
theorem busyWritesAreDroppedAndOverrun : Obligations.BusyWritesAreDroppedAndOverrun := by
  intro s pl v w rest hr hw hin hh
  have hp := resolve_writeForm hin v
  refine ⟨fun hctrl hstatus => ?_, ?_, ?_⟩
  · have hd : writtenWhileBusy pl = false :=
      Bool.eq_false_iff.2 (mt (writtenWhileBusy_iff pl).1 (not_or.2 ⟨hctrl, hstatus⟩))
    exact step_write_dropped hr (busy_of_seq hw) hh hp hd
  · rintro rfl
    exact step_write_taken hr hh hp fun _ => rfl
  · rintro rfl
    exact step_write_taken hr hh hp fun _ => rfl

/-! ## Accesses while a command runs -/

/-- A host access to a BUSY block changes the port's part of the state only (20_memory.md R94, R95). -/
theorem portTurn_busy {s t : State} {a : Access} (hb : s.busy = true) (h : portTurn a s = .next t) :
    t = s.withPort t ∧ t.host = s.host := by
  obtain ⟨-, r, u, hu, hr, rfl⟩ := portTurn_cases h
  obtain ⟨pl, -, -, ⟨-, -, -, ⟨-, rfl⟩ | ⟨-, -, rfl⟩⟩ | ⟨-, -, v, -, -, ⟨-, rfl⟩ | ⟨hpl, rfl⟩⟩⟩ := access_cases hu hr
  · exact ⟨rfl, rfl⟩
  · exact ⟨rfl, rfl⟩
  · exact ⟨rfl, rfl⟩
  · obtain rfl | rfl := hpl hb <;> exact ⟨rfl, rfl⟩

theorem step_access {s t : State} {a : Access} {rest : List HostEvent} (hh : s.host = .port a :: rest)
    (h : step s = .next t) : portTurn a { s with host := rest } = .next t := by
  rwa [step, hh] at h

theorem run_succ {n : Nat} {s u : State} (h : Sys2Proof.core.run (n + 1) s = .next u) :
    ∃ t, step s = .next t ∧ Sys2Proof.core.run n t = .next u := by
  cases hs : step s <;> simp only [Host.Core.run, Sys2Proof.core, hs] at h
  case next t => exact ⟨t, rfl, h⟩
  all_goals cases h

/-- Accesses alone leave a BUSY block as it is, but for the port's part. -/
theorem run_accesses_busy {accesses : List Access} {s u : State} (hb : s.busy = true)
    (hh : s.host = accesses.map .port) (h : Sys2Proof.core.run accesses.length s = .next u) :
    u = s.withPort u ∧ u.host = [] := by
  induction accesses generalizing s with
  | nil =>
    cases h
    exact ⟨rfl, hh⟩
  | cons a accesses ih =>
    obtain ⟨t, hs, hrun⟩ := run_succ h
    obtain ⟨ht, hhost⟩ := portTurn_busy (s := { s with host := accesses.map .port }) hb (step_access hh hs)
    have hbt : t.busy = true := by rw [ht]; exact hb
    obtain ⟨hu, hnil⟩ := ih hbt hhost hrun
    rw [ht, State.withPort_withPort] at hu
    exact ⟨hu, hnil⟩

/-- Settles O46: by induction on the accesses, each of which changes the port's part only. -/
theorem hostCannotTouchARunningCommand : Obligations.HostCannotTouchARunningCommand := by
  intro accesses s u w hw hh h
  obtain ⟨hu, hnil⟩ := run_accesses_busy (busy_of_seq hw) hh h
  rw [← hnil]
  exact hu

/-! ## Writes while IDLE -/

theorem setWidth_eq_low_byte (v : Word) : v.setWidth 8 = v.extractLsb' 0 8 := by
  ext i hi
  simp

theorem low_byte_zero_extended (v : Word) : (v.setWidth 8).setWidth 32 = v &&& 0xFF#32 := by
  have hmask : (0xFF#32 : Word) = (BitVec.allOnes 8).setWidth (24 + 8) := rfl
  rw [hmask, BitVec.and_setWidth_allOnes 24 8 v]
  exact setWidth_eq_zero_append 24 _

section
variable (s : State) (v : Word)

theorem alphaSymAt_write (i j : Nat) : (s.writePlace (.alphaSym i) v).alphaSymAt j =
    if j = i then v.setWidth 8 else s.alphaSymAt j :=
  Ram.getD_set _ _ _ _ _

theorem alphaFreqAt_write (i j : Nat) : (s.writePlace (.alphaFreq i) v).alphaFreqAt j =
    if j = i then v else s.alphaFreqAt j :=
  Ram.getD_set _ _ _ _ _

theorem textAt_write (p j : Nat) : (s.writePlace (.text p) v).textAt j =
    if j = p then v.setWidth 8 else s.textAt j :=
  Ram.getD_set _ _ _ _ _

theorem bitAt_write (w q : Nat) : (s.writePlace (.bitWord w) v).bitAt q =
    if 32 * w ≤ q ∧ q < 32 * w + 32 then v.getLsbD (q - 32 * w) else s.bitAt q := by
  simp only [State.writePlace, State.bitAt, bitIn, State.withMem_mem, State.withMem_epoch, Ram.getD_fill]

theorem bitAt_write_word (w : Nat) {b : Nat} (hb : b < 32) :
    (s.writePlace (.bitWord w) v).bitAt (32 * w + b) = v.getLsbD b := by
  rw [bitAt_write, if_pos (by omega), Nat.add_sub_cancel_left]

theorem bitAt_write_other {w q : Nat} (hq : q / 32 ≠ w) : (s.writePlace (.bitWord w) v).bitAt q = s.bitAt q := by
  have hout : ¬(32 * w ≤ q ∧ q < 32 * w + 32) := by omega
  rw [bitAt_write, if_neg hout]

theorem writePlace_bitWord_frame (w : Nat) : s.writePlace (.bitWord w) v =
    { s with mem := { s.mem with bit := (s.writePlace (.bitWord w) v).mem.bit } } := by
  simp only [State.writePlace, State.withMem]

theorem bitWord_read_back (w : Nat) : (s.writePlace (.bitWord w) v).readPlace (.bitWord w) = v :=
  BitVec.eq_of_getLsbD_eq fun b hb => by rw [getLsbD_bitWord _ _ hb, bitAt_write_word s v w hb]
end

/-- Settles O49: each window's write rule, read at its own entry and at the others. -/
theorem windowWritesReadBackAndTouchNothingElse : Obligations.WindowWritesReadBackAndTouchNothingElse := by
  intro s v
  refine ⟨fun pl rest hr hi hin hh => step_write_idle hr hi hh (resolve_writeForm hin v), fun i => ?sym, fun i => ?freq,
    fun p => ?text, fun w => ?bit⟩
  case sym =>
    have hself : (s.writePlace (.alphaSym i) v).alphaSymAt i = v.setWidth 8 := by rw [alphaSymAt_write, if_pos rfl]
    refine ⟨?_, hself.trans (setWidth_eq_low_byte v), fun j hj => by rw [alphaSymAt_write, if_neg hj], rfl⟩
    rw [State.readPlace, hself, low_byte_zero_extended]
  case freq =>
    have hself : (s.writePlace (.alphaFreq i) v).alphaFreqAt i = v := by rw [alphaFreqAt_write, if_pos rfl]
    exact ⟨hself, hself, fun j hj => by rw [alphaFreqAt_write, if_neg hj], rfl⟩
  case text =>
    have hself : (s.writePlace (.text p) v).textAt p = v.setWidth 8 := by rw [textAt_write, if_pos rfl]
    refine ⟨?_, hself.trans (setWidth_eq_low_byte v), fun j hj => by rw [textAt_write, if_neg hj], rfl⟩
    rw [State.readPlace, hself, low_byte_zero_extended]
  case bit =>
    exact ⟨bitWord_read_back s v w, fun b hb => bitAt_write_word s v w hb,
      fun q hq => bitAt_write_other s v hq, writePlace_bitWord_frame s v w⟩

/-! ## The read-only windows -/

/-- The four fields of word 3 of a NODE entry (20_memory.md R88). -/
theorem childWord_fields (r l : NodeIdx) :
    (0#7 ++ r ++ 0#7 ++ l).extractLsb' 0 9 = l ∧ (0#7 ++ r ++ 0#7 ++ l).extractLsb' 9 7 = 0#7 ∧
      (0#7 ++ r ++ 0#7 ++ l).extractLsb' 16 9 = r ∧ (0#7 ++ r ++ 0#7 ++ l).extractLsb' 25 7 = 0#7 := by
  refine ⟨BitVec.extractLsb'_append_eq_right, ?_, ?_, ?_⟩
  · rw [BitVec.extractLsb'_append_eq_of_le (by decide)]
    exact BitVec.extractLsb'_append_eq_right
  · rw [BitVec.extractLsb'_append_eq_of_le (by decide), BitVec.extractLsb'_append_eq_of_le (by decide)]
    exact BitVec.extractLsb'_append_eq_right
  · rw [BitVec.extractLsb'_append_eq_of_le (by decide), BitVec.extractLsb'_append_eq_of_le (by decide)]
    exact BitVec.extractLsb'_append_eq_left

/-- A live slot of the PQ window has bit 31 set over its node index (R89). -/
theorem liveSlot_word (k : NodeIdx) : 1#1 ++ 0#22 ++ k = 0x80000000#32 ||| k.setWidth 32 := by
  have hhigh : (0x80000000#32 : Word) = (1#1 ++ 0#22) ++ 0#9 := rfl
  have hlow : k.setWidth 32 = 0#23 ++ k := setWidth_eq_zero_append 23 k
  rw [hhigh, hlow, BitVec.or_append, BitVec.or_zero, BitVec.zero_or]

theorem nodeWord_masked {s : State} {k : Nat} (w : Nat) (h : s.nodeCount.toNat ≤ k ∨ k = 511) : s.nodeWord k w = 0#32 := by
  have hmask : ¬(k < s.nodeCount.toNat ∧ k < Config.nodeMax) := by
    rw [Config.nodeMax]
    omega
  exact if_neg hmask

section
variable {s : State} {c w : Nat}

theorem codeWord_masked (h : s.codesValid = false) : s.codeWord c w = 0#32 := by
  rw [State.codeWord, if_pos h]

variable (hv : s.codesValid = true)
include hv

theorem codeWord_header : s.codeWord c 0 =
    0#16 ++ (codeIn s.epoch s.mem.code c).len ++ 0#7 ++ BitVec.ofBool (codeIn s.epoch s.mem.code c).valid := by
  rw [State.codeWord, if_neg (ne_false_of_eq_true hv), if_pos rfl]

theorem getLsbD_codeWord (h1 : 1 ≤ w) (h8 : w ≤ 8) {b : Nat} (hb : b < 32) :
    (s.codeWord c w).getLsbD b = (codeIn s.epoch s.mem.code c).bits.getLsbD (32 * (w - 1) + b) := by
  have hlt : 32 * (w - 1) + b < 256 := by omega
  rw [State.codeWord, if_neg (ne_false_of_eq_true hv), if_neg (by omega), if_pos h8, BitVec.getLsbD_extractLsb',
    BitVec.getLsbD_setWidth, decide_eq_true hb, decide_eq_true hlt, Bool.true_and, Bool.true_and]

theorem codeWord_padding (h9 : 9 ≤ w) : s.codeWord c w = 0#32 := by
  rw [State.codeWord, if_neg (ne_false_of_eq_true hv), if_neg (by omega), if_neg (by omega)]
end

/-- A read-only register ignores a write (10_state.md section 2). -/
theorem writeReg_readOnly (s : State) (v : Word) {r : Reg}
    (h : r ∉ [Reg.ctrl, .cmd, .status, .alphaN, .textLen, .bitLen]) : s.writeReg r v = s := by
  cases r with
  | ctrl | cmd | status | alphaN | textLen | bitLen => exact absurd (by decide) h
  | _ => rfl

/-- Settles O50: each window's words where they are live and where they are masked. -/
theorem readOnlyWindowsShowWhatIsLive : Obligations.ReadOnlyWindowsShowWhatIsLive := by
  intro s
  refine ⟨fun k hk hlive => ?node, fun k w => nodeWord_masked w, fun j hj => ?_, fun j hj => if_neg (by omega),
    fun hv c => ⟨codeWord_header hv, fun w b h1 h8 hb => getLsbD_codeWord hv h1 h8 hb, fun w => codeWord_padding hv⟩,
    fun hv c w => codeWord_masked hv, fun k hk => if_pos hk, fun k hk => if_neg (by omega),
    ⟨fun _ _ => rfl, fun _ => rfl, fun _ _ => rfl, fun _ => rfl⟩,
    fun v => ⟨fun _ _ => rfl, fun _ => rfl, fun _ _ => rfl, fun _ => rfl, rfl, fun r => writeReg_readOnly s v⟩⟩
  case node =>
    have h0 : s.nodeWord k 0 = 0#16 ++ (s.nodeAt k).sym ++ 0#6 ++ 1#1 ++ BitVec.ofBool (s.nodeAt k).leaf :=
      if_pos ⟨hlive, hk⟩
    have h1 : s.nodeWord k 1 = (s.nodeAt k).weight.extractLsb' 0 32 := if_pos ⟨hlive, hk⟩
    have h2 : s.nodeWord k 2 = 0#24 ++ (s.nodeAt k).weight.extractLsb' 32 8 := if_pos ⟨hlive, hk⟩
    have h3 : s.nodeWord k 3 = 0#7 ++ (s.nodeAt k).right ++ 0#7 ++ (s.nodeAt k).left := if_pos ⟨hlive, hk⟩
    rw [h1, h2, h3]
    exact ⟨h0, weight_words _, childWord_fields _ _⟩
  · rw [State.pqWord, if_pos hj, liveSlot_word]

end Sys2Proof.Machine

/-! # Encoding: the decoder and the words of the opcode map -/

namespace Sys2Proof

/-! ## The fields of a word -/

theorem fieldsOf_append (res : BitVec 24) (op : BitVec 8) : fieldsOf (res ++ op) = { opcode := op, res := res } := by
  rw [fieldsOf, BitVec.extractLsb'_append_eq_left, BitVec.extractLsb'_append_eq_right]

/-- A word is its two fields, RES above OPCODE (30_encoding.md R111). -/
theorem res_append_opcode (w : Word) : (fieldsOf w).res ++ (fieldsOf w).opcode = w := by
  have hjoin : w.extractLsb' 8 24 ++ w.extractLsb' 0 8 = w.extractLsb' 0 32 :=
    BitVec.extractLsb'_append_extractLsb'_eq_extractLsb' rfl
  exact hjoin.trans BitVec.extractLsb'_eq_self

theorem encode_eq_append (i : Instr) : encode i = 0#24 ++ opcodeOf i :=
  Machine.setWidth_eq_zero_append 24 (opcodeOf i)

theorem eq_encode_iff {w : Word} {i : Instr} :
    w = encode i ↔ (fieldsOf w).res = 0#24 ∧ (fieldsOf w).opcode = opcodeOf i := by
  rw [encode_eq_append]
  constructor
  · rintro rfl
    rw [fieldsOf_append]
    exact ⟨rfl, rfl⟩
  · rintro ⟨hres, hop⟩
    rw [← hres, ← hop, res_append_opcode]

/-- Joining the byte lanes, lane 0 lowest, gives the word back (20_memory.md R85). -/
theorem decodeBytes_lanesOf (w : Word) : decodeBytes (lanesOf w) = decode w := by
  have hjoin : w.extractLsb' 24 8 ++ w.extractLsb' 16 8 ++ w.extractLsb' 8 8 ++ w.extractLsb' 0 8 = w := by
    rw [BitVec.extractLsb'_append_extractLsb'_eq_extractLsb' (rfl : 24 = 16 + 8),
      BitVec.extractLsb'_append_extractLsb'_eq_extractLsb' (rfl : 16 = 8 + 8),
      BitVec.extractLsb'_append_extractLsb'_eq_extractLsb' (rfl : 8 = 0 + 8)]
    exact BitVec.extractLsb'_eq_self
  exact congrArg decode hjoin

/-! ## The opcode map -/

theorem Instr.mem_all (i : Instr) : i ∈ Instr.all := by
  cases i <;> decide

theorem mem_all_map_prodMk_iff {α : Type} (f : Instr → α) {a : α} {i : Instr} :
    (a, i) ∈ Instr.all.map (fun j => (f j, j)) ↔ a = f i := by
  rw [List.mem_map]
  constructor
  · rintro ⟨j, -, hj⟩
    obtain ⟨rfl, rfl⟩ := Prod.mk.inj hj
    rfl
  · rintro rfl
    exact ⟨i, i.mem_all, rfl⟩

/-- The decoder's rows pair each command with its opcode. -/
theorem opcodeRows_eq_map : opcodeRows = Instr.all.map fun i => (opcodeOf i, i) := rfl

/-- The opcodes that R115 leaves assigned are those of the commands. -/
theorem assignedOpcodes_eq_map : assignedOpcodes = Instr.all.map opcodeOf := rfl

theorem lookup_opcodeRows_eq_some_iff {op : BitVec 8} {i : Instr} :
    opcodeRows.lookup op = some i ↔ op = opcodeOf i := by
  constructor
  · intro h
    obtain ⟨before, after, hsplit, -⟩ := List.lookup_eq_some_iff.mp h
    have hmem : (op, i) ∈ opcodeRows := by
      rw [hsplit]
      exact List.mem_append_right before List.mem_cons_self
    rw [opcodeRows_eq_map] at hmem
    exact (mem_all_map_prodMk_iff opcodeOf).mp hmem
  · rintro rfl
    cases i <;> rfl

theorem mem_assignedOpcodes_iff {op : BitVec 8} : op ∈ assignedOpcodes ↔ ∃ i, op = opcodeOf i := by
  rw [assignedOpcodes_eq_map, List.mem_map]
  exact ⟨fun ⟨i, _, h⟩ => ⟨i, h.symm⟩, fun ⟨i, h⟩ => ⟨i, i.mem_all, h.symm⟩⟩

/-- A legal word is the word of some command (R115). -/
theorem fieldsOf_wf_iff {w : Word} : (fieldsOf w).wf = true ↔ ∃ i, w = encode i := by
  rw [CmdFields.wf, Bool.and_eq_true, beq_iff_eq, List.contains_iff_mem, mem_assignedOpcodes_iff, ← exists_and_left]
  exact exists_congr fun i => eq_encode_iff.symm

/-! ## The decoder: one equation for each of its answers (R114) -/

theorem decode_of_res_ne_zero {w : Word} (hres : (fieldsOf w).res ≠ 0#24) :
    decode w = .error (.reservedBits (fieldsOf w).res) :=
  if_pos hres

theorem decode_of_opcode_reserved {w : Word} (hres : (fieldsOf w).res = 0#24)
    (hop : opcodeRows.lookup (fieldsOf w).opcode = none) :
    decode w = .error (.reservedOpcode (fieldsOf w).opcode) := by
  rw [decode, if_neg (not_not_intro hres), hop]

@[simp] theorem decode_encode (i : Instr) : decode (encode i) = .ok i := by
  obtain ⟨hres, hop⟩ := eq_encode_iff.mp (rfl : encode i = encode i)
  rw [decode, if_neg (not_not_intro hres), lookup_opcodeRows_eq_some_iff.mpr hop]

/-- The decoder answers a command for its one word only. -/
theorem decode_eq_ok_iff {w : Word} {i : Instr} : decode w = .ok i ↔ w = encode i := by
  constructor
  · intro h
    by_cases hres : (fieldsOf w).res = 0#24
    · cases hop : opcodeRows.lookup (fieldsOf w).opcode with
      | none =>
        rw [decode_of_opcode_reserved hres hop] at h
        cases h
      | some j =>
        have hw : w = encode j := eq_encode_iff.mpr ⟨hres, lookup_opcodeRows_eq_some_iff.mp hop⟩
        have hij : j = i := Except.ok.inj ((decode_encode j).symm.trans (hw ▸ h))
        rw [hw, hij]
    · rw [decode_of_res_ne_zero hres] at h
      cases h
  · rintro rfl
    exact decode_encode i

/-! ## The statements -/

/-- Settles O2: a word decodes to a command exactly when it is that command's word. -/
theorem decodeOfEncodeIsTheCommand : Obligations.DecodeOfEncodeIsTheCommand := by
  refine ⟨fun i _ => ⟨decode_encode i, (decodeBytes_lanesOf _).trans (decode_encode i)⟩, decodeBytes_lanesOf,
    fun w => ?legal⟩
  case legal =>
    rw [fieldsOf_wf_iff]
    exact exists_congr fun i => decode_eq_ok_iff

/-- Settles O1: the nine words of the map are the words of the nine commands. -/
theorem decoderAcceptsExactlyTheOpcodeMap : Obligations.DecoderAcceptsExactlyTheOpcodeMap := by
  intro w i
  exact decode_eq_ok_iff.trans (mem_all_map_prodMk_iff encode).symm

/-- Settles O3: five words of commands, two with a reserved opcode and two whose RES is not 0. -/
theorem decodesWordsWrittenInTheSpec : Obligations.DecodesWordsWrittenInTheSpec :=
  ⟨decode_encode .buildTree, decode_encode .seed, decode_encode .genCodes, decode_encode .encode, decode_encode .decode,
    decode_of_opcode_reserved rfl rfl, decode_of_opcode_reserved rfl rfl,
    decode_of_res_ne_zero (by decide), decode_of_res_ne_zero (by decide)⟩

end Sys2Proof

/-! # What pqExtractMin answers (40_priority_queue.md R147) -/

namespace Sys2Proof.Machine

theorem mem_queue_iff {s : State} {q : NodeIdx} : q ∈ s.queue ↔ ∃ j < s.pqSize.toNat, s.heapAt j = q := by
  simp [State.queue]

/-- On a heap, for either tie rule, the answer is an entry of the queue and `le` to every entry: it is the
first slot, and no key falls on the path from there down to any other slot. -/
theorem pqExtractMin_least (tb : Config.TieBreak) {s : State} (hs : s.pqSize ≠ 0#9) (hh : HeapOrdered tb s) :
    ∃ k t, pqExtractMin tb s = .ok k t ∧ k ∈ s.queue ∧ ∀ q ∈ s.queue, s.keyLe tb k q := by
  obtain ⟨h, hok, hperm, -⟩ := pqExtractMin_ok tb hs
  refine ⟨_, _, hok, hperm.mem_iff.mpr List.mem_cons_self, fun q hq => ?_⟩
  obtain ⟨j, hj, rfl⟩ := mem_queue_iff.mp hq
  exact hh.first_least (before_decides s tb) j hj

/-- Settles O14: the first slot of a heap is least, and under INDEX an entry that is least and not equal
comes strictly before. -/
theorem extractMinAnswersALeastEntry : Obligations.ExtractMinAnswersALeastEntry := by
  refine fun s hs => ⟨fun hheap => ?index, fun hheap => ?any⟩
  case index =>
    have hh : HeapOrdered .index s := fun c hc hc1 _ => before_keyLe (hheap c hc hc1)
    obtain ⟨k, t, hok, hmem, hleast⟩ := pqExtractMin_least .index hs hh
    exact ⟨k, t, hok, hmem, fun q hq => or_iff_not_imp_left.mpr fun hne =>
      before_of_keyLe (hleast q hq) (Ne.symm hne)⟩
  case any => exact pqExtractMin_least .any hs fun c hc hc1 _ => hheap c hc hc1

end Sys2Proof.Machine

/-! # The errors of the builder's commands, and FINISH (41_tree_builder.md R160, R164, R165) -/

namespace Sys2Proof.Machine

/-! ## MERGE and FINISH -/

/-- Settles O16: each command checks PQ_SIZE before anything else. -/
theorem mergeAndFinishErrorsChangeNothingElse : Obligations.MergeAndFinishErrorsChangeNothingElse := by
  refine fun s => ⟨fun h2 => ?merge, fun h0 => ?empty, fun h2 => ?pending⟩
  case merge => rw [exec, execMerge, mergeBody, if_pos h2]; rfl
  case empty => rw [exec, execFinish, finishBody, if_pos h0]; rfl
  case pending =>
    have h0 : s.pqSize ≠ 0#9 := fun h => by rw [h] at h2; exact absurd h2 (by decide)
    rw [exec, execFinish, finishBody, if_neg h0, if_pos h2]; rfl

/-- Taking the last entry out leaves H as it is: no other entry has to move to the first slot (R144). -/
theorem takeRoot_last {s : State} (h1 : s.pqSize = 1#9) :
    takeRoot .index s = .ok () { s with root := s.heapAt 0, treeValid := true, pqSize := 0#9 } := by
  simp [takeRoot, pqExtractMin, State.withQueue, h1]

theorem exec_finish_last {s : State} (h1 : s.pqSize = 1#9) :
    exec .finish s = .next (takeRoot .index s).complete := by
  rw [exec, execFinish, finishBody, if_neg (by rw [h1]; decide), if_neg (by rw [h1]; decide)]
  rfl

/-- Settles O17: with one entry left FINISH takes the root. -/
theorem finishMakesTheLastEntryTheRoot : Obligations.FinishMakesTheLastEntryTheRoot := by
  refine ⟨by decide, fun s h1 => ?_⟩
  rw [exec_finish_last h1, takeRoot_last h1]
  rfl

/-! ## The checks of SEED -/

theorem seedBody_raised (tb : Config.TieBreak) {s : State} {e : ErrCode} {i0 i1 : Word}
    (h : seedError s = some (e, i0, i1)) : seedBody tb s = .raised e i0 i1 s := by
  rw [seedBody, h]

/-- SEED and BUILD_TREE make the same checks first, and raise before any change of state (R160, R166). -/
theorem exec_of_seedError {s : State} {e : ErrCode} {i0 i1 : Word} (h : seedError s = some (e, i0, i1))
    {i : Instr} (hi : i ∈ [Instr.seed, Instr.buildTree]) : exec i s = .next (s.raise e i0 i1) := by
  obtain rfl | rfl : i = .seed ∨ i = .buildTree := by simpa using hi
  · rw [exec, execSeed, seedBody_raised _ h, Cmd.complete_raised]
  · rw [exec, execBuildTree, buildBody, seedBody_raised _ h, Cmd.bind_raised, Cmd.complete_raised]

theorem seedError_empty {s : State} (h : s.alphaN = 0#32) : seedError s = some (.emptyAlphabet, 0#32, 0#32) := by
  rw [seedError, if_pos h]

theorem alphaN_ne_zero {s : State} (h : 0 < s.alphaN.toNat) : s.alphaN ≠ 0#32 := by
  rintro h0
  simp [h0] at h

theorem seedError_too_large {s : State} (h : 256 < s.alphaN.toNat) :
    seedError s = some (.alphabetTooLarge, s.alphaN, 0#32) := by
  rw [seedError, if_neg (alphaN_ne_zero (by omega)), if_pos (c := s.alphaN.toNat > Config.nMax) h]

/-- The first value that a search over 0, 1, …, n-1 finds is the one of the first index that has any. -/
theorem findSome?_range_of_first {β : Type} {f : Nat → Option β} {n k : Nat} {b : β} (hk : k < n) (hb : f k = some b)
    (hfirst : ∀ m < k, f m = none) : (List.range n).findSome? f = some b := by
  have hnone : (List.range k).findSome? f = none :=
    List.findSome?_eq_none_iff.2 fun m hm => hfirst m (List.mem_range.1 hm)
  obtain ⟨d, rfl⟩ : ∃ d, n = k + (d + 1) := ⟨n - k - 1, by omega⟩
  rw [List.range_add, List.findSome?_append, hnone, List.range_succ_eq_map]
  simp [hb]

/-- SEED's error is the one of the first entry that has any (60_exceptions.md R265). -/
theorem seedError_entry {s : State} {k : Nat} {x : ErrCode × Word × Word} (hk : k < s.alphaN.toNat)
    (hmax : s.alphaN.toNat ≤ 256) (hx : entryError s k = some x)
    (hfirst : ∀ m < k, s.alphaFreqAt m ≠ 0#32 ∧ ∀ j < m, s.alphaSymAt j ≠ s.alphaSymAt m) : seedError s = some x := by
  rw [seedError, if_neg (alphaN_ne_zero (by omega)), if_neg (c := s.alphaN.toNat > Config.nMax) (Nat.not_lt.2 hmax)]
  exact findSome?_range_of_first hk hx fun m hm => (entryError_none_iff s m).2 (hfirst m hm)

theorem entryError_frequency {s : State} {k : Nat} (h : s.alphaFreqAt k = 0#32) :
    entryError s k = some (.badFrequency, BitVec.ofNat 32 k, 0#32) := by
  rw [entryError, if_pos h]

theorem firstDuplicate_eq_some {s : State} {k j : Nat} (hj : j < k) (heq : s.alphaSymAt j = s.alphaSymAt k)
    (hfirst : ∀ l < j, s.alphaSymAt l ≠ s.alphaSymAt k) : s.firstDuplicate k = some j :=
  List.find?_range_eq_some.2 ⟨by simpa using heq, List.mem_range.2 hj, fun l hl => by simpa using hfirst l hl⟩

theorem entryError_duplicate {s : State} {k j : Nat} (hf : s.alphaFreqAt k ≠ 0#32) (hd : s.firstDuplicate k = some j) :
    entryError s k = some (.duplicateSymbol, BitVec.ofNat 32 k, BitVec.ofNat 32 j) := by
  rw [entryError, if_neg hf, hd]

/-- Settles O13: the alphabet's size is checked first, then its entries one by one. -/
theorem seedAndBuildReportTheFirstError : Obligations.SeedAndBuildReportTheFirstError := by
  refine fun s i hi => ⟨fun h => ?empty, fun h => ?large, fun k hk hmax hfirst =>
    ⟨fun hf => ?frequency, fun hf j hj heq hfirstj => ?duplicate⟩⟩
  case empty => exact exec_of_seedError (seedError_empty h) hi
  case large => exact exec_of_seedError (seedError_too_large h) hi
  case frequency => exact exec_of_seedError (seedError_entry hk hmax (entryError_frequency hf) hfirst) hi
  case duplicate =>
    have hdup := entryError_duplicate hf (firstDuplicate_eq_some hj heq hfirstj)
    exact exec_of_seedError (seedError_entry hk hmax hdup hfirst) hi

end Sys2Proof.Machine

/-! # What SEED and MERGE leave alone (41_tree_builder.md R160-R164) -/

namespace Sys2Proof.Machine

/-! ## The slots past the queue -/

section
variable (before : NodeIdx → NodeIdx → Bool) (e n : Nat)

theorem foldl_siftDown_outside (js : List Nat) (h : Ram NodeIdx) {i : Nat} (hj : ∀ j ∈ js, j < n) (hi : n ≤ i) :
    heapIn e (js.foldl (fun h j => siftDown before e n n h j) h) i = heapIn e h i := by
  induction js generalizing h with
  | nil => rfl
  | cons j js ih =>
    rw [List.foldl_cons, ih _ fun k hk => hj k (.tail _ hk), siftDown_outside before e n n h (hj j (.head _)) hi]

theorem heapify_outside (h : Ram NodeIdx) {i : Nat} (hi : n ≤ i) : heapIn e (heapify before e n h) i = heapIn e h i := by
  refine foldl_siftDown_outside before e n _ h (fun j hj => ?_) hi
  rw [List.mem_reverse, List.mem_range] at hj
  omega

end

theorem seeded_heap_outside (s : State) {j : Nat} (hj : s.alphaN.toNat ≤ j) : s.seeded.heapAt j = s.heapAt j := by
  refine (heapify_outside _ s.epoch s.alphaN.toNat _ hj).trans ?_
  rw [heapIn_fill, if_neg (Nat.not_lt.2 hj)]
  rfl

/-- Taking the first entry out moves entries among the slots of the queue only (40_priority_queue.md R144). -/
theorem Extracted.heap_outside {s t : State} {k : NodeIdx} (hx : Extracted s k t) {j : Nat} (hj : s.pqSize.toNat ≤ j) :
    t.heapAt j = s.heapAt j := by
  have hp := hx.pqSize
  have hok := hx.ok
  rw [pqExtractMin, if_neg (by bv_omega)] at hok
  injection hok with _ ht
  subst ht
  show heapIn s.epoch (if _ then _ else _) j = _
  split
  · rename_i hn
    rw [siftDown_outside _ _ _ _ _ hn (by omega), heapIn_set, if_neg (by omega)]
    rfl
  · rfl

/-- Queueing one entry writes no slot past the first free one (R143). -/
theorem pqInsert_heap_outside (k : NodeIdx) (s : State) {j : Nat} (hj : s.pqSize.toNat < j) :
    (pqInsert .index k s).heapAt j = s.heapAt j := by
  refine (siftUp_outside _ s.epoch _ _ hj).trans ?_
  rw [heapIn_set, if_neg hj.ne']
  rfl

theorem mergeStep_heap_outside {s t : State} (h2 : 2 ≤ s.pqSize.toNat) (h : mergeStep .index s = .ok () t) {j : Nat}
    (hj : s.pqSize.toNat ≤ j) : t.heapAt j = s.heapAt j := by
  obtain ⟨l, r, s1, s2, x1, x2, rfl⟩ := mergeStep_parts h2 h
  have hp1 := x1.pqSize
  have hp2 := x2.pqSize
  calc (pqInsert .index (s2.nodeCount.setWidth 9) (s2.appendNode (s2.mergedNode l r))).heapAt j
    _ = s2.heapAt j := pqInsert_heap_outside _ _ (by rw [State.appendNode_pqSize]; omega)
    _ = s1.heapAt j := x2.heap_outside (by omega)
    _ = s.heapAt j := x1.heap_outside hj

/-! ## What is outside the builder's state -/

/-- The state with what the builder writes taken from b: the node store, the heap, their counts, ROOT and the two
flags. -/
def State.withBuilder (s b : State) : State :=
  { s with
    treeValid := b.treeValid
    codesValid := b.codesValid
    root := b.root
    nodeCount := b.nodeCount
    pqSize := b.pqSize
    mem := { s.mem with node := b.mem.node, heap := b.mem.heap } }

/-- A state without what the builder writes. -/
def State.outsideBuilder (s : State) : State := s.withBuilder State.reset

theorem eq_withBuilder {s t : State} (h : t.outsideBuilder = s.outsideBuilder) : t = s.withBuilder t :=
  congrArg (·.withBuilder t) h

theorem Extracted.eq_withQueue {s t : State} {k : NodeIdx} (hx : Extracted s k t) :
    ∃ h, t = s.withQueue h (s.pqSize - 1#9) := by
  have hp := hx.pqSize
  obtain ⟨h, e, -⟩ := pqExtractMin_ok .index (s := s) (by bv_omega)
  rw [hx.ok] at e
  injection e with _ ht
  exact ⟨h, ht⟩

theorem Extracted.nodeAt {s t : State} {k : NodeIdx} (hx : Extracted s k t) : t.nodeAt = s.nodeAt := by
  obtain ⟨h, rfl⟩ := hx.eq_withQueue
  rfl

theorem Extracted.outsideBuilder {s t : State} {k : NodeIdx} (hx : Extracted s k t) :
    t.outsideBuilder = s.outsideBuilder := by
  obtain ⟨h, rfl⟩ := hx.eq_withQueue
  rfl

theorem mergeStep_outsideBuilder {s t : State} (h2 : 2 ≤ s.pqSize.toNat) (h : mergeStep .index s = .ok () t) :
    t.outsideBuilder = s.outsideBuilder := by
  obtain ⟨l, r, s1, s2, x1, x2, rfl⟩ := mergeStep_parts h2 h
  exact x2.outsideBuilder.trans x1.outsideBuilder

/-! ## SEED -/

theorem exec_seed_ok {s : State} (ha : AlphabetOk s) : exec .seed s = .next s.seeded.succeed := by
  rw [exec, execSeed, seedBody_ok _ ha]
  rfl

theorem seeded_nodeAt (s : State) (k : Nat) :
    s.seeded.nodeAt k = if k < s.alphaN.toNat then s.leafOf k else s.nodeAt k :=
  nodeAt_seedLeaves s.alphaN.toNat s k

/-- Settles O12: SEED leaves a sound queue, and writes the nodes and the slots below ALPHA_N only. -/
theorem seedMakesLeavesAndTheirQueue : Obligations.SeedMakesLeavesAndTheirQueue := by
  intro s ha
  have hs := seeded_spec ha
  obtain ⟨-, -, hheap⟩ := hs.queueSound ha
  rw [hs.pqSize] at hheap
  refine ⟨_, exec_seed_ok ha, ?frame, hs.leaves, fun k hk => ?nodes, hs.queue, fun j h1 hj => hheap j hj h1,
    fun j hj => seeded_heap_outside s hj⟩
  case frame => rw [← BitVec.ofNat_toNat, ← BitVec.ofNat_toNat]; rfl
  case nodes => exact (seeded_nodeAt s k).trans (if_neg (Nat.not_lt.2 hk))

/-! ## MERGE -/

/-- l and then r are the least entries of a queue of which the others are `rest` (40_priority_queue.md R147). -/
structure LeastTwo (s : State) (l r : NodeIdx) (rest : List NodeIdx) : Prop where
  left : ∀ q ∈ r :: rest, s.before .index l q = true
  right : ∀ q ∈ rest, s.before .index r q = true

/-- What is taken out of a sound queue comes before every entry that is left. -/
theorem Extracted.before {s t : State} {k : NodeIdx} (hx : Extracted s k t) (hh : HeapOrdered .index s)
    (hnd : s.queue.Nodup) : ∀ q ∈ t.queue, s.before .index k q = true := by
  have hp := hx.pqSize
  obtain ⟨k', t', hok, -, hleast⟩ := pqExtractMin_least .index (s := s) (by bv_omega) hh
  rw [hx.ok] at hok
  cases hok
  obtain ⟨hnotin, -⟩ := List.nodup_cons.1 (hx.queue.nodup_iff.1 hnd)
  intro q hq
  exact before_of_keyLe (hleast q (hx.queue.mem_iff.2 (.tail _ hq))) (ne_of_mem_of_not_mem hq hnotin).symm

theorem before_congr {s t : State} (h : t.nodeAt = s.nodeAt) (a b : NodeIdx) :
    t.before .index a b = s.before .index a b := by
  rw [State.before, State.before, h]
  rfl

/-- The children of the node that a merge step makes are the two least entries of the queue. -/
theorem Merged.leastTwo {s t : State} {l r : NodeIdx} {rest : List NodeIdx} (hm : Merged s l r rest t)
    (h : mergeStep .index s = .ok () t) (hq : QueueSound s) : LeastTwo s l r rest := by
  obtain ⟨-, hnd, hh⟩ := (queueSound_iff s).1 hq
  obtain ⟨l', r', s1, s2, x1, x2, rfl⟩ := mergeStep_parts hm.two h
  obtain ⟨rfl, rfl⟩ : l' = l ∧ r' = r := by
    have hnew : (pqInsert .index (s2.nodeCount.setWidth 9) (s2.appendNode (s2.mergedNode l' r'))).nodeAt
        s.nodeCount.toNat = s2.mergedNode l' r' := by
      rw [← x1.nodeCount, ← x2.nodeCount]
      exact (nodeAt_appendNode s2 _ _).trans (if_pos rfl)
    rw [hm.newNode] at hnew
    injection hnew with _ _ _ hl hr
    exact ⟨hl.symm, hr.symm⟩
  obtain ⟨-, hnd1⟩ := List.nodup_cons.1 (x1.queue.nodup_iff.1 hnd)
  have hrest : rest.Perm s2.queue :=
    ((hm.oldQueue.symm.trans x1.queue).cons_inv.trans x2.queue).cons_inv
  refine ⟨fun q hq => x1.before hh hnd q (x2.queue.mem_iff.2 ((hrest.cons r').mem_iff.1 hq)), fun q hq => ?_⟩
  rw [← before_congr x1.nodeAt]
  exact x2.before (x1.heap hh) hnd1 q (hrest.mem_iff.1 hq)

theorem exec_merge_ok {s t : State} (h2 : 2 ≤ s.pqSize.toNat) (h : mergeStep .index s = .ok () t) :
    exec .merge s = .next t.succeed := by
  rw [exec, execMerge, mergeBody, if_neg (Nat.not_lt.2 h2), Config.tieBreak, h, Cmd.complete_ok]

/-- Settles O15: the merge step takes the two least entries, and writes the new node and the old queue's slots
only. -/
theorem mergeJoinsTheTwoLeastEntries : Obligations.MergeJoinsTheTwoLeastEntries := by
  intro s hc hq h2
  obtain ⟨l, r, rest, t, e, hm⟩ := mergeStep_merged hc h2
  have hleast := hm.leastTwo e hq
  refine ⟨l, r, rest, _, exec_merge_ok h2 e, hm.oldQueue, hleast.left r List.mem_cons_self, hleast.right, ?frame,
    hm.newNode, hm.oldNodes, hm.newQueue, fun j hj => mergeStep_heap_outside h2 e hj⟩
  case frame =>
    have hcount : t.nodeCount = s.nodeCount + 1#10 := by have := hm.nodeCount; bv_omega
    have hsize : t.pqSize = s.pqSize - 1#9 := by have := hm.pqSize; bv_omega
    have hframe := congrArg State.succeed (eq_withBuilder (mergeStep_outsideBuilder h2 e))
    simp only [State.withBuilder, hm.treeValid, hm.codesValid, hm.root, hcount, hsize] at hframe
    exact hframe

end Sys2Proof.Machine

/-! # BUILD_TREE (41_tree_builder.md R166-R169) -/

namespace Sys2Proof.Machine

/-! ## The loop -/

/-- What the merge steps keep, BUILD_TREE's loop keeps. -/
theorem mergeAll_keeps {P : State → Prop}
    (merged : ∀ {u v}, P u → 2 ≤ u.pqSize.toNat → mergeStep .index u = .ok () v → P v)
    {rounds : Nat} {s t : State} (hs : P s) (hc : CountsFit s) (h : mergeAll .index rounds s = .ok () t) : P t := by
  induction rounds generalizing s with
  | zero => cases h; exact hs
  | succ n ih =>
    rw [mergeAll] at h
    split at h
    · rename_i h2
      obtain ⟨l, r, rest, u, e, hm⟩ := mergeStep_merged hc h2
      rw [e] at h
      exact ih (merged hs h2 e) (hm.countsFit hc) h
    · cases h; exact hs

/-- What holds between the start state s and each state t that BUILD_TREE's loop passes through
(41_tree_builder.md R160-R168). -/
structure Building (s t : State) : Prop where
  sound : TreeSound t
  counts : t.nodeCount.toNat + t.pqSize.toNat = 2 * s.alphaN.toNat
  pqSize_le : t.pqSize.toNat ≤ s.alphaN.toNat
  weight : t.queueWeight = s.totalFreq
  lastQueued : ∃ q ∈ t.queue, q.toNat + 1 = t.nodeCount.toNat
  leaves : ∀ k < s.alphaN.toNat, t.nodeAt k = s.leafOf k
  inner : ∀ k, s.alphaN.toNat ≤ k → k < t.nodeCount.toNat → (t.nodeAt k).leaf = false
  nodesPast : ∀ k, t.nodeCount.toNat ≤ k → t.nodeAt k = s.nodeAt k
  heapPast : ∀ j, s.alphaN.toNat ≤ j → t.heapAt j = s.heapAt j
  outside : t.outsideBuilder = s.outsideBuilder
  codesValid : t.codesValid = false

theorem toNat_weight_leafOf (s : State) (k : Nat) : (s.leafOf k).weight.toNat = (s.alphaFreqAt k).toNat := by
  rw [State.leafOf, BitVec.toNat_setWidth]
  omega

/-- The leaves together weigh the sum of the frequencies (10_state.md R44). -/
theorem Seeded.queueWeight {s t : State} (hs : Seeded s t) (ha : AlphabetOk s) : t.queueWeight = s.totalFreq := by
  have hn := ha.le_max
  rw [State.queueWeight, (hs.queue.map _).sum_eq, List.map_map, State.totalFreq]
  refine congrArg List.sum (List.map_congr_left fun k hk => ?_)
  rw [List.mem_range] at hk
  rw [Function.comp_apply, toNat_nodeIdx (by omega), hs.leaves k hk, toNat_weight_leafOf]

theorem building_seeded {s : State} (ha : AlphabetOk s) : Building s s.seeded := by
  have hs := seeded_spec ha
  have h1 := ha.one_le
  have hn := ha.le_max
  refine
    { sound := hs.treeSound ha, counts := ?counts, pqSize_le := hs.pqSize.le, weight := hs.queueWeight ha
      lastQueued := ⟨BitVec.ofNat 9 (s.alphaN.toNat - 1), hs.queue.mem_iff.2 ?last, ?lastIndex⟩
      leaves := hs.leaves, inner := fun k hk hk' => ?inner, nodesPast := fun k hk => ?nodesPast
      heapPast := fun j hj => seeded_heap_outside s hj, outside := rfl, codesValid := hs.codesValid }
  case counts => rw [hs.nodeCount, hs.pqSize]; omega
  case last => exact List.mem_map_of_mem (List.mem_range.2 (by omega))
  case lastIndex => rw [toNat_nodeIdx (by omega), hs.nodeCount]; omega
  case inner => rw [hs.nodeCount] at hk'; omega
  case nodesPast =>
    rw [hs.nodeCount] at hk
    rw [seeded_nodeAt, if_neg (Nat.not_lt.2 hk)]

/-- A merge step keeps the weight of the queue (41_tree_builder.md R168). -/
theorem Merged.queueWeight {s t : State} {l r : NodeIdx} {rest : List NodeIdx} (hm : Merged s l r rest t)
    (hlive : QueueLive s) (hw : WeightsFit s) : t.queueWeight = s.queueWeight := by
  have hrest : rest.map (fun k => (t.nodeAt k.toNat).weight.toNat) =
      rest.map (fun k => (s.nodeAt k.toNat).weight.toNat) :=
    List.map_congr_left fun q hq => by rw [hm.rest_nodes hlive q hq]
  rw [hm.queueWeight_old, State.queueWeight, (hm.newQueue.map _).sum_eq, List.map_cons, List.sum_cons, hm.index,
    hm.weight_exact hw, hrest]

theorem Building.merged {s u v : State} (hb : Building s u) (h2 : 2 ≤ u.pqSize.toNat)
    (h : mergeStep .index u = .ok () v) : Building s v := by
  obtain ⟨l, r, rest, hm⟩ := merged_of_mergeStep hb.sound.countsFit h2 h
  obtain ⟨⟨-, -, -, hw⟩, -⟩ := hb.sound
  have hcount := hm.nodeCount
  have hsize := hm.pqSize
  have hcounts := hb.counts
  have hle := hb.pqSize_le
  have hold : ∀ k, k ≠ u.nodeCount.toNat → v.nodeAt k = u.nodeAt k := hm.oldNodes
  refine
    { sound := hm.treeSound hb.sound, counts := by omega, pqSize_le := by omega
      weight := (hm.queueWeight hb.sound.queueLive hw).trans hb.weight
      lastQueued := ⟨_, hm.newQueue.mem_iff.2 List.mem_cons_self, by rw [hm.index, hcount]⟩
      leaves := fun k hk => (hold k (by omega)).trans (hb.leaves k hk)
      inner := fun k hk hk' => ?inner
      nodesPast := fun k hk => (hold k (by omega)).trans (hb.nodesPast k (by omega))
      heapPast := fun j hj => (mergeStep_heap_outside h2 h (by omega)).trans (hb.heapPast j hj)
      outside := (mergeStep_outsideBuilder h2 h).trans hb.outside
      codesValid := hm.codesValid.trans hb.codesValid }
  case inner =>
    by_cases hnew : k = u.nodeCount.toNat
    · rw [hnew, hm.newNode]; rfl
    · rw [hold k hnew]; exact hb.inner k hk (by omega)

theorem exec_buildTree_ok {s u t : State} (ha : AlphabetOk s)
    (loop : mergeAll .index s.seeded.pqSize.toNat s.seeded = .ok () u) (root : takeRoot .index u = .ok () t) :
    exec .buildTree s = .next t.succeed := by
  have eseed : seedBody .index s = .ok () s.seeded := seedBody_ok .index ha
  rw [exec, execBuildTree, buildBody, Config.tieBreak, eseed, Cmd.bind_ok, loop, Cmd.bind_ok, root, Cmd.complete_ok]

/-- The end u of BUILD_TREE's loop, and the state t that the command completes from. -/
structure Built (s u t : State) : Prop where
  loop : mergeAll .index s.seeded.pqSize.toNat s.seeded = .ok () u
  building : Building s u
  one : u.pqSize = 1#9
  root : takeRoot .index u = .ok () t

theorem exists_built {s : State} (ha : AlphabetOk s) : ∃ u t, Built s u t := by
  have hs := seeded_spec ha
  obtain ⟨u, e, hone, -⟩ := mergeAll_ok .index s.seeded.pqSize.toNat (s := s.seeded)
    (by rw [hs.pqSize]; exact ha.one_le) (by rw [hs.pqSize]; exact ha.le_max) (Nat.le_succ _)
  obtain ⟨t, e', -⟩ := takeRoot_rooted hone
  exact ⟨u, t, e, mergeAll_keeps Building.merged (building_seeded ha) (hs.countsFit ha) e, hone, e'⟩

namespace Built

variable {s u t : State} (hb : Built s u t)
include hb

theorem state : t = { u with root := u.heapAt 0, treeValid := true, pqSize := 0#9 } := by
  have h := hb.root
  rw [takeRoot_last hb.one] at h
  injection h with _ ht
  exact ht.symm

theorem rooted : Rooted u t := rooted_of_takeRoot hb.one hb.root

theorem nodesSound : NodesSound t := hb.rooted.nodesSound hb.building.sound.nodesSound

theorem nodeCount : t.nodeCount.toNat = 2 * s.alphaN.toNat - 1 := by
  have h := hb.building.counts
  rw [hb.one] at h
  rw [hb.rooted.nodeCount]
  exact Nat.eq_sub_of_add_eq h

/-- The last node that the loop made is the one left in the queue. -/
theorem root_last : t.root.toNat = 2 * s.alphaN.toNat - 2 := by
  obtain ⟨q, hq, hlast⟩ := hb.building.lastQueued
  rw [hb.rooted.root, List.mem_singleton] at hq
  have hn := hb.nodeCount
  rw [hb.rooted.nodeCount, ← hlast, hq] at hn
  omega

theorem root_weight : (t.nodeAt t.root.toNat).weight.toNat = s.totalFreq := by
  rw [← hb.building.weight, State.queueWeight, hb.rooted.root, hb.rooted.nodeAt]
  rfl

theorem frame : t = { s with
    treeValid := true, codesValid := false, root := t.root
    nodeCount := BitVec.ofNat 10 (2 * s.alphaN.toNat - 1), pqSize := 0#9
    mem := { s.mem with node := t.mem.node, heap := t.mem.heap } } := by
  have hout : t.outsideBuilder = s.outsideBuilder := by rw [hb.state]; exact hb.building.outside
  have hframe := eq_withBuilder hout
  have hcount : BitVec.ofNat 10 (2 * s.alphaN.toNat - 1) = t.nodeCount := by rw [← hb.nodeCount]; simp
  have hcodes : t.codesValid = false := hb.rooted.codesValid.trans hb.building.codesValid
  rw [hcount, ← hcodes, ← hb.rooted.treeValid, ← hb.rooted.pqSize]
  exact hframe

end Built

/-- Settles O18: what the loop keeps, at its end with one entry left, the root. -/
theorem buildTreeMakesAFullTreeOfTheAlphabet : Obligations.BuildTreeMakesAFullTreeOfTheAlphabet := by
  intro s ha
  obtain ⟨u, t, hb⟩ := exists_built ha
  have hn := hb.nodeCount
  have hnodes : t.nodeAt = u.nodeAt := hb.rooted.nodeAt
  have hcount : t.nodeCount = u.nodeCount := hb.rooted.nodeCount
  refine ⟨_, exec_buildTree_ok ha hb.loop hb.root, congrArg State.succeed hb.frame, hb.root_last, hb.root_weight,
    fun i hi => ?leaf, fun k hk hk' => ?inner, fun k hk => ?nodesPast, fun j hj => ?heapPast⟩
  case leaf => exact (congrFun hnodes i).trans (hb.building.leaves i hi)
  case inner =>
    have hlive : k < t.nodeCount.toNat := by omega
    have hinner : (t.nodeAt k).leaf = false := by rw [hnodes]; exact hb.building.inner k hk (hcount ▸ hlive)
    have hsound := hb.nodesSound k hlive
    rw [if_neg (by rw [hinner]; exact Bool.false_ne_true)] at hsound
    obtain ⟨-, hchildren⟩ := hsound
    exact ⟨hinner, hchildren⟩
  case nodesPast => exact (congrFun hnodes k).trans (hb.building.nodesPast k (by rw [← hcount]; omega))
  case heapPast =>
    rw [hb.state]
    exact hb.building.heapPast j hj

end Sys2Proof.Machine

/-! # BUILD_TREE and its three phases (41_tree_builder.md R166) -/

namespace Sys2Proof.Machine

/-- The state in which a run of the command word w has completed, but for what the command itself changed. -/
def State.completed (s : State) (w : Word) : State := (s.accept w).succeed

/-- A part of a command that neither reads nor writes what acceptance writes. -/
abbrev AcceptBlind {α : Type} (f : State → Cmd α) : Prop :=
  ∀ (s : State) (w : Word), f (s.accept w) = (f s).mapState (·.accept w)

theorem AcceptBlind.bind {α β : Type} {f : State → Cmd α} {k : α → State → Cmd β} (hf : AcceptBlind f)
    (hk : ∀ a, AcceptBlind (k a)) : AcceptBlind fun s => (f s).bind k := by
  intro s w
  simp only [hf s w]
  cases f s with
  | ok a u => exact hk a u w
  | raised e i0 i1 u => rfl

theorem AcceptBlind.ok {α : Type} {f : State → Cmd α} (hf : AcceptBlind f) {s t : State} {a : α} (h : f s = .ok a t)
    (w : Word) : f (s.accept w) = .ok a (t.accept w) := by
  rw [hf, h]; rfl

theorem acceptBlind_pqExtractMin : AcceptBlind (pqExtractMin .index) := by
  intro s w
  by_cases h : s.pqSize = 0#9
  · rw [pqExtractMin_empty .index h, pqExtractMin_empty .index (s := s.accept w) h]; rfl
  · rw [pqExtractMin, pqExtractMin, if_neg h, if_neg (c := (s.accept w).pqSize = 0#9) h]; rfl

theorem acceptBlind_mergeStep : AcceptBlind (mergeStep .index) :=
  acceptBlind_pqExtractMin.bind fun _ => acceptBlind_pqExtractMin.bind fun _ _ _ => rfl

theorem acceptBlind_takeRoot : AcceptBlind (takeRoot .index) :=
  acceptBlind_pqExtractMin.bind fun _ _ _ => rfl

theorem acceptBlind_mergeAll (rounds : Nat) : AcceptBlind (mergeAll .index rounds) := by
  induction rounds with
  | zero => exact fun _ _ => rfl
  | succ n ih =>
    intro s w
    by_cases h : s.pqSize.toNat ≥ 2
    · rw [mergeAll, mergeAll, if_pos h, if_pos (c := (s.accept w).pqSize.toNat ≥ 2) h]
      exact acceptBlind_mergeStep.bind (fun _ => ih) s w
    · rw [mergeAll, mergeAll, if_neg h, if_neg (c := (s.accept w).pqSize.toNat ≥ 2) h]
      rfl

/-! ## The runs -/

theorem runCommand_merge {s t : State} (h2 : 2 ≤ s.pqSize.toNat) (h : mergeStep .index s = .ok () t) (w : Word) :
    runCommand .merge (s.completed w) = .next (t.completed (encode .merge)) :=
  exec_merge_ok (s := s.accept (encode .merge)) h2 (acceptBlind_mergeStep.ok h _)

theorem runCommand_finish {s t : State} (h1 : s.pqSize = 1#9) (h : takeRoot .index s = .ok () t) (w : Word) :
    runCommand .finish (s.completed w) = .next (t.completed (encode .finish)) := by
  refine (exec_finish_last (s := s.accept (encode .finish)) h1).trans ?_
  rw [acceptBlind_takeRoot.ok h]
  rfl

/-- As many runs of MERGE as there are entries too many do what BUILD_TREE's loop does (R166, R167). -/
theorem runMerges_of_mergeAll {m rounds : Nat} {s t : State} (hc : CountsFit s) (hm : s.pqSize.toNat = m + 1)
    (hr : m ≤ rounds) (h : mergeAll .index rounds s = .ok () t) (w : Word) :
    ∃ w', runMerges m (s.completed w) = .next (t.completed w') := by
  induction rounds generalizing m s w with
  | zero =>
    obtain rfl : m = 0 := Nat.le_zero.1 hr
    cases h
    exact ⟨w, rfl⟩
  | succ n ih =>
    rw [mergeAll] at h
    split at h
    · rename_i h2
      obtain ⟨m, rfl⟩ : ∃ m', m = m' + 1 := ⟨m - 1, by omega⟩
      obtain ⟨l, r, rest, u, e, hmerged⟩ := mergeStep_merged hc h2
      have hsize := hmerged.pqSize
      rw [e, Cmd.bind_ok] at h
      rw [runMerges, runCommand_merge h2 e w]
      exact ih (hmerged.countsFit hc) (by omega) (by omega) h _
    · obtain rfl : m = 0 := by omega
      cases h
      exact ⟨w, rfl⟩

/-- Settles O19: the three phases run the parts of BUILD_TREE one by one, each blind to what acceptance and completion
write between them. -/
theorem buildTreeEqualsSeedMergesFinish : Obligations.BuildTreeEqualsSeedMergesFinish := by
  intro s ha
  have hs := seeded_spec ha
  have h1 := ha.one_le
  obtain ⟨u, t, hb⟩ := exists_built ha
  obtain ⟨w, hmerges⟩ := runMerges_of_mergeAll (m := s.alphaN.toNat - 1) (hs.countsFit ha)
    (by rw [hs.pqSize]; omega) (by rw [hs.pqSize]; omega) hb.loop (encode .seed)
  refine ⟨s.seeded.completed (encode .seed), u.completed w, _, t.completed (encode .buildTree),
    exec_seed_ok (s := s.accept (encode .seed)) ha, hmerges, runCommand_finish hb.one hb.root w, ?build, rfl⟩
  case build =>
    have eloop := (acceptBlind_mergeAll _).ok hb.loop (encode .buildTree)
    have eroot := acceptBlind_takeRoot.ok hb.root (encode .buildTree)
    exact exec_buildTree_ok (s := s.accept (encode .buildTree)) ha eloop eroot

end Sys2Proof.Machine

/-! # The tree and the alphabet (41_tree_builder.md R169) -/

namespace Sys2Proof.Machine

/-- Two states of the builder are alike when they hold the same live nodes and the same queue contents, in whatever
slots (40_priority_queue.md R147). -/
structure Alike (s s' : State) : Prop where
  nodeCount : s'.nodeCount = s.nodeCount
  pqSize : s'.pqSize = s.pqSize
  nodes : ∀ k < s.nodeCount.toNat, s'.nodeAt k = s.nodeAt k
  queue : s'.queue.Perm s.queue

theorem before_asymm {s : State} {a b : NodeIdx} (h : s.before .index a b = true) : s.before .index b a = false := by
  simp only [State.before, keyBefore, Bool.or_eq_true, Bool.and_eq_true, decide_eq_true_eq, Bool.or_eq_false_iff,
    Bool.and_eq_false_iff, decide_eq_false_iff_not, BitVec.lt_def, ← BitVec.toNat_inj] at h ⊢
  omega

/-- The entry that comes before all the others is the same however they are listed. -/
theorem first_eq_of_before {s : State} {l l' : NodeIdx} {xs xs' : List NodeIdx} (hp : (l' :: xs').Perm (l :: xs))
    (h : ∀ q ∈ xs, s.before .index l q = true) (h' : ∀ q ∈ xs', s.before .index l' q = true) : l' = l := by
  by_contra hne
  have hl' : l' ∈ xs := List.mem_of_ne_of_mem hne (hp.mem_iff.1 List.mem_cons_self)
  have hl : l ∈ xs' := List.mem_of_ne_of_mem (Ne.symm hne) (hp.mem_iff.2 List.mem_cons_self)
  have := before_asymm (h l' hl')
  rw [h' l hl] at this
  exact absurd this (by decide)

theorem TreeSound.queueSound {s : State} (hs : TreeSound s) : QueueSound s := by
  obtain ⟨⟨-, -, hq, -⟩, -⟩ := hs
  exact hq

namespace Alike

variable {s s' : State} (ha : Alike s s')
include ha

theorem before {a b : NodeIdx} (hla : a.toNat < s.nodeCount.toNat) (hlb : b.toNat < s.nodeCount.toNat) :
    s'.before .index a b = s.before .index a b := by
  rw [State.before, State.before, ha.nodes _ hla, ha.nodes _ hlb]
  rfl

/-- Alike states merge the same two entries. -/
theorem leastTwo_eq {l r l' r' : NodeIdx} {rest rest' : List NodeIdx} (hq : s.queue.Perm (l :: r :: rest))
    (hq' : s'.queue.Perm (l' :: r' :: rest')) (h : LeastTwo s l r rest) (h' : LeastTwo s' l' r' rest')
    (hlive : QueueLive s) : l' = l ∧ r' = r ∧ rest'.Perm rest := by
  have hp : (l' :: r' :: rest').Perm (l :: r :: rest) := hq'.symm.trans (ha.queue.trans hq)
  have hlive' : ∀ q ∈ l' :: r' :: rest', q.toNat < s.nodeCount.toNat := fun q hm =>
    hlive q (ha.queue.mem_iff.1 (hq'.mem_iff.2 hm))
  have hleft : ∀ q ∈ r' :: rest', s.before .index l' q = true := fun q hm => by
    rw [← ha.before (hlive' l' List.mem_cons_self) (hlive' q (.tail _ hm))]
    exact h'.left q hm
  obtain rfl := first_eq_of_before hp h.left hleft
  have hright : ∀ q ∈ rest', s.before .index r' q = true := fun q hm => by
    rw [← ha.before (hlive' r' (.tail _ List.mem_cons_self)) (hlive' q (.tail _ (.tail _ hm)))]
    exact h'.right q hm
  obtain rfl := first_eq_of_before hp.cons_inv h.right hright
  exact ⟨rfl, rfl, hp.cons_inv.cons_inv⟩

theorem mergeStep (hs : TreeSound s) (hs' : TreeSound s') {t t' : State} (h2 : 2 ≤ s.pqSize.toNat)
    (e : mergeStep .index s = .ok () t) (e' : mergeStep .index s' = .ok () t') : Alike t t' := by
  have hlive := hs.queueLive
  obtain ⟨l, r, rest, hm⟩ := merged_of_mergeStep hs.countsFit h2 e
  obtain ⟨l', r', rest', hm'⟩ := merged_of_mergeStep hs'.countsFit (by rw [ha.pqSize]; exact h2) e'
  obtain ⟨rfl, rfl, hrest⟩ := ha.leastTwo_eq hm.oldQueue hm'.oldQueue (hm.leastTwo e hs.queueSound)
    (hm'.leastTwo e' hs'.queueSound) hlive
  have hmerged : s'.mergedNode l' r' = s.mergedNode l' r' := by
    rw [State.mergedNode, State.mergedNode, ha.nodes _ (hm.left_live hlive), ha.nodes _ (hm.right_live hlive)]
  refine
    { nodeCount := BitVec.eq_of_toNat_eq (by rw [hm'.nodeCount, hm.nodeCount, ha.nodeCount])
      pqSize := ?size, nodes := fun k hk => ?nodes, queue := ?queue }
  case size =>
    have := hm.pqSize; have := hm'.pqSize; have := ha.pqSize; bv_omega
  case nodes =>
    rw [hm.nodeCount] at hk
    obtain hk | rfl := Nat.lt_succ_iff_lt_or_eq.1 hk
    · rw [hm.oldNodes k hk.ne, hm'.oldNodes k (by rw [ha.nodeCount]; exact hk.ne), ha.nodes k hk]
    · rw [hm.newNode, ← hmerged, ← hm'.newNode, ha.nodeCount]
  case queue =>
    have hnew := hm'.newQueue
    rw [ha.nodeCount] at hnew
    exact hnew.trans ((hrest.cons _).trans hm.newQueue.symm)

theorem mergeAll {rounds : Nat} (hs : TreeSound s) (hs' : TreeSound s') {t t' : State}
    (e : mergeAll .index rounds s = .ok () t) (e' : mergeAll .index rounds s' = .ok () t') : Alike t t' := by
  induction rounds generalizing s s' with
  | zero => cases e; cases e'; exact ha
  | succ n ih =>
    rw [Machine.mergeAll] at e e'
    rw [ha.pqSize] at e'
    split at e
    · rename_i h2
      obtain ⟨l, r, rest, u, em, hm⟩ := mergeStep_merged hs.countsFit h2
      obtain ⟨l', r', rest', u', em', hm'⟩ := mergeStep_merged hs'.countsFit (by rw [ha.pqSize]; exact h2)
      rw [em] at e
      rw [if_pos h2, em'] at e'
      exact ih (ha.mergeStep hs hs' h2 em em') (hm.treeSound hs) (hm'.treeSound hs') e e'
    · rename_i h2
      rw [if_neg h2] at e'
      cases e; cases e'; exact ha

end Alike

/-- The same alphabet: as many entries, each with the same symbol and frequency. -/
abbrev SameAlphabet (s s' : State) : Prop :=
  s'.alphaN = s.alphaN ∧
    ∀ i < s.alphaN.toNat, s'.alphaSymAt i = s.alphaSymAt i ∧ s'.alphaFreqAt i = s.alphaFreqAt i

namespace SameAlphabet

variable {s s' : State} (h : SameAlphabet s s') (ha : AlphabetOk s)
include h ha

theorem alphabetOk : AlphabetOk s' := by
  obtain ⟨hN, hentries⟩ := h
  obtain ⟨h1, hn, hfreq, hsym⟩ := ha
  refine ⟨by rwa [hN], by rwa [hN], fun i hi => ?_, fun i hi j hj => ?_⟩ <;> rw [hN] at hi
  · rw [(hentries i hi).2]; exact hfreq i hi
  · rw [(hentries i hi).1, (hentries j (hj.trans hi)).1]; exact hsym i hi j hj

theorem seeded : Alike s.seeded s'.seeded := by
  have hs := seeded_spec ha
  have hs' := seeded_spec (h.alphabetOk ha)
  obtain ⟨hN, hentries⟩ := h
  have hNat : s'.alphaN.toNat = s.alphaN.toNat := congrArg BitVec.toNat hN
  have hqueue := hs'.queue
  rw [hNat] at hqueue
  refine
    { nodeCount := BitVec.eq_of_toNat_eq (by rw [hs'.nodeCount, hs.nodeCount, hNat])
      pqSize := BitVec.eq_of_toNat_eq (by rw [hs'.pqSize, hs.pqSize, hNat])
      nodes := fun k hk => ?nodes, queue := hqueue.trans hs.queue.symm }
  case nodes =>
    rw [hs.nodeCount] at hk
    obtain ⟨hsym, hfreq⟩ := hentries k hk
    rw [hs.leaves k hk, hs'.leaves k (hNat ▸ hk), State.leafOf, State.leafOf, hsym, hfreq]

end SameAlphabet

/-- Settles O20: both builds merge the same two entries at every step. -/
theorem treeIsAFunctionOfTheAlphabet : Obligations.TreeIsAFunctionOfTheAlphabet := by
  intro s s' t t' ha hN hentries e e'
  have hsame : SameAlphabet s s' := ⟨hN, hentries⟩
  have ha' := hsame.alphabetOk ha
  obtain ⟨u, v, hb⟩ := exists_built ha
  obtain ⟨u', v', hb'⟩ := exists_built ha'
  rw [exec_buildTree_ok ha hb.loop hb.root] at e
  rw [exec_buildTree_ok ha' hb'.loop hb'.root] at e'
  cases e; cases e'
  have hloop' := hb'.loop
  have hseeded := hsame.seeded ha
  rw [hseeded.pqSize] at hloop'
  have hloop := hseeded.mergeAll ((seeded_spec ha).treeSound ha) ((seeded_spec ha').treeSound ha') hb.loop hloop'
  refine ⟨BitVec.eq_of_toNat_eq ?root, ?count, fun k hk => ?nodes⟩
  case root => exact hb'.root_last.trans ((congrArg (2 * ·.toNat - 2) hN).trans hb.root_last.symm)
  case count => exact hb'.rooted.nodeCount.trans (hloop.nodeCount.trans hb.rooted.nodeCount.symm)
  case nodes =>
    have hlive : k < u.nodeCount.toNat := hb.rooted.nodeCount ▸ hk
    calc v'.nodeAt k
      _ = u'.nodeAt k := congrFun hb'.rooted.nodeAt k
      _ = u.nodeAt k := hloop.nodes k hlive
      _ = v.nodeAt k := (congrFun hb.rooted.nodeAt k).symm

end Sys2Proof.Machine

/-! # The code table (42_code_table.md R190-R195) -/

namespace Sys2Proof.Machine

/-! ## GEN_CODES -/

/-- The table of a tree depends on the builder's part of a state only (42_code_table.md R194). -/
theorem genTable_congr {s t : State} (h : t.builder = s.builder) : genTable t = genTable s := by
  show genTable t.builder = genTable s.builder
  rw [h]

theorem exec_genCodes_ok {s : State} {code : Ram CodeEntry} (hv : s.treeValid = true) (h : genTable s = some code) :
    exec .genCodes s = .next (s.withTable code).succeed := by
  rw [exec, execGenCodes, if_neg (ne_false_of_eq_true hv), h]

/-- What GEN_CODES has done to a tree, where it completes. -/
theorem genCodes_table {s t : State} (hv : s.treeValid = true) (h : exec .genCodes s = .next t) :
    ∃ code, genTable s = some code ∧ t = (s.withTable code).succeed := by
  obtain ⟨hv', -⟩ | ⟨-, hcode⟩ := execGenCodes_cases h
  · exact absurd hv' (ne_false_of_eq_true hv)
  · exact hcode

/-- Settles O26: the table is not part of what GEN_CODES derives it from. -/
theorem genCodesAgainGivesTheIdenticalTable : Obligations.GenCodesAgainGivesTheIdenticalTable := by
  intro s t h hv
  obtain ⟨code, hcode, rfl⟩ := genCodes_table hv h
  exact exec_genCodes_ok (s := (s.withTable code).succeed) hv hcode

theorem codeIn_set (e : Nat) (code : Ram CodeEntry) (c d : Sym) (x : CodeEntry) :
    codeIn e (Ram.set code c.toNat x) d.toNat = if d = c then x else codeIn e code d.toNat := by
  simp only [codeIn, Ram.getD_set, BitVec.toNat_inj]

theorem genTable_oneLeaf {s : State} (hleaf : (s.nodeAt s.root.toNat).leaf = true) :
    genTable s = some (Ram.set clearedTable (s.nodeAt s.root.toNat).sym.toNat fallbackCode) := by
  rw [genTable]
  exact if_pos hleaf

/-- Settles O22: the fallback writes one entry of the cleared table. -/
theorem genCodesFallbackForOneLeaf : Obligations.GenCodesFallbackForOneLeaf := by
  intro s hv hleaf
  refine ⟨_, exec_genCodes_ok hv (genTable_oneLeaf hleaf), rfl, ?_, fun c hc => ?_⟩
  · exact (codeIn_set s.epoch _ _ _ _).trans (if_pos rfl)
  · exact (codeIn_set s.epoch _ _ _ _).trans ((if_neg hc).trans (codeIn_clearedTable s.epoch c))

/-! ## The table while CODES_VALID = 1 -/

theorem tableDerived_congr {s t : State} (hb : t.builder = s.builder) (hcode : t.mem.code = s.mem.code)
    (hd : TableDerived s) : TableDerived t := by
  have hvalid : t.codesValid = s.codesValid := congrArg (·.codesValid) hb
  rw [TableDerived, hvalid, genTable_congr hb, hcode]
  exact hd

theorem tableDerived_of_no_table {s : State} (h : s.codesValid = false) : TableDerived s :=
  fun hvalid => absurd h (ne_false_of_eq_true hvalid)

theorem FlagsAgree.codesValid_of_queue {s : State} (hf : FlagsAgree s) (hq : 1 ≤ s.pqSize.toNat) :
    s.codesValid = false := by
  have hv := hf.treeValid_of_queue hq
  obtain ⟨hcodes, -⟩ := hf
  exact Bool.eq_false_iff.2 fun hc => absurd hv (ne_false_of_eq_true (hcodes hc))

theorem Extracted.codesValid {s t : State} {k : NodeIdx} (hx : Extracted s k t) : t.codesValid = s.codesValid := by
  obtain ⟨h, rfl⟩ := hx.eq_withQueue
  rfl

/-- A merge step of any queue of two entries or more completes, and leaves CODES_VALID as it is. -/
theorem mergeStep_codesValid {s : State} (h2 : 2 ≤ s.pqSize.toNat) :
    (mergeStep .index s).complete.codesValid = s.codesValid := by
  obtain ⟨l, s1, x1⟩ := exists_extracted (s := s) (by omega)
  have hp1 := x1.pqSize
  obtain ⟨r, s2, x2⟩ := exists_extracted (s := s1) (by omega)
  rw [mergeStep, x1.ok, Cmd.bind_ok, x2.ok, Cmd.bind_ok, Cmd.complete_ok]
  exact x2.codesValid.trans x1.codesValid

/-- BUILD_TREE: an error of SEED's checks, or a tree built of the alphabet (41_tree_builder.md R166). -/
theorem execBuildTree_cases {s t : State} (h : exec .buildTree s = .next t) :
    (∃ e i0 i1, t = s.raise e i0 i1) ∨ ∃ u v, Built s u v ∧ t = v.succeed := by
  cases he : seedError s with
  | none =>
    obtain ⟨u, v, hb⟩ := exists_built ((seedError_none_iff s).1 he)
    rw [exec_buildTree_ok ((seedError_none_iff s).1 he) hb.loop hb.root] at h
    cases h
    exact .inr ⟨u, v, hb, rfl⟩
  | some x =>
    obtain ⟨e, i0, i1⟩ := x
    rw [exec_of_seedError he (by simp)] at h
    cases h
    exact .inl ⟨e, i0, i1, rfl⟩

theorem exec_tableDerived {i : Instr} {s t : State} (hf : FlagsAgree s) (hd : TableDerived s)
    (h : exec i s = .next t) : TableDerived t := by
  cases i with
  | nop => cases h; exact tableDerived_congr rfl rfl hd
  | clear => cases h; exact tableDerived_of_no_table rfl
  | seed =>
    obtain ⟨e, i0, i1, -, rfl⟩ | ⟨-, rfl⟩ := execSeed_cases h
    · exact tableDerived_congr rfl rfl hd
    · exact tableDerived_of_no_table rfl
  | merge =>
    obtain ⟨-, rfl⟩ | ⟨h2, rfl⟩ := execMerge_cases h
    · exact tableDerived_congr rfl rfl hd
    · exact tableDerived_of_no_table ((mergeStep_codesValid h2).trans (hf.codesValid_of_queue (Nat.le_of_succ_le h2)))
  | finish =>
    obtain ⟨-, rfl⟩ | ⟨-, rfl⟩ | ⟨h1, rfl⟩ := execFinish_cases h
    · exact tableDerived_congr rfl rfl hd
    · exact tableDerived_congr rfl rfl hd
    · rw [takeRoot_last h1]
      exact tableDerived_of_no_table (hf.codesValid_of_queue (by rw [h1]; decide))
  | buildTree =>
    obtain ⟨e, i0, i1, rfl⟩ | ⟨u, v, hb, rfl⟩ := execBuildTree_cases h
    · exact tableDerived_congr rfl rfl hd
    · exact tableDerived_of_no_table (hb.rooted.codesValid.trans hb.building.codesValid)
  | genCodes =>
    obtain ⟨-, rfl⟩ | ⟨-, code, hcode, rfl⟩ := execGenCodes_cases h
    · exact tableDerived_congr rfl rfl hd
    · exact fun _ => hcode
  | encode =>
    obtain ⟨bit, n, rfl⟩ | ⟨e, i0, i1, bit, rfl⟩ := execEncode_cases h <;> exact tableDerived_congr rfl rfl hd
  | decode =>
    obtain ⟨out, n, rfl⟩ | ⟨e, i0, i1, out, rfl⟩ := execDecode_cases h <;> exact tableDerived_congr rfl rfl hd

theorem writePlace_code (s : State) (pl : Place) (v : Word) : (s.writePlace pl v).mem.code = s.mem.code := by
  cases pl with
  | reg r => cases r <;> rfl
  | _ => simp [State.writePlace]

theorem portTurn_tableDerived {s t : State} {a : Access} (hd : TableDerived s) (h : portTurn a s = .next t) :
    TableDerived t :=
  portTurn_keeps (P := TableDerived) (fun _ hu => hu) hd hd hd
    (fun pl v _ => tableDerived_congr (builder_writePlace s pl v) (writePlace_code s pl v) hd) h

/-- Settles O58: a command that changes the tree ends with CODES_VALID = 0, and GEN_CODES leaves the table that it
derives; no other step writes the builder's state or CODE. -/
theorem stepKeepsTheTableOfTheTree : Obligations.StepKeepsTheTableOfTheTree := by
  intro s t hf hd h
  obtain ⟨rest, rfl | ⟨w, i, -, -, -, hx⟩ | ⟨w, -, -, rfl⟩ | ⟨level, rfl⟩ | ⟨a, ha⟩⟩ := step_cases h
  · exact tableDerived_congr rfl rfl hd
  · exact exec_tableDerived (s := { s with host := rest }) hf hd hx
  · exact tableDerived_congr rfl rfl hd
  · obtain e | e := driveReset_cases { s with host := rest } level
    · rw [e]; exact hd
    · rw [e]; exact tableDerived_of_no_table rfl
  · exact portTurn_tableDerived (s := { s with host := rest }) hd ha

end Sys2Proof.Machine

/-! # The traversal (42_code_table.md R192) -/

namespace Sys2Proof.Machine

/-! ## The visits, in the order in which they leave the stack -/

/-- The triple of the child on edge b: left for 0, right for 1 (R192). -/
def Visit.go (nodes : Nat → Node) (v : Visit) (b : Bool) : Visit :=
  if b then v.goRight (nodes v.node.toNat) else v.goLeft (nodes v.node.toNat)

/-- The visits that the walk makes from v on, in pre-order, down to the given depth. -/
def visitsFrom (nodes : Nat → Node) : Nat → Visit → List Visit
  | 0, _ => []
  | depth + 1, v =>
    v :: if (nodes v.node.toNat).leaf then []
      else visitsFrom nodes depth (v.go nodes false) ++ visitsFrom nodes depth (v.go nodes true)

/-- What a visit writes: the entry of a leaf. -/
def recordVisit (nodes : Nat → Node) (code : Ram CodeEntry) (v : Visit) : Ram CodeEntry :=
  if (nodes v.node.toNat).leaf then Ram.set code (nodes v.node.toNat).sym.toNat v.entry else code

theorem Visit.go_depth (nodes : Nat → Node) (v : Visit) (b : Bool) : (v.go nodes b).depth = v.depth + 1 := by
  cases b <;> rfl

theorem Visit.go_node (s : State) (v : Visit) (b : Bool) : (v.go s.nodeAt b).node = s.child v.node b := by
  cases b <;> rfl

section
variable {nodes : Nat → Node}

theorem traverse_leaf {v : Visit} (hv : (nodes v.node.toNat).leaf = true) (pops : Nat) (stack : List Visit)
    (code : Ram CodeEntry) : traverse nodes (pops + 1) (v :: stack) code =
      traverse nodes pops stack (Ram.set code (nodes v.node.toNat).sym.toNat v.entry) := by
  rw [traverse]
  exact if_pos hv

theorem traverse_inner {v : Visit} (hv : (nodes v.node.toNat).leaf = false) (pops : Nat) (stack : List Visit)
    (code : Ram CodeEntry) : traverse nodes (pops + 1) (v :: stack) code =
      traverse nodes pops (v.go nodes false :: v.go nodes true :: stack) code := by
  rw [traverse]
  exact if_neg (ne_true_of_eq_false hv)

theorem traverse_empty (nodes : Nat → Node) (pops : Nat) (code : Ram CodeEntry) :
    traverse nodes pops [] code = some code := by
  cases pops <;> rfl

theorem visitsFrom_leaf {v : Visit} (hv : (nodes v.node.toNat).leaf = true) (d : Nat) :
    visitsFrom nodes (d + 1) v = [v] := by
  rw [visitsFrom, if_pos hv]

theorem visitsFrom_inner {v : Visit} (hv : (nodes v.node.toNat).leaf = false) (d : Nat) :
    visitsFrom nodes (d + 1) v =
      v :: (visitsFrom nodes d (v.go nodes false) ++ visitsFrom nodes d (v.go nodes true)) := by
  rw [visitsFrom, if_neg (ne_true_of_eq_false hv)]

theorem mem_visitsFrom_inner {u v : Visit} (hu : (nodes u.node.toNat).leaf = false) (d : Nat) :
    v ∈ visitsFrom nodes (d + 1) u ↔ v = u ∨ ∃ b, v ∈ visitsFrom nodes d (u.go nodes b) := by
  simp [visitsFrom_inner hu]

/-- As many visits as nodes hang under the first. -/
theorem length_visitsFrom (d : Nat) (v : Visit) :
    (visitsFrom nodes d v).length = subtreeSize nodes d v.node.toNat := by
  induction d generalizing v with
  | zero => rfl
  | succ d ih =>
    rw [subtreeSize]
    cases hv : (nodes v.node.toNat).leaf with
    | true => rw [visitsFrom_leaf hv]; rfl
    | false =>
      rw [visitsFrom_inner hv, List.length_cons, List.length_append, ih, ih, Nat.add_comm, ← Nat.add_assoc]
      rfl

/-- A property of the first visit that goes on from internal nodes to their children holds of every visit. -/
theorem forall_visitsFrom {P : Visit → Prop} {d : Nat} {u : Visit} (hu : P u)
    (go : ∀ v ∈ visitsFrom nodes d u, P v → (nodes v.node.toNat).leaf = false → ∀ b, P (v.go nodes b)) :
    ∀ v ∈ visitsFrom nodes d u, P v := by
  induction d generalizing u with
  | zero => exact fun v hv => absurd hv List.not_mem_nil
  | succ d ih =>
    intro v hv
    cases hleaf : (nodes u.node.toNat).leaf with
    | true =>
      rw [visitsFrom_leaf hleaf, List.mem_singleton] at hv
      exact hv ▸ hu
    | false =>
      obtain rfl | ⟨b, hb⟩ := (mem_visitsFrom_inner hleaf d).1 hv
      · exact hu
      · exact ih (go u List.mem_cons_self hu hleaf b)
          (fun w hw => go w ((mem_visitsFrom_inner hleaf d).2 (.inr ⟨b, hw⟩))) v hb

end

/-- The node of a visit is below a count of nodes and below a bound of the depth, which children with smaller indices
then never reach. -/
abbrev Visit.Within (n d : Nat) (v : Visit) : Prop := v.node.toNat < n ∧ v.node.toNat < d

theorem Visit.Within.self_mem {n d : Nat} {v : Visit} (hw : v.Within n d) (nodes : Nat → Node) :
    v ∈ visitsFrom nodes d v := by
  obtain ⟨-, hd⟩ := hw
  cases d with
  | zero => omega
  | succ d => exact List.mem_cons_self

section
variable {nodes : Nat → Node} {n : Nat}
  (hchild : ∀ k < n, (nodes k).leaf = false → (nodes k).left.toNat < k ∧ (nodes k).right.toNat < k)
include hchild

theorem Visit.Within.go {d : Nat} {v : Visit} (hw : v.Within n (d + 1)) (hv : (nodes v.node.toNat).leaf = false)
    (b : Bool) : (v.go nodes b).Within n d := by
  obtain ⟨hn, hd⟩ := hw
  obtain ⟨hl, hr⟩ := hchild _ hn hv
  have hlt : (v.go nodes b).node.toNat < v.node.toNat := by
    cases b
    · exact hl
    · exact hr
  omega

/-- The traversal pops the visits one by one and writes what they write. -/
theorem traverse_visitsFrom {d : Nat} {v : Visit} (hw : v.Within n d) (pops : Nat) (stack : List Visit)
    (code : Ram CodeEntry) :
    traverse nodes (pops + (visitsFrom nodes d v).length) (v :: stack) code =
      traverse nodes pops stack ((visitsFrom nodes d v).foldl (recordVisit nodes) code) := by
  induction d generalizing v pops stack code with
  | zero => omega
  | succ d ih =>
    cases hv : (nodes v.node.toNat).leaf with
    | true =>
      rw [visitsFrom_leaf hv]
      rw [List.foldl_cons, List.foldl_nil, recordVisit, if_pos hv]
      exact traverse_leaf hv pops stack code
    | false =>
      have hrecord : recordVisit nodes code v = code := if_neg (ne_true_of_eq_false hv)
      rw [visitsFrom_inner hv, List.foldl_cons, List.foldl_append, hrecord, ← ih (hw.go hchild hv true),
        ← ih (hw.go hchild hv false), Nat.add_right_comm, Nat.add_assoc, ← List.length_append, List.length_cons]
      exact traverse_inner hv _ stack code

/-- The walk visits the children of every internal node that it visits. -/
theorem go_mem_visitsFrom {d : Nat} {u v : Visit} (hw : u.Within n d) (hv : v ∈ visitsFrom nodes d u)
    (hleaf : (nodes v.node.toNat).leaf = false) (b : Bool) : v.go nodes b ∈ visitsFrom nodes d u := by
  induction d generalizing u with
  | zero => omega
  | succ d ih =>
    cases hu : (nodes u.node.toNat).leaf with
    | true =>
      rw [visitsFrom_leaf hu, List.mem_singleton] at hv
      rw [hv, hu] at hleaf
      cases hleaf
    | false =>
      rw [mem_visitsFrom_inner hu] at hv ⊢
      obtain rfl | ⟨c, hc⟩ := hv
      · exact .inr ⟨b, (hw.go hchild hu b).self_mem nodes⟩
      · exact .inr ⟨c, ih (hw.go hchild hu c) hc⟩

/-- A visit of depth d has d internal nodes above it, each with one more child (00_scope.md R11). -/
theorem depth_le_of_mem_visitsFrom {d : Nat} {u v : Visit} (hw : u.Within n d) (hv : v ∈ visitsFrom nodes d u) :
    2 * v.depth + 1 ≤ 2 * u.depth + (visitsFrom nodes d u).length := by
  induction d generalizing u with
  | zero => omega
  | succ d ih =>
    cases hu : (nodes u.node.toNat).leaf with
    | true =>
      rw [visitsFrom_leaf hu, List.mem_singleton] at hv
      rw [visitsFrom_leaf hu, hv, List.length_singleton]
    | false =>
      have hpos (b : Bool) := List.length_pos_of_mem ((hw.go hchild hu b).self_mem nodes)
      have hleft := hpos false
      have hright := hpos true
      rw [visitsFrom_inner hu, List.length_cons, List.length_append]
      obtain rfl | ⟨b, hb⟩ := (mem_visitsFrom_inner hu d).1 hv
      · omega
      · have := ih (hw.go hchild hu b) hb
        rw [Visit.go_depth] at this
        cases b <;> omega

/-- The leaves under a visit share out its part 2^(-depth) of the code space, written times 2^255 (R193 (d)). -/
theorem sum_leaves_visitsFrom {d : Nat} {u : Visit} (hw : u.Within n d)
    (hdepth : ∀ v ∈ visitsFrom nodes d u, v.depth ≤ 255) :
    ((visitsFrom nodes d u).map fun v => if (nodes v.node.toNat).leaf then 2 ^ (255 - v.depth) else 0).sum =
      2 ^ (255 - u.depth) := by
  induction d generalizing u with
  | zero => omega
  | succ d ih =>
    cases hu : (nodes u.node.toNat).leaf with
    | true => simp [visitsFrom_leaf hu, hu]
    | false =>
      have hmem (b : Bool) : ∀ v ∈ visitsFrom nodes d (u.go nodes b), v.depth ≤ 255 := fun v hv =>
        hdepth v ((mem_visitsFrom_inner hu d).2 (.inr ⟨b, hv⟩))
      have hlt := hmem true _ ((hw.go hchild hu true).self_mem nodes)
      rw [Visit.go_depth] at hlt
      rw [visitsFrom_inner hu, List.map_cons, List.map_append, List.sum_cons, List.sum_append,
        ih (hw.go hchild hu false) (hmem false), ih (hw.go hchild hu true) (hmem true), Visit.go_depth, Visit.go_depth,
        hu, if_neg Bool.false_ne_true, Nat.zero_add, ← Nat.two_mul, ← Nat.pow_succ']
      congr 1
      omega

end

end Sys2Proof.Machine

/-! # The table of a finished tree (42_code_table.md R190-R193) -/

namespace Sys2Proof.Machine

/-! ## Paths -/

theorem State.descend_append (s : State) (k : NodeIdx) (xs ys : List Bool) :
    s.descend k (xs ++ ys) = (s.descend k xs).bind (s.descend · ys) := by
  induction xs generalizing k with
  | nil => rfl
  | cons b xs ih =>
    simp only [List.cons_append, State.descend]
    split
    · rfl
    · exact ih _

/-- A codeword that another one begins with spells the same symbol: no path goes on from a leaf (R193 (c)). -/
theorem State.spells_prefix {s : State} {xs ys : List Bool} {c d : Sym} (hx : s.spells xs c) (hy : s.spells ys d)
    (hp : xs <+: ys) : c = d := by
  obtain ⟨k, hk, hleaf, rfl⟩ := hx
  obtain ⟨m, hm, -, rfl⟩ := hy
  obtain ⟨zs, rfl⟩ := hp
  rw [Option.mem_def] at hk hm
  rw [State.descend_append, hk, Option.bind_some] at hm
  cases zs with
  | nil => cases hm; rfl
  | cons b zs => rw [State.descend, if_pos hleaf] at hm; cases hm

/-- The edges from ROOT to a visited node (R192). -/
def Visit.bits (v : Visit) : List Bool :=
  (List.range v.depth).map fun j => v.path.getLsbD j

theorem len_entry {v : Visit} (hd : v.depth ≤ 255) : v.entry.len.toNat = v.depth := by
  rw [Visit.entry, BitVec.toNat_ofNat, Nat.mod_eq_of_lt (by omega)]

theorem codeBits_entry {v : Visit} (hd : v.depth ≤ 255) : codeBits v.entry = v.bits := by
  rw [codeBits, len_entry hd]
  rfl

/-- A visit of a live node, by the path from ROOT to it and nothing above it. -/
structure Visit.Reached (s : State) (v : Visit) : Prop where
  live : v.node.toNat < s.nodeCount.toNat
  spelled : s.descend s.root v.bits = some v.node
  clean : ∀ j, v.depth ≤ j → v.path.getLsbD j = false

theorem Visit.Reached.depth_pos {s : State} {v : Visit} (hr : v.Reached s) (hne : v.node ≠ s.root) :
    1 ≤ v.depth := by
  by_contra h0
  have hbits : v.bits = [] := by simp [Visit.bits, Nat.lt_one_iff.1 (Nat.not_le.1 h0)]
  have hspelled := hr.spelled
  rw [hbits] at hspelled
  exact hne (Option.some.inj hspelled).symm

/-- An edge sets one bit of the path, the one at the depth of the node that it leaves (R192). -/
theorem Visit.getLsbD_go_path {nodes : Nat → Node} {v : Visit} (hd : v.depth < 255)
    (hclean : v.path.getLsbD v.depth = false) (b : Bool) (j : Nat) :
    (v.go nodes b).path.getLsbD j = if j = v.depth then b else v.path.getLsbD j := by
  cases b with
  | false =>
    show v.path.getLsbD j = _
    split
    · rw [‹j = v.depth›, hclean]
    · rfl
  | true =>
    have hbit : (1#255 <<< v.depth).getLsbD j = decide (j = v.depth) := by
      rw [← BitVec.twoPow_eq, BitVec.getLsbD_twoPow]
      simp [hd, eq_comm]
    show (v.path ||| (1#255 <<< v.depth)).getLsbD j = _
    rw [BitVec.getLsbD_or, hbit]
    split <;> simp [*]

theorem Visit.Reached.go {s : State} {v : Visit} (hr : v.Reached s) (hn : NodesSound s) (hd : v.depth < 255)
    (hleaf : (s.nodeAt v.node.toNat).leaf = false) (b : Bool) : (v.go s.nodeAt b).Reached s := by
  have hpath := Visit.getLsbD_go_path (nodes := s.nodeAt) hd (hr.clean _ le_rfl) b
  have hbits : (v.go s.nodeAt b).bits = v.bits ++ [b] := by
    rw [Visit.bits, Visit.go_depth, List.range_succ, List.map_append, List.map_singleton, hpath, if_pos rfl]
    congr 1
    refine List.map_congr_left fun j hj => ?_
    rw [hpath, if_neg (List.mem_range.1 hj).ne]
  obtain ⟨hlive, -⟩ := Visit.Within.go hn.children ⟨hr.live, Nat.lt_succ_self _⟩ hleaf b
  refine ⟨hlive, ?_, fun j hj => ?_⟩
  · rw [hbits, State.descend_append, hr.spelled, Option.bind_some, State.descend, if_neg (ne_true_of_eq_false hleaf),
      State.descend, Visit.go_node]
  · rw [Visit.go_depth] at hj
    rw [hpath, if_neg (by omega)]
    exact hr.clean j (by omega)

/-! ## The walk from ROOT -/

/-- The first visit of the walk (R192). -/
def State.rootVisit (s : State) : Visit := { node := s.root, depth := 0, path := 0#255 }

/-- The visits of the walk from ROOT. -/
def State.visits (s : State) : List Visit := visitsFrom s.nodeAt s.nodeCount.toNat s.rootVisit

section
variable {s : State} (hs : TreeSound s) (hv : s.treeValid = true)
include hs hv

/-- A finished tree is all the live nodes (10_state.md R58 (e)). -/
theorem TreeSound.root_covers : s.root.toNat < s.nodeCount.toNat ∧ s.sizeUnder s.root = s.nodeCount.toNat := by
  obtain ⟨-, -, hcov, -⟩ := hs
  rwa [NodesCovered, if_pos hv] at hcov

theorem rootVisit_within : s.rootVisit.Within s.nodeCount.toNat s.nodeCount.toNat := by
  obtain ⟨hroot, -⟩ := hs.root_covers hv
  exact ⟨hroot, hroot⟩

/-- The walk makes as many visits as there are live nodes. -/
theorem length_visits : s.visits.length = s.nodeCount.toNat := by
  obtain ⟨-, hsize⟩ := hs.root_covers hv
  exact (length_visitsFrom _ _).trans hsize

theorem visit_depth_le {v : Visit} (hmem : v ∈ s.visits) : v.depth ≤ 255 := by
  have hle : 2 * v.depth + 1 ≤ 2 * 0 + s.visits.length :=
    depth_le_of_mem_visitsFrom hs.nodesSound.children (rootVisit_within hs hv) hmem
  rw [length_visits hs hv] at hle
  obtain ⟨-, hn, -⟩ := hs.countsFit
  omega

theorem go_mem_visits {v : Visit} (hmem : v ∈ s.visits) (hleaf : (s.nodeAt v.node.toNat).leaf = false) (b : Bool) :
    v.go s.nodeAt b ∈ s.visits :=
  go_mem_visitsFrom hs.nodesSound.children (rootVisit_within hs hv) hmem hleaf b

theorem visit_reached {v : Visit} (hmem : v ∈ s.visits) : v.Reached s := by
  obtain ⟨hroot, -⟩ := rootVisit_within hs hv
  refine forall_visitsFrom (P := Visit.Reached s) ⟨hroot, rfl, fun j _ => BitVec.getLsbD_zero⟩
    (fun u hu hr hleaf b => ?_) v hmem
  have hd := visit_depth_le hs hv (go_mem_visits hs hv hu hleaf b)
  rw [Visit.go_depth] at hd
  exact hr.go hs.nodesSound hd hleaf b

theorem genTable_visits (hroot : (s.nodeAt s.root.toNat).leaf = false) :
    genTable s = some (s.visits.foldl (recordVisit s.nodeAt) clearedTable) := by
  obtain ⟨-, hn, -⟩ := hs.countsFit
  obtain ⟨pops, hpops⟩ : ∃ pops, Config.nodeMax = pops + s.visits.length :=
    ⟨511 - s.nodeCount.toNat, by rw [length_visits hs hv, Config.nodeMax]; omega⟩
  calc genTable s
    _ = traverse s.nodeAt Config.nodeMax [s.rootVisit] clearedTable := if_neg (ne_true_of_eq_false hroot)
    _ = traverse s.nodeAt pops [] (s.visits.foldl (recordVisit s.nodeAt) clearedTable) := by
      rw [hpops]
      exact traverse_visitsFrom hs.nodesSound.children (rootVisit_within hs hv) pops [] clearedTable
    _ = some _ := traverse_empty _ _ _

theorem exists_genTable : ∃ code, genTable s = some code := by
  cases hroot : (s.nodeAt s.root.toNat).leaf with
  | true => exact ⟨_, genTable_oneLeaf hroot⟩
  | false => exact ⟨_, genTable_visits hs hv hroot⟩

end

/-- Settles O21: the walk makes no more than NODE_MAX visits. -/
theorem genCodesCompletesOnATree : Obligations.GenCodesCompletesOnATree := by
  refine fun s => ⟨fun hv => ?_, fun hs hv => ?_⟩
  · rw [exec, execGenCodes, if_pos hv]
    rfl
  · obtain ⟨code, hcode⟩ := exists_genTable hs hv
    exact ⟨_, exec_genCodes_ok hv hcode, rfl⟩

/-! ## What the table holds -/

/-- A visit of a leaf that holds symbol c. -/
abbrev Visit.Labels (nodes : Nat → Node) (v : Visit) (c : Sym) : Prop :=
  (nodes v.node.toNat).leaf = true ∧ (nodes v.node.toNat).sym = c

/-- After the walk a symbol has the entry of some visit that its label was found at, or none was found. -/
theorem codeIn_foldl_recordVisit (nodes : Nat → Node) (e : Nat) (visits : List Visit) (code : Ram CodeEntry)
    (c : Sym) :
    (∃ v ∈ visits, v.Labels nodes c ∧ codeIn e (visits.foldl (recordVisit nodes) code) c.toNat = v.entry) ∨
      ((∀ v ∈ visits, ¬ v.Labels nodes c) ∧
        codeIn e (visits.foldl (recordVisit nodes) code) c.toNat = codeIn e code c.toNat) := by
  induction visits generalizing code with
  | nil => exact .inr ⟨by simp, rfl⟩
  | cons u us ih =>
    rw [List.foldl_cons]
    obtain ⟨v, hmem, hv, hcode⟩ | ⟨hnone, hcode⟩ := ih (recordVisit nodes code u)
    · exact .inl ⟨v, .tail _ hmem, hv, hcode⟩
    · by_cases hu : u.Labels nodes c
      · obtain ⟨hleaf, hsym⟩ := hu
        refine .inl ⟨u, .head _, ⟨hleaf, hsym⟩, hcode.trans ?_⟩
        rw [recordVisit, if_pos hleaf, codeIn_set, if_pos hsym.symm]
      · refine .inr ⟨List.forall_mem_cons.2 ⟨hu, hnone⟩, hcode.trans ?_⟩
        rw [recordVisit]
        split
        · rw [codeIn_set, if_neg (fun h => hu ⟨‹_›, h.symm⟩)]
        · rfl

section
variable {s t : State} (hs : TreeSound s) (hv : s.treeValid = true) (hroot : (s.nodeAt s.root.toNat).leaf = false)
  (h : exec .genCodes s = .next t)
include hs hv hroot h

/-- What GEN_CODES writes for a symbol: the entry of a visit of its leaf, or no codeword. -/
theorem codeAt_genCodes (c : Sym) :
    (∃ v ∈ s.visits, v.Labels s.nodeAt c ∧ t.codeAt c = v.entry) ∨
      ((∀ v ∈ s.visits, ¬ v.Labels s.nodeAt c) ∧ t.codeAt c = noCode) := by
  obtain ⟨code, hcode, rfl⟩ := genCodes_table hv h
  rw [genTable_visits hs hv hroot] at hcode
  cases hcode
  rw [← codeIn_clearedTable s.epoch c]
  exact codeIn_foldl_recordVisit s.nodeAt s.epoch s.visits clearedTable c

theorem valid_iff_visited (c : Sym) : (t.codeAt c).valid = true ↔ ∃ v ∈ s.visits, v.Labels s.nodeAt c := by
  obtain ⟨v, hmem, hc, hcode⟩ | ⟨hnone, hcode⟩ := codeAt_genCodes hs hv hroot h c
  · exact iff_of_true (by rw [hcode]; rfl) ⟨v, hmem, hc⟩
  · exact iff_of_false (by rw [hcode]; exact Bool.false_ne_true) fun ⟨v, hmem, hc⟩ => hnone v hmem hc

theorem codeAt_of_valid {c : Sym} (hc : (t.codeAt c).valid = true) :
    ∃ v ∈ s.visits, v.Labels s.nodeAt c ∧ t.codeAt c = v.entry := by
  obtain hvisit | ⟨-, hcode⟩ := codeAt_genCodes hs hv hroot h c
  · exact hvisit
  · rw [hcode] at hc
    cases hc

theorem spells_of_valid {c : Sym} (hc : (t.codeAt c).valid = true) : s.spells (codeBits (t.codeAt c)) c := by
  obtain ⟨v, hmem, ⟨hleaf, hsym⟩, hcode⟩ := codeAt_of_valid hs hv hroot h hc
  rw [hcode, codeBits_entry (visit_depth_le hs hv hmem)]
  exact ⟨v.node, (visit_reached hs hv hmem).spelled, hleaf, hsym⟩

end

/-- Settles O24: a codeword is a path that ends at its symbol's leaf, and the one-leaf tree has one codeword only. -/
theorem generatedCodeIsPrefixFree : Obligations.GeneratedCodeIsPrefixFree := by
  intro s t hs hv h c d hc hd hne hp
  cases hroot : (s.nodeAt s.root.toNat).leaf with
  | false => exact hne (State.spells_prefix (spells_of_valid hs hv hroot h hc) (spells_of_valid hs hv hroot h hd) hp)
  | true =>
    obtain ⟨t', h', -, -, hother⟩ := genCodesFallbackForOneLeaf s hv hroot
    obtain rfl : t' = t := by rw [h'] at h; injection h
    have hsym (x : Sym) (hx : (t'.codeAt x).valid = true) : x = (s.nodeAt s.root.toNat).sym :=
      by_contra fun hx' => by rw [hother x hx'] at hx; cases hx
    exact hne ((hsym c hc).trans (hsym d hd).symm)

/-! ## Every live node is visited -/

/-- Every live node but ROOT is the child of a live internal node (10_state.md R58 (d)). -/
theorem OwnedOnce.exists_parent {s : State} (ho : OwnedOnce s) (hq : s.pqSize = 0#9) {k : Nat}
    (hk : k < s.nodeCount.toNat) (hroot : s.root.toNat ≠ k) :
    ∃ p < s.nodeCount.toNat, (s.nodeAt p).leaf = false ∧
      ((s.nodeAt p).left.toNat = k ∨ (s.nodeAt p).right.toNat = k) := by
  by_contra hnone
  push Not at hnone
  have hleft : s.childCount Node.left k = 0 := childCount_eq_zero fun p hp hleaf => (hnone p hp hleaf).1
  have hright : s.childCount Node.right k = 0 := childCount_eq_zero fun p hp hleaf => (hnone p hp hleaf).2
  have hone := ho k hk
  simp [owners_eq, hleft, hright, queue_eq_nil hq, hroot] at hone

section
variable {s : State} (hs : TreeSound s) (ho : OwnedOnce s) (hv : s.treeValid = true)
include hs ho hv

/-- The walk visits every live node: from ROOT down, a node after its parent, which has a greater index. -/
theorem exists_visit (k : Nat) (hk : k < s.nodeCount.toNat) : ∃ v ∈ s.visits, v.node.toNat = k := by
  obtain ⟨-, hempty, -⟩ := hs.flagsAgree
  by_cases hroot : s.root.toNat = k
  · exact ⟨s.rootVisit, (rootVisit_within hs hv).self_mem s.nodeAt, hroot⟩
  · obtain ⟨p, hp, hleaf, hchild⟩ := ho.exists_parent (hempty hv) hk hroot
    have hlt := hs.nodesSound.children p hp hleaf
    obtain ⟨v, hmem, rfl⟩ := exists_visit p hp
    obtain hleft | hright := hchild
    · exact ⟨_, go_mem_visits hs hv hmem hleaf false, hleft⟩
    · exact ⟨_, go_mem_visits hs hv hmem hleaf true, hright⟩
termination_by s.nodeCount.toNat - k

/-- The walk visits every live node once (R192). -/
theorem visits_perm : (s.visits.map (·.node.toNat)).Perm (List.range s.nodeCount.toNat) := by
  have hsub : List.range s.nodeCount.toNat ⊆ s.visits.map (·.node.toNat) := fun k hk =>
    List.mem_map.2 (exists_visit hs ho hv k (List.mem_range.1 hk))
  refine ((List.subperm_of_subset List.nodup_range hsub).perm_of_length_le ?_).symm
  rw [List.length_map, length_visits hs hv, List.length_range]

theorem exists_label_iff (c : Sym) : (∃ v ∈ s.visits, v.Labels s.nodeAt c) ↔
    ∃ k < s.nodeCount.toNat, (s.nodeAt k).leaf = true ∧ (s.nodeAt k).sym = c := by
  constructor
  · rintro ⟨v, hmem, hc⟩
    exact ⟨_, (visit_reached hs hv hmem).live, hc⟩
  · rintro ⟨k, hk, hc⟩
    obtain ⟨v, hmem, rfl⟩ := exists_visit hs ho hv k hk
    exact ⟨v, hmem, hc⟩

end

/-- Settles O23: the entries are those of the visits of the leaves, each below the internal root. -/
theorem genCodesSpellsThePathsOfTheLeaves : Obligations.GenCodesSpellsThePathsOfTheLeaves := by
  refine fun s t hs ho hv hroot h c =>
    ⟨(valid_iff_visited hs hv hroot h c).trans (exists_label_iff hs ho hv c), fun hc => ?_⟩
  obtain ⟨v, hmem, ⟨hleaf, -⟩, hcode⟩ := codeAt_of_valid hs hv hroot h hc
  have hreached := visit_reached hs hv hmem
  have hlen : (t.codeAt c).len.toNat = v.depth := by rw [hcode, len_entry (visit_depth_le hs hv hmem)]
  refine ⟨?_, spells_of_valid hs hv hroot h hc, fun j hj => ?_⟩
  · rw [hlen]
    exact hreached.depth_pos fun hnode => absurd hroot (ne_false_of_eq_true (hnode ▸ hleaf))
  · rw [hcode]
    exact hreached.clean j (hlen ▸ hj)

/-! ## The lengths -/

/-- All the symbols (00_scope.md R8). -/
def allSyms : List Sym := (List.range 256).map (BitVec.ofNat 8)

theorem mem_allSyms (c : Sym) : c ∈ allSyms :=
  List.mem_map.2 ⟨c.toNat, List.mem_range.2 c.isLt, BitVec.ofNat_toNat 8 c⟩

theorem allSyms_nodup : allSyms.Nodup := by
  refine List.nodup_range.map_on fun i hi j hj hij => ?_
  rw [List.mem_range] at hi hj
  bv_omega

theorem sum_map_ite_zero {α : Type} (l : List α) (p : α → Bool) (f : α → Nat) :
    (l.map fun a => if p a then f a else 0).sum = ((l.filter p).map f).sum := by
  simp [List.sum_map_ite]

theorem TreeSound.leavesDistinct {s : State} (hs : TreeSound s) : LeavesDistinct s := by
  obtain ⟨-, -, -, -, hdistinct⟩ := hs
  exact hdistinct

section
variable {s : State} (hs : TreeSound s) (ho : OwnedOnce s) (hv : s.treeValid = true)
include hs ho hv

/-- Each symbol labels one leaf, and the walk visits that leaf once (R192). -/
theorem visit_eq_of_labels {v w : Visit} (hmem : v ∈ s.visits) (hmem' : w ∈ s.visits) {c : Sym}
    (hc : v.Labels s.nodeAt c) (hc' : w.Labels s.nodeAt c) : v = w := by
  have hdistinct := hs.leavesDistinct
  have hlive := (visit_reached hs hv hmem).live
  have hlive' := (visit_reached hs hv hmem').live
  obtain ⟨hleaf, hsym⟩ := hc
  obtain ⟨hleaf', hsym'⟩ := hc'
  refine List.inj_on_of_nodup_map ((visits_perm hs ho hv).nodup_iff.2 List.nodup_range) hmem hmem' ?_
  obtain hlt | heq | hgt := Nat.lt_trichotomy v.node.toNat w.node.toNat
  · exact absurd (hsym'.trans hsym.symm) (hdistinct _ hlive' _ hlt hleaf' hleaf)
  · exact heq
  · exact absurd (hsym.trans hsym'.symm) (hdistinct _ hlive _ hgt hleaf hleaf')

/-- The symbols of the leaves, in the order of the walk, are the symbols with an entry. -/
theorem leafSyms_perm {t : State} (hroot : (s.nodeAt s.root.toNat).leaf = false) (h : exec .genCodes s = .next t) :
    (allSyms.filter fun c => (t.codeAt c).valid).Perm
      ((s.visits.filter fun v => (s.nodeAt v.node.toNat).leaf).map fun v => (s.nodeAt v.node.toNat).sym) := by
  refine (List.perm_ext_iff_of_nodup (allSyms_nodup.filter _) ?nodup).2 fun c => ?mem
  case nodup =>
    have hvisits : s.visits.Nodup := ((visits_perm hs ho hv).nodup_iff.2 List.nodup_range).of_map _
    refine (hvisits.filter _).map_on fun v hmem w hmem' hsym => ?_
    obtain ⟨hmem, hleaf⟩ := List.mem_filter.1 hmem
    obtain ⟨hmem', hleaf'⟩ := List.mem_filter.1 hmem'
    exact visit_eq_of_labels hs ho hv hmem hmem' ⟨hleaf, hsym⟩ ⟨hleaf', rfl⟩
  case mem =>
    rw [List.mem_filter, valid_iff_visited hs hv hroot h]
    simp [mem_allSyms, and_assoc]

theorem codeAt_leaf {t : State} (hroot : (s.nodeAt s.root.toNat).leaf = false) (h : exec .genCodes s = .next t)
    {v : Visit} (hmem : v ∈ s.visits) (hleaf : (s.nodeAt v.node.toNat).leaf = true) :
    t.codeAt (s.nodeAt v.node.toNat).sym = v.entry := by
  obtain ⟨w, hmem', hw, hcode⟩ := codeAt_of_valid hs hv hroot h
    ((valid_iff_visited hs hv hroot h _).2 ⟨v, hmem, hleaf, rfl⟩)
  rw [hcode, visit_eq_of_labels hs ho hv hmem hmem' ⟨hleaf, rfl⟩ hw]

end

/-- Settles O25: the sum over the symbols is the sum over the leaves that the walk visits. -/
theorem generatedCodeLengthsFillTheTree : Obligations.GeneratedCodeLengthsFillTheTree := by
  intro s t hs ho hv hroot h
  have hentry : ∀ v ∈ s.visits.filter fun v => (s.nodeAt v.node.toNat).leaf,
      2 ^ (255 - (t.codeAt (s.nodeAt v.node.toNat).sym).len.toNat) = 2 ^ (255 - v.depth) := fun v hmem => by
    obtain ⟨hmem, hleaf⟩ := List.mem_filter.1 hmem
    rw [codeAt_leaf hs ho hv hroot h hmem hleaf, len_entry (visit_depth_le hs hv hmem)]
  calc _
    _ = (allSyms.map fun c => if (t.codeAt c).valid then 2 ^ (255 - (t.codeAt c).len.toNat) else 0).sum := by
      rw [allSyms, List.map_map]; rfl
    _ = ((s.visits.filter fun v => (s.nodeAt v.node.toNat).leaf).map fun v =>
          2 ^ (255 - (t.codeAt (s.nodeAt v.node.toNat).sym).len.toNat)).sum := by
      rw [sum_map_ite_zero, ((leafSyms_perm hs ho hv hroot h).map _).sum_eq, List.map_map]; rfl
    _ = (s.visits.map fun v => if (s.nodeAt v.node.toNat).leaf then 2 ^ (255 - v.depth) else 0).sum := by
      rw [sum_map_ite_zero, List.map_congr_left hentry]
    _ = 2 ^ 255 := sum_leaves_visitsFrom hs.nodesSound.children (rootVisit_within hs hv) fun _ => visit_depth_le hs hv

end Sys2Proof.Machine

/-! # The encoder (43_encoder.md R210-R217) -/

namespace Sys2Proof.Machine

/-! ## The checks before the loop -/

/-- Settles O28: the table and the text's length are checked before anything is written. -/
theorem encodeChecksTableAndLengthFirst : Obligations.EncodeChecksTableAndLengthFirst := by
  refine fun s => ⟨fun hv => ?_, fun hv hlong => ?_⟩
  · rw [exec, execEncode, encodeBody, if_pos hv]
    rfl
  · have hmax : s.textLen.toNat > Config.textMax := hlong
    rw [exec, execEncode, encodeBody, if_neg (ne_false_of_eq_true hv), if_pos hmax]
    rfl

theorem exec_encode_of_checks {s : State} (hv : s.codesValid = true) (hlen : s.textLen.toNat ≤ 4096) :
    exec .encode s = .next (encodeFrom s s.textLen.toNat 0 0 s.mem.bit).complete := by
  have hmax : ¬ s.textLen.toNat > Config.textMax := Nat.not_lt.2 hlen
  rw [exec, execEncode, encodeBody, if_neg (ne_false_of_eq_true hv), if_neg hmax]

/-! ## The text and its codewords -/

@[simp] theorem length_codeBits (e : CodeEntry) : (codeBits e).length = e.len.toNat := by
  rw [codeBits, List.length_map, List.length_range]

theorem getElem?_codeBits (e : CodeEntry) (j : Nat) :
    (codeBits e)[j]? = if j < e.len.toNat then some (e.bits.getLsbD j) else none := by
  rw [codeBits, List.getElem?_map]
  split
  · rw [List.getElem?_range ‹_›, Option.map_some]
  · rw [List.getElem?_eq_none (by rw [List.length_range]; omega), Option.map_none]

theorem encoded_text_succ (s : State) (m : Nat) :
    s.encoded (s.text (m + 1)) = s.encoded (s.text m) ++ codeBits (s.codeAt (s.textAt m)) := by
  simp [State.encoded, State.text, List.range_succ]

theorem length_encoded_text_succ (s : State) (m : Nat) :
    (s.encoded (s.text (m + 1))).length = (s.encoded (s.text m)).length + (s.codeAt (s.textAt m)).len.toNat := by
  rw [encoded_text_succ, List.length_append, length_codeBits]

/-- A text that can be encoded can be encoded up to its last symbol, and that symbol then. -/
theorem textFits_succ_iff {s : State} {m : Nat} :
    TextFits s (m + 1) ↔ TextFits s m ∧ (s.codeAt (s.textAt m)).valid = true ∧
      (s.encoded (s.text m)).length + (s.codeAt (s.textAt m)).len.toNat ≤ 32768 := by
  rw [TextFits, TextFits, length_encoded_text_succ, Nat.forall_lt_succ_right]
  constructor
  · rintro ⟨⟨hvalid, hlast⟩, hfits⟩
    exact ⟨⟨hvalid, by omega⟩, hlast, hfits⟩
  · rintro ⟨⟨hvalid, -⟩, hlast, hfits⟩
    exact ⟨⟨hvalid, hlast⟩, hfits⟩

/-! ## What BIT holds -/

/-- A bit RAM holds the given bits at its start, and beyond them what the state's own BIT holds (R210, R212). -/
def State.StreamWritten (s : State) (bits : List Bool) (bit : Ram Bool) : Prop :=
  ∀ j, bitIn s.epoch bit j = bits[j]?.getD (s.bitAt j)

theorem streamWritten_nil (s : State) : s.StreamWritten [] s.mem.bit := fun _ => rfl

/-- A codeword written at the end of the bits so far appends it (R210). -/
theorem State.StreamWritten.append {s : State} {bits : List Bool} {bit : Ram Bool} (h : s.StreamWritten bits bit)
    (c : CodeEntry) : s.StreamWritten (bits ++ codeBits c) (writeCodeword bit bits.length c) := by
  intro j
  rw [bitIn_writeCodeword]
  by_cases hlow : j < bits.length
  · rw [if_neg (by omega), List.getElem?_append_left hlow, h j]
  · rw [List.getElem?_append_right (by omega), getElem?_codeBits]
    by_cases hin : j - bits.length < c.len.toNat
    · rw [if_pos (by omega), if_pos hin, Option.getD_some]
    · rw [if_neg (by omega), if_neg hin, Option.getD_none, h j, List.getElem?_eq_none (by omega), Option.getD_none]

/-- The stream of a state with such a BIT is the given bits, and every bit beyond them reads as before. -/
theorem State.StreamWritten.reads {s t : State} {bits : List Bool} (h : s.StreamWritten bits t.mem.bit)
    (he : t.epoch = s.epoch) :
    t.stream bits.length = bits ∧ ∀ q, bits.length ≤ q → t.bitAt q = s.bitAt q := by
  have hread : ∀ j, t.bitAt j = bits[j]?.getD (s.bitAt j) := fun j => by rw [State.bitAt, he, h j]
  refine ⟨List.ext_getElem (by simp [State.stream]) fun j hj hbits => ?_, fun q hq => ?_⟩
  · simp [State.stream, hread, hbits]
  · rw [hread, List.getElem?_eq_none hq, Option.getD_none]

/-! ## The loop -/

section
variable {s : State} {p q : Nat} {bit : Ram Bool} (left : Nat)

theorem encodeFrom_unknown (h : (s.codeAt (s.textAt p)).valid = false) :
    encodeFrom s (left + 1) p q bit =
      .raised .unknownSymbol ((s.textAt p).setWidth 32) (BitVec.ofNat 32 p) (s.withStream bit 0#32) :=
  if_pos h

theorem encodeFrom_overflow (h : (s.codeAt (s.textAt p)).valid = true)
    (hq : 32768 < q + (s.codeAt (s.textAt p)).len.toNat) :
    encodeFrom s (left + 1) p q bit =
      .raised .outputOverflow (BitVec.ofNat 32 p) (BitVec.ofNat 32 q) (s.withStream bit 0#32) :=
  (if_neg (ne_false_of_eq_true h)).trans (if_pos hq)

theorem encodeFrom_fits (h : (s.codeAt (s.textAt p)).valid = true)
    (hq : q + (s.codeAt (s.textAt p)).len.toNat ≤ 32768) :
    encodeFrom s (left + 1) p q bit = encodeFrom s left (p + 1) (q + (s.codeAt (s.textAt p)).len.toNat)
      (writeCodeword bit q (s.codeAt (s.textAt p))) :=
  (if_neg (ne_false_of_eq_true h)).trans (if_neg (Nat.not_lt.2 hq))

end

/-- The loop comes to position m of a text that can be encoded up to there, with the codewords before m written. -/
theorem encodeFrom_reaches {s : State} {m : Nat} (hfit : TextFits s m) (left : Nat) :
    ∃ bit, s.StreamWritten (s.encoded (s.text m)) bit ∧
      encodeFrom s (left + m) 0 0 s.mem.bit = encodeFrom s left m (s.encoded (s.text m)).length bit := by
  induction m generalizing left with
  | zero => exact ⟨s.mem.bit, streamWritten_nil s, rfl⟩
  | succ m ih =>
    obtain ⟨hfit, hvalid, hlen⟩ := textFits_succ_iff.1 hfit
    obtain ⟨bit, hbit, hloop⟩ := ih hfit (left + 1)
    refine ⟨writeCodeword bit (s.encoded (s.text m)).length (s.codeAt (s.textAt m)), ?written, ?loop⟩
    case written =>
      rw [encoded_text_succ]
      exact hbit.append _
    case loop =>
      rw [length_encoded_text_succ, ← encodeFrom_fits left hvalid hlen, ← hloop, Nat.add_right_comm, Nat.add_assoc]

/-- Settles O27: the loop comes to the end of the text. -/
theorem encodeConcatenatesTheCodewords : Obligations.EncodeConcatenatesTheCodewords := by
  intro s hv hlen hfit
  obtain ⟨bit, hbit, hloop⟩ := encodeFrom_reaches hfit 0
  rw [Nat.zero_add] at hloop
  rw [exec_encode_of_checks hv hlen, hloop]
  exact ⟨_, rfl, rfl, hbit.reads rfl⟩

/-- Settles O29: the loop comes to position p, and ends there. -/
theorem encodeErrorKeepsThePrefixItWrote : Obligations.EncodeErrorKeepsThePrefixItWrote := by
  intro s p hv hlen hp hfit herr
  obtain ⟨left, hleft⟩ : ∃ left, s.textLen.toNat = left + 1 + p := ⟨s.textLen.toNat - p - 1, by omega⟩
  obtain ⟨bit, hbit, hloop⟩ := encodeFrom_reaches hfit (left + 1)
  rw [exec_encode_of_checks hv hlen, hleft, hloop]
  obtain hunknown | ⟨hvalid, hover⟩ := herr
  · rw [encodeFrom_unknown left hunknown, hunknown]
    exact ⟨_, rfl, rfl, hbit.reads rfl⟩
  · rw [encodeFrom_overflow left hvalid hover, hvalid]
    exact ⟨_, rfl, rfl, hbit.reads rfl⟩

end Sys2Proof.Machine

/-! # The decoder (44_decoder.md R230-R239) -/

namespace Sys2Proof.Machine

/-! ## The checks before the walk -/

/-- Settles O33: the tree and the stream's length are checked before anything is written. -/
theorem decodeChecksTreeAndLengthFirst : Obligations.DecodeChecksTreeAndLengthFirst := by
  refine fun s => ⟨fun hv => ?_, fun hv hlong => ?_⟩
  · rw [exec, execDecode, decodeBody, if_pos hv]
    rfl
  · have hmax : s.bitLen.toNat > Config.bitMax := hlong
    rw [exec, execDecode, decodeBody, if_neg (ne_false_of_eq_true hv), if_pos hmax]
    rfl

/-! ## The walk over a list of bits -/

/-- The walk over the given bits, the first of them at stream position i (R230). -/
def decodeBits (s : State) : Nat → List Bool → Walk → Walk
  | _, [], c => c
  | i, b :: bs, c => decodeBits s (i + 1) bs (decStep s b i c)

theorem walkFrom_eq_decodeBits (s : State) (left i : Nat) (c : Walk) :
    walkFrom s left i c = decodeBits s i ((List.range' i left).map s.bitAt) c := by
  induction left generalizing i c with
  | zero => rfl
  | succ left ih => exact ih _ _

theorem walkFrom_stream (s : State) (n : Nat) (c : Walk) :
    walkFrom s n 0 c = decodeBits s 0 (s.stream n) c := by
  rw [walkFrom_eq_decodeBits, State.stream, List.range_eq_range']

theorem decodeBits_append (s : State) (i : Nat) (xs ys : List Bool) (c : Walk) :
    decodeBits s i (xs ++ ys) c = decodeBits s (i + xs.length) ys (decodeBits s i xs c) := by
  induction xs generalizing i c with
  | nil => rfl
  | cons b xs ih =>
    rw [List.length_cons, Nat.add_comm xs.length, ← Nat.add_assoc]
    exact ih _ _

/-! ## One bit -/

section
variable {s : State} {b : Bool} {c : Walk} (i : Nat)

theorem decStep_oneLeaf (hroot : (s.nodeAt s.root.toNat).leaf = true) :
    decStep s b i c = { c.emit (s.nodeAt s.root.toNat).sym with start := BitVec.ofNat 16 (i + 1) } :=
  if_pos hroot

theorem decStep_leaf (hroot : (s.nodeAt s.root.toNat).leaf = false)
    (h : (s.nodeAt (s.child c.cur b).toNat).leaf = true) :
    decStep s b i c = { c.emit (s.nodeAt (s.child c.cur b).toNat).sym with
      cur := s.root, depth := 0#8, start := BitVec.ofNat 16 (i + 1) } :=
  (if_neg (ne_true_of_eq_false hroot)).trans (if_pos h)

theorem decStep_inner (hroot : (s.nodeAt s.root.toNat).leaf = false)
    (h : (s.nodeAt (s.child c.cur b).toNat).leaf = false) :
    decStep s b i c = { c with cur := s.child c.cur b, depth := c.depth + 1#8 } :=
  (if_neg (ne_true_of_eq_false hroot)).trans (if_neg (ne_true_of_eq_false h))

end

/-! ## A path of the tree -/

/-- No path goes on from a leaf. -/
theorem State.descend_of_leaf {s : State} {k m : NodeIdx} {bits : List Bool} (hleaf : (s.nodeAt k.toNat).leaf = true)
    (h : s.descend k bits = some m) : bits = [] ∧ m = k := by
  cases bits with
  | nil => exact ⟨rfl, (Option.some.inj h).symm⟩
  | cons b bs => rw [State.descend, if_pos hleaf] at h; cases h

theorem State.descend_to_inner {s : State} {k m : NodeIdx} {bits : List Bool} (h : s.descend k bits = some m)
    (hm : (s.nodeAt m.toNat).leaf = false) : (s.nodeAt k.toNat).leaf = false := by
  refine Bool.eq_false_iff.2 fun hleaf => ?_
  obtain ⟨-, rfl⟩ := State.descend_of_leaf hleaf h
  exact ne_true_of_eq_false hm hleaf

theorem State.descend_cons {s : State} {k : NodeIdx} (hk : (s.nodeAt k.toNat).leaf = false) (b : Bool)
    (bs : List Bool) : s.descend k (b :: bs) = s.descend (s.child k b) bs :=
  if_neg (ne_true_of_eq_false hk)

section
variable {s : State} (hroot : (s.nodeAt s.root.toNat).leaf = false)
include hroot

/-- Over a path that ends at an internal node the walk goes down it and emits nothing (R232). -/
theorem decodeBits_toInner {bits : List Bool} {k : NodeIdx} (i : Nat) {c : Walk} (h : s.descend c.cur bits = some k)
    (hk : (s.nodeAt k.toNat).leaf = false) :
    decodeBits s i bits c = { c with cur := k, depth := c.depth + BitVec.ofNat 8 bits.length } := by
  induction bits generalizing i c with
  | nil => cases h; simp [decodeBits]
  | cons b bs ih =>
    rw [State.descend_cons (State.descend_to_inner h hk)] at h
    rw [decodeBits, decStep_inner i hroot (State.descend_to_inner h hk), ih _ h, List.length_cons]
    simp [BitVec.ofNat_add, BitVec.add_assoc, BitVec.add_comm (1#8)]

/-- Over a path that ends at a leaf the walk emits the leaf's symbol and is at ROOT again (R232). -/
theorem decodeBits_toLeaf {bits : List Bool} {k : NodeIdx} (i : Nat) {c : Walk} (h : s.descend c.cur bits = some k)
    (hcur : (s.nodeAt c.cur.toNat).leaf = false) (hk : (s.nodeAt k.toNat).leaf = true) :
    decodeBits s i bits c = { c.emit (s.nodeAt k.toNat).sym with
      cur := s.root, depth := 0#8, start := BitVec.ofNat 16 (i + bits.length) } := by
  induction bits generalizing i c with
  | nil => cases h; rw [hcur] at hk; cases hk
  | cons b bs ih =>
    rw [State.descend_cons hcur] at h
    rw [decodeBits, List.length_cons, Nat.add_comm bs.length, ← Nat.add_assoc]
    cases hchild : (s.nodeAt (s.child c.cur b).toNat).leaf with
    | false =>
      rw [decStep_inner i hroot hchild]
      exact ih _ h hchild
    | true =>
      obtain ⟨rfl, rfl⟩ := State.descend_of_leaf hchild h
      exact decStep_leaf i hroot hchild

end

/-! ## What OUT holds -/

/-- The output RAM after the given symbols are emitted, the first to OUT[0] (R232). -/
def State.written (s : State) (syms : List Sym) : Ram Sym :=
  syms.zipIdx.foldl (fun out x => Ram.set out x.2 x.1) s.mem.out

theorem State.written_concat (s : State) (syms : List Sym) (x : Sym) :
    s.written (syms ++ [x]) = Ram.set (s.written syms) syms.length x := by
  simp [State.written, List.zipIdx_append]

theorem State.getD_written (s : State) (syms : List Sym) (j : Nat) (d : Sym) :
    Ram.getD (s.written syms) j d = syms[j]?.getD (Ram.getD s.mem.out j d) := by
  induction syms using List.reverseRecOn with
  | nil => rfl
  | append_singleton syms x ih =>
    rw [State.written_concat, Ram.getD_set, ih]
    obtain hlt | rfl | hgt := Nat.lt_trichotomy j syms.length
    · rw [if_neg hlt.ne, List.getElem?_append_left hlt]
    · rw [if_pos rfl, List.getElem?_concat_length, Option.getD_some]
    · rw [if_neg hgt.ne', List.getElem?_eq_none hgt.le, List.getElem?_eq_none (by simpa using hgt)]

/-- The output of a state with such an OUT is the given symbols, and every entry beyond them reads as before. -/
theorem State.written_reads {s t : State} {syms : List Sym} (h : t.mem.out = s.written syms)
    (he : t.epoch = s.epoch) :
    t.output syms.length = syms ∧ ∀ k, syms.length ≤ k → t.outAt k = s.outAt k := by
  have hread : ∀ j, t.outAt j = syms[j]?.getD (s.outAt j) := fun j => by
    rw [State.outAt, he, h, State.getD_written, State.outAt]
  refine ⟨List.ext_getElem (by simp [State.output]) fun j hj hsyms => ?_, fun k hk => ?_⟩
  · simp [State.output, hread, hsyms]
  · rw [hread, List.getElem?_eq_none hk, Option.getD_none]

/-! ## Between codewords -/

/-- The decoder at ROOT at stream position i, with the given symbols emitted so far. -/
def State.between (s : State) (i : Nat) (syms : List Sym) : Walk :=
  { cur := s.root, depth := 0#8, start := BitVec.ofNat 16 i, emitted := syms.length, out := s.written syms }

theorem atRoot_eq_between (s : State) : s.atRoot = s.between 0 [] := rfl

theorem between_emit (s : State) (i j : Nat) (syms : List Sym) (x : Sym) :
    { (s.between i syms).emit x with cur := s.root, depth := 0#8, start := BitVec.ofNat 16 j } =
      s.between j (syms ++ [x]) := by
  simp [State.between, Walk.emit, State.written_concat]

theorem decodeBits_words {s : State} {words : List (List Bool × Sym)} (hroot : (s.nodeAt s.root.toNat).leaf = false)
    (hwords : ∀ x ∈ words, s.spells x.1 x.2) (i : Nat) (syms : List Sym) :
    decodeBits s i (words.flatMap Prod.fst) (s.between i syms) =
      s.between (i + (words.flatMap Prod.fst).length) (syms ++ words.map Prod.snd) := by
  induction words generalizing i syms with
  | nil => simp [decodeBits]
  | cons x words ih =>
    obtain ⟨⟨k, hk, hleaf, hsym⟩, hwords⟩ := List.forall_mem_cons.1 hwords
    rw [List.flatMap_cons, decodeBits_append, decodeBits_toLeaf hroot i hk hroot hleaf, between_emit, hsym,
      ih hwords, List.length_append, ← Nat.add_assoc, List.map_cons, List.append_assoc, List.singleton_append]

theorem decodeBits_oneLeaf {s : State} (hroot : (s.nodeAt s.root.toNat).leaf = true) (bits : List Bool) (i : Nat)
    (syms : List Sym) :
    decodeBits s i bits (s.between i syms) =
      s.between (i + bits.length) (syms ++ List.replicate bits.length (s.nodeAt s.root.toNat).sym) := by
  induction bits generalizing i syms with
  | nil => simp [decodeBits]
  | cons b bits ih =>
    have hstep : decStep s b i (s.between i syms) = s.between (i + 1) (syms ++ [(s.nodeAt s.root.toNat).sym]) :=
      (decStep_oneLeaf i hroot).trans (between_emit s i (i + 1) syms _)
    rw [decodeBits, hstep, ih, List.length_cons, List.replicate_succ, List.append_assoc, List.singleton_append,
      Nat.add_assoc, Nat.add_comm 1]

/-! ## DECODE -/

section
variable {s : State} (hv : s.treeValid = true) (hlen : s.bitLen.toNat ≤ 32768)
include hv hlen

theorem exec_decode_of_checks {c : Walk}
    (hc : decodeBits s 0 (s.stream s.bitLen.toNat) (s.between 0 []) = c) :
    exec .decode s = .next
      (if c.depth ≠ 0#8 then
        (s.withOutput c.out 0#32).raise .truncatedStream (c.start.setWidth 32) (c.depth.setWidth 32)
      else (s.withOutput c.out (BitVec.ofNat 32 c.emitted)).succeed) := by
  have hmax : ¬ s.bitLen.toNat > Config.bitMax := Nat.not_lt.2 hlen
  rw [exec, execDecode, decodeBody, if_neg (ne_false_of_eq_true hv), if_neg hmax, walkFrom_stream, atRoot_eq_between,
    hc]
  dsimp only
  split <;> rfl

/-- A walk that ends between codewords is a success, with the symbols emitted in OUT (R230). -/
theorem decode_of_between {i : Nat} {syms : List Sym}
    (hc : decodeBits s 0 (s.stream s.bitLen.toNat) (s.between 0 []) = s.between i syms) :
    ∃ t, exec .decode s = .next t ∧
      t = { s with
        seq := .idle, done := true, outLen := BitVec.ofNat 32 syms.length
        mem := { s.mem with out := t.mem.out } } ∧
      t.output syms.length = syms ∧ ∀ k, syms.length ≤ k → t.outAt k = s.outAt k :=
  ⟨_, exec_decode_of_checks hv hlen hc, rfl, State.written_reads rfl rfl⟩

/-- A walk that ends inside a codeword reports where that codeword began and how many of its bits there are (R234). -/
theorem decode_of_inside {i n : Nat} {k : NodeIdx} {syms : List Sym} (hi : i ≤ 32768) (hn : n ≠ 0) (hn' : n ≤ 254)
    (hc : decodeBits s 0 (s.stream s.bitLen.toNat) (s.between 0 []) =
      { s.between i syms with cur := k, depth := 0#8 + BitVec.ofNat 8 n }) :
    ∃ t, exec .decode s = .next t ∧
      t = { s with
        seq := .idle, done := true, outLen := 0#32, errCode := 0x04#8
        errInfo0 := BitVec.ofNat 32 i, errInfo1 := BitVec.ofNat 32 n
        mem := { s.mem with out := t.mem.out } } ∧
      t.output syms.length = syms ∧ ∀ j, syms.length ≤ j → t.outAt j = s.outAt j := by
  have hdepth : BitVec.ofNat 8 n ≠ 0#8 := by bv_omega
  have hstart : (BitVec.ofNat 16 i).setWidth 32 = BitVec.ofNat 32 i :=
    BitVec.setWidth_ofNat_of_le_of_lt (by decide) (by omega)
  have hbits : (BitVec.ofNat 8 n).setWidth 32 = BitVec.ofNat 32 n :=
    BitVec.setWidth_ofNat_of_le_of_lt (by decide) (by omega)
  rw [BitVec.zero_add] at hc
  rw [exec_decode_of_checks hv hlen hc, if_pos hdepth]
  exact ⟨_, rfl, by rw [hbits, State.between, hstart]; rfl, State.written_reads rfl rfl⟩

end

theorem length_stream (s : State) (n : Nat) : (s.stream n).length = n := by
  rw [State.stream, List.length_map, List.length_range]

/-- Settles O30: the walk over the codewords ends between codewords, with their symbols emitted. -/
theorem decodeOfCodewordsGivesTheirSymbols : Obligations.DecodeOfCodewordsGivesTheirSymbols := by
  intro s words hv hlen hroot hwords hstream
  have hwalk := decodeBits_words hroot (fun x hx => (hwords x hx).2) 0 []
  rw [← hstream] at hwalk
  have hdecode := decode_of_between hv hlen hwalk
  rwa [List.nil_append, List.length_map] at hdecode

/-- Settles O31: after the codewords the walk goes down the tail's path, and does not come back to ROOT. -/
theorem decodeReportsATruncatedTail : Obligations.DecodeReportsATruncatedTail := by
  intro s words tail k hv hlen hroot hwords htail htail' hk hinner hstream
  have hwalk : decodeBits s 0 (s.stream s.bitLen.toNat) (s.between 0 []) =
      { s.between (words.flatMap Prod.fst).length (words.map Prod.snd) with
        cur := k, depth := 0#8 + BitVec.ofNat 8 tail.length } := by
    rw [hstream, decodeBits_append, decodeBits_words hroot fun x hx => (hwords x hx).2, Nat.zero_add, List.nil_append]
    exact decodeBits_toInner hroot _ hk hinner
  have hstart : (words.flatMap Prod.fst).length ≤ 32768 := by
    have hlength := congrArg List.length hstream
    rw [length_stream, List.length_append] at hlength
    omega
  have hdecode := decode_of_inside hv hlen hstart (List.length_eq_zero_iff.not.2 htail) htail' hwalk
  rwa [List.length_map] at hdecode

theorem map_range_eq_replicate {α : Type} {f : Nat → α} {n : Nat} {a : α} :
    (List.range n).map f = List.replicate n a ↔ ∀ k < n, f k = a := by
  simp [List.eq_replicate_iff]

/-- Settles O32: every step of the walk emits the root's symbol, and the walk stays at ROOT. -/
theorem decodeOverOneLeafEmitsItForEveryBit : Obligations.DecodeOverOneLeafEmitsItForEveryBit := by
  intro s hv hlen hroot
  obtain ⟨t, ht, hframe, hout, hbeyond⟩ := decode_of_between hv hlen (decodeBits_oneLeaf hroot _ 0 [])
  rw [List.nil_append, length_stream, List.length_replicate] at hframe hout hbeyond
  rw [BitVec.ofNat_toNat, BitVec.setWidth_eq] at hframe
  exact ⟨t, ht, hframe, map_range_eq_replicate.1 hout, hbeyond⟩

/-! ## ENCODE, then DECODE -/

theorem descend_builder (s : State) (k : NodeIdx) (bits : List Bool) :
    s.builder.descend k bits = s.descend k bits := by
  induction bits generalizing k with
  | nil => rfl
  | cons b bs ih => rw [State.descend, State.descend, ih]; rfl

/-- Which codewords a tree has depends on the builder's part of a state only (44_decoder.md R235). -/
theorem spells_congr {s t : State} (h : t.builder = s.builder) (bits : List Bool) (c : Sym) :
    t.spells bits c ↔ s.spells bits c := by
  have hbuilder : ∀ u : State, u.builder.spells bits c ↔ u.spells bits c := fun u => by
    rw [State.spells, descend_builder]
    rfl
  rw [← hbuilder t, h, hbuilder]

theorem root_congr {s t : State} (h : t.builder = s.builder) :
    t.nodeAt t.root.toNat = s.nodeAt s.root.toNat := by
  show t.builder.nodeAt t.builder.root.toNat = s.builder.nodeAt s.builder.root.toNat
  rw [h]

/-- The codewords of the first m symbols of the text, each with its symbol. -/
def State.textWords (s : State) (m : Nat) : List (List Bool × Sym) :=
  (s.text m).map fun c => (codeBits (s.codeAt c), c)

theorem textWords_fst (s : State) (m : Nat) : (s.textWords m).flatMap Prod.fst = s.encoded (s.text m) := by
  rw [State.textWords, List.flatMap_map, State.encoded]

theorem textWords_snd (s : State) (m : Nat) : (s.textWords m).map Prod.snd = s.text m := by
  rw [State.textWords, List.map_map]
  exact List.map_id _

theorem length_text (s : State) (m : Nat) : (s.text m).length = m := by
  rw [State.text, List.length_map, List.length_range]

section
variable {s : State} {n : Nat} (hs : TreeSound s) (hv : s.treeValid = true) (htable : genTable s = some s.mem.code)
  (hfit : TextFits s n)
include hv htable hfit

/-- Over a one-leaf tree a text that can be encoded repeats the sole symbol, with a bit for each (42_code_table.md
R191). -/
theorem text_oneLeaf (hroot : (s.nodeAt s.root.toNat).leaf = true) :
    s.text n = List.replicate n (s.nodeAt s.root.toNat).sym ∧ (s.encoded (s.text n)).length = n := by
  obtain ⟨hvalid, -⟩ := hfit
  obtain ⟨t, ht, -, hsole, hother⟩ := genCodesFallbackForOneLeaf s hv hroot
  rw [exec_genCodes_ok hv htable] at ht
  cases ht
  have htext : s.text n = List.replicate n (s.nodeAt s.root.toNat).sym :=
    map_range_eq_replicate.2 fun p hp => by_contra fun hne =>
      absurd (hvalid p hp) (ne_true_of_eq_false (congrArg CodeEntry.valid (hother _ hne)))
  have hlen : (s.codeAt (s.nodeAt s.root.toNat).sym).len = 1#8 := congrArg CodeEntry.len hsole
  exact ⟨htext, by rw [htext]; simp [State.encoded, List.length_flatMap, hlen]⟩

include hs

/-- A table derived from the tree spells every symbol of a text that can be encoded (42_code_table.md R193 (b)). -/
theorem textWords_spelled (hroot : (s.nodeAt s.root.toNat).leaf = false) :
    ∀ x ∈ s.textWords n, x.1.length ≤ 255 ∧ s.spells x.1 x.2 := by
  obtain ⟨hvalid, -⟩ := hfit
  have hspell : ∀ c, (s.codeAt c).valid = true → s.spells (codeBits (s.codeAt c)) c := fun c hc =>
    spells_of_valid hs hv hroot (exec_genCodes_ok hv htable) hc
  simp only [State.textWords, State.text, List.map_map, List.forall_mem_map, List.mem_range]
  refine fun p hp => ⟨?_, hspell _ (hvalid p hp)⟩
  rw [Function.comp_apply, length_codeBits]
  exact Nat.le_of_lt_succ (s.codeAt (s.textAt p)).len.isLt

/-- DECODE gives a text back from its codewords, in any state that has their tree (R238). -/
theorem decode_of_encoded {t : State} (hb : t.builder = s.builder)
    (hlen : t.bitLen = BitVec.ofNat 32 (s.encoded (s.text n)).length)
    (hstream : t.stream (s.encoded (s.text n)).length = s.encoded (s.text n)) :
    ∃ u, exec .decode t = .next u ∧ u.errCode = t.errCode ∧ u.outLen = BitVec.ofNat 32 n ∧
      u.output n = s.text n := by
  have hfits := hfit.2
  have hbits : t.bitLen.toNat = (s.encoded (s.text n)).length := by
    rw [hlen, BitVec.toNat_ofNat, Nat.mod_eq_of_lt (by omega)]
  have htree : t.treeValid = true := (congrArg State.treeValid hb).trans hv
  have hroot' := congrArg Node.leaf (root_congr hb)
  cases hroot : (s.nodeAt s.root.toNat).leaf with
  | false =>
    obtain ⟨u, hu, hframe, hout, -⟩ := decodeOfCodewordsGivesTheirSymbols t (s.textWords n) htree
      (hbits ▸ hfits) (hroot'.trans hroot)
      (fun x hx => by rw [spells_congr hb]; exact textWords_spelled hs hv htable hfit hroot x hx)
      (by rw [hbits, hstream, textWords_fst])
    have hcount : (s.textWords n).length = n := by rw [State.textWords, List.length_map, length_text]
    rw [hcount] at hframe hout
    exact ⟨u, hu, by rw [hframe], congrArg State.outLen hframe, hout.trans (textWords_snd s n)⟩
  | true =>
    obtain ⟨u, hu, hframe, hout, -⟩ := decodeOverOneLeafEmitsItForEveryBit t htree (hbits ▸ hfits)
      (hroot'.trans hroot)
    obtain ⟨htext, hcount⟩ := text_oneLeaf hv htable hfit hroot
    rw [hcount] at hlen hbits
    rw [hbits, root_congr hb] at hout
    exact ⟨u, hu, by rw [hframe], (congrArg State.outLen hframe).trans hlen,
      (map_range_eq_replicate.2 hout).trans htext.symm⟩

end

/-- Settles O34: ENCODE writes codewords of the tree, and DECODE walks them. -/
theorem encodeThenDecodeGivesTheTextBack : Obligations.EncodeThenDecodeGivesTheTextBack := by
  intro s hs hd hcodes hlen hfit
  obtain ⟨htree, -⟩ := hs.flagsAgree
  obtain ⟨t, ht, hframe, hstream, -⟩ :=
    encodeConcatenatesTheCodewords (s.accept (encode .encode)) hcodes hlen hfit
  have hb : (t.accept (encode .decode)).builder = s.builder :=
    (builder_encode ht : t.builder = (s.accept (encode .encode)).builder)
  obtain ⟨u, hu, herr, hcount, hout⟩ := decode_of_encoded hs (htree hcodes) (hd hcodes) hfit hb
    (congrArg State.bitLen hframe) hstream
  rw [BitVec.ofNat_toNat, BitVec.setWidth_eq] at hcount
  exact ⟨t, u, ht, hu, congrArg State.errCode hframe, herr, hcount, hout⟩

end Sys2Proof.Machine

/-! # The control commands and the illegal word (45_control.md R250-R252) -/

namespace Sys2Proof.Machine

/-! ## The sequencer's turn -/

/-- A block out of reset whose command is running hands the sequencer the whole word (10_state.md R31, log 3). -/
theorem fetchCommand_busy {s : State} {w : Word} (hr : s.rstN = true) (hw : s.seq = .busy w) :
    s.fetchCommand = some w := by
  simp [State.fetchCommand, hw, hr]

/-- A word that is not legal is no command's word, so the decoder rejects it (30_encoding.md R114, R115). -/
theorem decode_of_illegal {w : Word} (h : (fieldsOf w).wf = false) : ∃ e, decode w = .error e := by
  cases hd : decode w with
  | error e => exact ⟨e, rfl⟩
  | ok i =>
    have hwf : (fieldsOf w).wf = true := fieldsOf_wf_iff.mpr ⟨i, decode_eq_ok_iff.mp hd⟩
    exact absurd hwf (ne_true_of_eq_false h)

theorem step_illegal {s : State} {w : Word} (hr : s.rstN = true) (hw : s.seq = .busy w) (hh : s.host = [])
    (h : (fieldsOf w).wf = false) : step s = .next (s.raise .illegalCmd w 0#32) := by
  obtain ⟨e, he⟩ := decode_of_illegal h
  simp only [step, hh, sequencerTurn, fetchCommand_busy hr hw, he, execIllegal]

/-- Settles O6: the CMD write is accepted, and the sequencer's turn then takes the word's error entry. -/
theorem illegalWordReportsItselfAndNothingElse : Obligations.IllegalWordReportsItselfAndNothingElse := by
  intro s w hr hi hbad hh
  have haccept : step s = .next { s.accept w with host := [], resp := some .wrote } :=
    step_write_idle hr hi hh (resolve_write (pl := .reg .cmd) (by decide) (by decide))
  exact run_two haccept (step_illegal hr rfl rfl hbad)

/-! ## NOP and CLEAR -/

theorem exec_nop (s : State) : exec .nop s = .next s.succeed := rfl

theorem exec_clear (s : State) : exec .clear s = .next s.cleared.succeed := rfl

/-- Settles O10: NOP completes, and acceptance is what clears the error report. -/
theorem nopCompletesAndClearsTheErrorReport : Obligations.NopCompletesAndClearsTheErrorReport :=
  ⟨rfl, fun s => ⟨exec_nop s, exec_nop (s.accept (encode .nop))⟩⟩

theorem pqWord_masked {s : State} {j : Nat} (h : s.pqSize.toNat ≤ j) : s.pqWord j = 0#32 :=
  if_neg (Nat.not_lt_of_le h)

theorem outWord_masked {s : State} {k : Nat} (h : s.outLen.toNat ≤ k) : s.outWord k = 0#32 :=
  if_neg (Nat.not_lt_of_le h)

/-- Settles O11: with NODE_COUNT, PQ_SIZE, CODES_VALID and OUT_LEN at 0 the four windows are masked at every index. -/
theorem clearDiscardsTreeQueueTableAndOutput : Obligations.ClearDiscardsTreeQueueTableAndOutput := by
  refine ⟨rfl, fun s => ⟨s.cleared.succeed, exec_clear s, rfl, fun k w => ?node, fun j => ?pq, fun c w => ?code,
    fun k => ?out⟩⟩
  case node => exact nodeWord_masked w (.inl (Nat.zero_le k))
  case pq => exact pqWord_masked (Nat.zero_le j)
  case code => exact codeWord_masked rfl
  case out => exact outWord_masked (Nat.zero_le k)

end Sys2Proof.Machine

/-! # How a command ends (60_exceptions.md R261-R271, R285) -/

namespace Sys2Proof.Machine

/-! ## The schedule -/

/-- At its turn the sequencer runs the command that the word decodes to (R261; 70_reset_and_hazards.md R297). -/
theorem sequencerTurn_running {s : State} {w : Word} {i : Instr} (hr : s.rstN = true) (hw : s.seq = .busy w)
    (hi : decode w = .ok i) : sequencerTurn s = exec i s := by
  simp only [sequencerTurn, fetchCommand_busy hr hw, hi]

theorem sequencerTurn_idle {s : State} (hw : s.seq = .idle) : sequencerTurn s = .next s := by
  simp only [sequencerTurn, State.fetchCommand, hw]

theorem step_no_event {s : State} (hh : s.host = []) : step s = sequencerTurn s := by
  rw [step, hh]

theorem step_running {s : State} {w : Word} {i : Instr} (hr : s.rstN = true) (hw : s.seq = .busy w)
    (hi : decode w = .ok i) (hh : s.host = []) : step s = exec i s := by
  rw [step_no_event hh, sequencerTurn_running hr hw hi]

/-- Settles O4: whether no event is pending or the turn is the first, the step is the sequencer's turn. -/
theorem stepRunsTheDecodedCommand : Obligations.StepRunsTheDecodedCommand := by
  refine fun s w i rest hr hw hi => ⟨step_running hr hw hi, fun hh => ?_⟩
  rw [step, hh]
  exact sequencerTurn_running (s := { s with host := rest }) hr hw hi

/-- Settles O7: with no event pending a step is the sequencer's turn, which is idle. -/
theorem idleBlockDoesNothing : Obligations.IdleBlockDoesNothing := by
  intro s hi hh
  rw [step_no_event hh, sequencerTurn_idle hi]

theorem resolve_write_cmd (w : Word) : resolve (.write 0x00024#19 4 w) = .ok (.reg .cmd) :=
  resolve_write (by decide) (by decide)

/-- Settles O5: CMD is a place whose write is taken while IDLE and dropped while BUSY, and what is accepted is what
runs next. -/
theorem cmdWriteIsAcceptedWhenIdleDroppedWhenBusy : Obligations.CmdWriteIsAcceptedWhenIdleDroppedWhenBusy := by
  refine fun s w rest hr hh => ⟨fun hi => ?idle, fun v hv => ?busy⟩
  case idle =>
    have haccept : step s = .next { s.accept w with host := rest, resp := some .wrote } :=
      step_write_idle hr hi hh (resolve_write_cmd w)
    refine ⟨haccept, fun t ht i hdec => ?_⟩
    rw [haccept] at ht
    cases ht
    exact step_running hr rfl hdec rfl
  case busy => exact step_write_dropped hr (busy_of_seq hv) hh (resolve_write_cmd w) rfl

/-! ## What a command may write -/

/-- The state with what a command may write before it completes taken from r: what the builder writes, BIT, OUT and
CODE with their counts. -/
def State.withResults (s r : State) : State :=
  { s.withBuilder r with
    bitLen := r.bitLen
    outLen := r.outLen
    mem := { (s.withBuilder r).mem with code := r.mem.code, bit := r.mem.bit, out := r.mem.out } }

theorem eq_withResults_of_outsideBuilder {s u : State} (h : u.outsideBuilder = s.outsideBuilder) :
    u = s.withResults u :=
  congrArg (·.withResults u) (eq_withBuilder h)

/-! ## What the readers' reports do not depend on -/

/-- The error report of a completion state (10_state.md R39). -/
def State.report (s : State) : BitVec 8 × Word × Word := (s.errCode, s.errInfo0, s.errInfo1)

/-- ENCODE's loop reads the text and the table, and neither BIT nor BIT_LEN (43_encoder.md R210). -/
theorem encodeFrom_report (s : State) (left p q : Nat) (bit bit' b : Ram Bool) (n : Word) :
    (encodeFrom (s.withStream b n) left p q bit').complete.report = (encodeFrom s left p q bit).complete.report := by
  induction left generalizing p q bit bit' with
  | zero => rfl
  | succ left ih =>
    cases hv : (s.codeAt (s.textAt p)).valid with
    | false => rw [encodeFrom_unknown left hv, encodeFrom_unknown (s := s.withStream b n) left hv]; rfl
    | true =>
      by_cases hq : q + (s.codeAt (s.textAt p)).len.toNat ≤ 32768
      · rw [encodeFrom_fits left hv hq, encodeFrom_fits (s := s.withStream b n) left hv hq]
        exact ih _ _ _ _
      · rw [encodeFrom_overflow left hv (Nat.lt_of_not_le hq),
          encodeFrom_overflow (s := s.withStream b n) left hv (Nat.lt_of_not_le hq)]
        rfl

theorem encodeBody_report (s : State) (b : Ram Bool) (n : Word) :
    (encodeBody (s.withStream b n)).complete.report = (encodeBody s).complete.report := by
  simp only [encodeBody, State.withStream_codesValid, State.withStream_textLen]
  by_cases hv : s.codesValid = false
  · simp only [hv, if_true]; rfl
  by_cases hlong : s.textLen.toNat > Config.textMax
  · simp only [hv, hlong, if_true]; rfl
  · simp only [hv, hlong, if_false]
    exact encodeFrom_report s _ 0 0 _ _ b n

/-- Where the walk stands, without what it has emitted (44_decoder.md R231). -/
def Walk.position (c : Walk) : NodeIdx × BitVec 8 × BitVec 16 := (c.cur, c.depth, c.start)

theorem walkFrom_withOutput (s : State) (o : Ram Sym) (n : Word) (left i : Nat) (c : Walk) :
    walkFrom (s.withOutput o n) left i c = walkFrom s left i c := by
  induction left generalizing i c with
  | zero => rfl
  | succ left ih => exact ih _ _

theorem decStep_position (s : State) (b : Bool) (i : Nat) {c c' : Walk} (h : c'.position = c.position) :
    (decStep s b i c').position = (decStep s b i c).position := by
  simp only [Walk.position, Prod.mk.injEq] at h
  obtain ⟨hcur, hdepth, hstart⟩ := h
  cases hroot : (s.nodeAt s.root.toNat).leaf with
  | true =>
    rw [decStep_oneLeaf i hroot, decStep_oneLeaf i hroot, Walk.position, Walk.position]
    simp only [Walk.emit, hcur, hdepth]
  | false =>
    cases hleaf : (s.nodeAt (s.child c.cur b).toNat).leaf with
    | true =>
      have hleaf' : (s.nodeAt (s.child c'.cur b).toNat).leaf = true := by rw [hcur, hleaf]
      rw [decStep_leaf i hroot hleaf, decStep_leaf i hroot hleaf']
      rfl
    | false =>
      have hleaf' : (s.nodeAt (s.child c'.cur b).toNat).leaf = false := by rw [hcur, hleaf]
      rw [decStep_inner i hroot hleaf, decStep_inner i hroot hleaf', Walk.position, Walk.position]
      simp only [hcur, hdepth, hstart]

theorem walkFrom_position (s : State) (left i : Nat) {c c' : Walk} (h : c'.position = c.position) :
    (walkFrom s left i c').position = (walkFrom s left i c).position := by
  induction left generalizing i c c' with
  | zero => exact h
  | succ left ih =>
    rw [walkFrom, walkFrom]
    exact ih (i + 1) (decStep_position s (s.bitAt i) i h)

theorem decodeBody_report (s : State) (o : Ram Sym) (n : Word) :
    (decodeBody (s.withOutput o n)).complete.report = (decodeBody s).complete.report := by
  have hwalk := walkFrom_position s s.bitLen.toNat 0 (c := s.atRoot) (c' := (s.withOutput o n).atRoot) rfl
  simp only [Walk.position, Prod.mk.injEq] at hwalk
  obtain ⟨-, hdepth, hstart⟩ := hwalk
  simp only [decodeBody, State.withOutput_treeValid, State.withOutput_bitLen, walkFrom_withOutput, hdepth, hstart]
  by_cases hv : s.treeValid = false
  · simp only [hv, if_true]; rfl
  by_cases hlong : s.bitLen.toNat > Config.bitMax
  · simp only [hv, hlong, if_true]; rfl
  · simp only [hv, hlong, Bool.true_eq_false, if_false]
    split <;> rfl

/-! ## How a command ends -/

/-- A merge step of a queue of two entries or more raises nothing (41_tree_builder.md R164). -/
theorem exists_mergeStep {s : State} (h2 : 2 ≤ s.pqSize.toNat) : ∃ t, mergeStep .index s = .ok () t := by
  obtain ⟨l, s1, x1⟩ := exists_extracted (s := s) (by omega)
  have hp1 := x1.pqSize
  obtain ⟨r, s2, x2⟩ := exists_extracted (s := s1) (by omega)
  rw [mergeStep, x1.ok, Cmd.bind_ok, x2.ok, Cmd.bind_ok]
  exact ⟨_, rfl⟩

/-- How a command that started in s and completed in t has ended: from a state u that keeps what no command writes,
with success, or with an error that the command gives again when it starts in u (R262, R263, R268). -/
inductive Ended (i : Instr) (s : State) : State → Prop where
  | success {u : State} (keeps : u = s.withResults u) : Ended i s u.succeed
  | error {u v : State} {e : ErrCode} {i0 i1 : Word} (keeps : u = s.withResults u) (again : exec i u = .next v)
      (report : v.report = (u.raise e i0 i1).report) : Ended i s (u.raise e i0 i1)

/-- An error raised before the command has written anything is raised again. -/
theorem ended_unchanged {i : Instr} {s : State} {e : ErrCode} {i0 i1 : Word}
    (h : exec i s = .next (s.raise e i0 i1)) : Ended i s (s.raise e i0 i1) :=
  .error rfl h rfl

/-- The builder's commands and GEN_CODES raise before they write anything; ENCODE and DECODE have then written only what
their own report does not depend on (R265, R268). -/
theorem exec_ended {i : Instr} {s t : State} (h : exec i s = .next t) : Ended i s t := by
  cases i with
  | nop => cases h; exact .success rfl
  | clear => cases h; exact .success rfl
  | seed =>
    obtain ⟨e, i0, i1, -, rfl⟩ | ⟨-, rfl⟩ := execSeed_cases h
    · exact ended_unchanged h
    · exact .success rfl
  | merge =>
    obtain ⟨-, rfl⟩ | ⟨h2, rfl⟩ := execMerge_cases h
    · exact ended_unchanged h
    · obtain ⟨u, hu⟩ := exists_mergeStep h2
      rw [hu]
      exact .success (eq_withResults_of_outsideBuilder (mergeStep_outsideBuilder h2 hu))
  | finish =>
    obtain ⟨-, rfl⟩ | ⟨-, rfl⟩ | ⟨h1, rfl⟩ := execFinish_cases h
    · exact ended_unchanged h
    · exact ended_unchanged h
    · rw [takeRoot_last h1]
      exact .success rfl
  | buildTree =>
    obtain ⟨e, i0, i1, rfl⟩ | ⟨u, v, hb, rfl⟩ := execBuildTree_cases h
    · exact ended_unchanged h
    · exact .success (congrArg (·.withResults v) hb.frame)
  | genCodes =>
    obtain ⟨-, rfl⟩ | ⟨-, code, -, rfl⟩ := execGenCodes_cases h
    · exact ended_unchanged h
    · exact .success rfl
  | encode =>
    obtain ⟨bit, n, rfl⟩ | ⟨e, i0, i1, bit, rfl⟩ := execEncode_cases h
    · exact .success rfl
    · refine .error rfl rfl ((encodeBody_report s bit 0#32).trans ?_)
      injection h with hbody
      rw [hbody]
  | decode =>
    obtain ⟨out, n, rfl⟩ | ⟨e, i0, i1, out, rfl⟩ := execDecode_cases h
    · exact .success rfl
    · refine .error rfl rfl ((decodeBody_report s out 0#32).trans ?_)
      injection h with hbody
      rw [hbody]

/-- Settles O35: a command ends from a state that keeps what no command writes, and its completion writes no input
either. -/
theorem commandsEndIdleAndWriteNoInput : Obligations.CommandsEndIdleAndWriteNoInput := by
  intro i s t h
  cases exec_ended h with
  | @success u keeps =>
    exact congrArg (fun x : State =>
      { x.succeed with errCode := u.errCode, errInfo0 := u.errInfo0, errInfo1 := u.errInfo1 }) keeps
  | @error u v e i0 i1 keeps => exact congrArg (·.raise e i0 i1) keeps

/-- Settles O38: accepted again, the command starts in the state in which it raised its error; one that succeeds
reports none. -/
theorem repeatedCommandRepeatsItsError : Obligations.RepeatedCommandRepeatsItsError := by
  intro i s t h herr
  cases exec_ended h with
  | success keeps => exact absurd (congrArg State.errCode keeps) herr
  | @error u v e i0 i1 keeps again report =>
    have haccept : (u.raise e i0 i1).accept (encode i) = u :=
      (congrArg (fun x => (x.raise e i0 i1).accept (encode i)) keeps).trans keeps.symm
    simp only [State.report, Prod.mk.injEq] at report
    refine ⟨v, ?_, report⟩
    rw [runCommand, haccept, again]

/-! ## The interrupt line -/

theorem exec_irq {i : Instr} {s t : State} (h : exec i s = .next t) : t.irq = s.irqEn :=
  (congrArg State.irq (commandsEndIdleAndWriteNoInput i s t h)).trans (Bool.and_true _)

theorem irq_of_not_done {s : State} (h : s.done = false) : s.irq = false := by
  rw [State.irq, h, Bool.and_false]

/-- The decoder rejects illegal words only (30_encoding.md R114, R115). -/
theorem illegal_of_decode_error {w : Word} {e : DecodeError} (he : decode w = .error e) : (fieldsOf w).wf = false := by
  refine Bool.eq_false_iff.2 fun hwf => ?_
  obtain ⟨i, rfl⟩ := fieldsOf_wf_iff.1 hwf
  rw [decode_encode] at he
  cases he

/-- Settles O48: completion sets DONE and keeps IRQ_EN, acceptance, the W1C write and reset clear DONE, and a write of
CTRL sets IRQ_EN alone. -/
theorem irqRisesAtCompletionAndFallsAtAcceptance : Obligations.IrqRisesAtCompletionAndFallsAtAcceptance := by
  refine ⟨fun s => Bool.and_eq_true_iff, fun i s t => exec_irq, fun s w e hr hw hh he => ?illegal,
    fun s w => irq_of_not_done rfl, fun s v hv => ⟨irq_of_not_done ?acknowledged, rfl⟩,
    fun s v => ⟨rfl, fun hv => ?masked, fun hv hd => ?unmasked⟩, rfl⟩
  case illegal => exact ⟨_, step_illegal hr hw hh (illegal_of_decode_error he), rfl, Bool.and_true _⟩
  case acknowledged => simp [State.writeStatus, hv]
  case masked => exact Bool.and_eq_false_imp.2 fun h => absurd h (ne_true_of_eq_false hv)
  case unmasked => exact Bool.and_eq_true_iff.2 ⟨hv, hd⟩

end Sys2Proof.Machine

/-! # Reset and the completion of every command (70_reset_and_hazards.md R290, R291, R297) -/

namespace Sys2Proof.Machine

/-! ## Completion -/

/-- No command stops on a state the builder can be in: GEN_CODES alone has a stuck path, and the walk of a sound tree
does not take it (42_code_table.md R192). -/
theorem exec_completes {s : State} (hs : TreeSound s) (i : Instr) : ∃ t, exec i s = .next t := by
  cases i with
  | nop => exact ⟨_, exec_nop s⟩
  | clear => exact ⟨_, exec_clear s⟩
  | seed => exact ⟨_, rfl⟩
  | merge => exact ⟨_, rfl⟩
  | finish => exact ⟨_, rfl⟩
  | buildTree => exact ⟨_, rfl⟩
  | genCodes =>
    obtain ⟨noTree, onTree⟩ := genCodesCompletesOnATree s
    cases hv : s.treeValid with
    | false => exact ⟨_, noTree hv⟩
    | true =>
      obtain ⟨t, ht, -⟩ := onTree hs hv
      exact ⟨t, ht⟩
  | encode => exact ⟨_, rfl⟩
  | decode => exact ⟨_, rfl⟩

theorem exec_idle_done {i : Instr} {s t : State} (h : exec i s = .next t) : t.seq = .idle ∧ t.done = true :=
  have hend := commandsEndIdleAndWriteNoInput i s t h
  ⟨congrArg State.seq hend, congrArg State.done hend⟩

/-- Settles O37: a legal word's command stops on no path, and an illegal word takes its error entry. -/
theorem everyAcceptedCommandCompletes : Obligations.EveryAcceptedCommandCompletes := by
  intro s w hs hr hw hh
  cases hi : decode w with
  | ok i =>
    obtain ⟨t, ht⟩ := exec_completes hs i
    exact ⟨t, (step_running hr hw hi hh).trans ht, exec_idle_done ht⟩
  | error e => exact ⟨_, step_illegal hr hw hh (illegal_of_decode_error hi), rfl, rfl⟩

/-! ## Reset -/

theorem step_drive {s : State} {level : Bool} {rest : List HostEvent} (hh : s.host = .drive level :: rest) :
    step s = .next ({ s with host := rest }.driveReset level) := by
  rw [step, hh]

/-- Going low gives the reset values from any state. -/
theorem driveReset_low (s : State) : s.driveReset false =
    { State.reset with rstN := false, host := s.host, epoch := s.epoch + 1, draws := s.draws } := rfl

/-- Going high from low gives the reset state, its RAM contents drawn anew once more. -/
theorem driveReset_high {s : State} (hr : s.rstN = false) : s.driveReset true =
    { State.reset with host := s.host, epoch := s.epoch + 1, draws := s.draws } := by
  rw [State.driveReset, hr]
  rfl

theorem fetchCommand_in_reset {s : State} (hr : s.rstN = false) : s.fetchCommand = none := by
  cases hw : s.seq <;> simp [State.fetchCommand, hw, hr]

theorem step_in_reset {s : State} (hr : s.rstN = false) (hh : s.host = []) : step s = .next s := by
  rw [step_no_event hh, sequencerTurn, fetchCommand_in_reset hr]

theorem step_access_in_reset {s : State} {a : Access} {rest : List HostEvent} (hr : s.rstN = false)
    (hh : s.host = .port a :: rest) : step s = .refused (.accessInReset a) := by
  rw [step, hh]
  exact if_pos hr

/-- Settles O9: low discards everything but the pending inputs and the draws, and high is then a second reset. -/
theorem resetFromAnyStateGivesTheResetValues : Obligations.ResetFromAnyStateGivesTheResetValues := by
  refine fun s rest => ⟨fun hh => ?low, step_in_reset, fun a => step_access_in_reset, fun hh => ?lowThenHigh⟩
  case low => exact ⟨s.epoch + 1, _, Nat.lt_succ_self _, step_drive hh, driveReset_low _, rfl, rfl⟩
  case lowThenHigh =>
    refine ⟨s.epoch + 1 + 1, by omega, run_two (step_drive hh) ?_⟩
    rw [driveReset_low, step_drive rfl, driveReset_high rfl]

end Sys2Proof.Machine
